-- ==== Sys2Proof/Word.lean ====
section
/-! DEFINITION. The word types of the HLL sketch block: every port word, register and response field is a bit
vector whose bit 0 is the least significant bit (spec 00_scope.md R11); no word is ever split into bytes
(20_memory.md R61). -/

namespace Sys2Proof

/-- The 32-bit command word CMD (00_scope.md R15, 30_encoding.md R85). -/
abbrev CmdWord := BitVec 32

/-- A 64-bit operand or response data word (30_encoding.md R80, R82). -/
abbrev Data64 := BitVec 64

/-- The 8-bit response status (30_encoding.md R87). -/
abbrev Status := BitVec 8

/-- One 7-bit slot of the register array (10_state.md R30). -/
abbrev RegVal := BitVec 7

/-- A binary64 value, held as its 64-bit encoding `bits64` (00_scope.md R13). -/
abbrev F64 := BitVec 64

/-- One byte of an input string of the external hash unit (00_scope.md R8). -/
abbrev Byte := BitVec 8

/-- NREG, the number of physical register slots (00_scope.md R9, 10_state.md R30). -/
abbrev nreg : Nat := 65536

/-- BIAS_N, the length of the bias ROM (00_scope.md R9, 10_state.md R38). -/
abbrev biasN : Nat := 200

/-- CFG.MODE, the estimator variant of a sketch (00_scope.md R2, 10_state.md R34). -/
inductive Mode where
  | baseline       -- MODE = 0: harmonic mean and small-range linear counting only
  | biasCorrected  -- MODE = 1: "ultra", with the mid-range and large-range corrections
  deriving DecidableEq, Repr

/-- The MODE bit as a mode (10_state.md R34). -/
abbrev Mode.ofBit (b : Bool) : Mode := if b then .biasCorrected else .baseline

/-- A mode as its MODE bit (10_state.md R34). -/
abbrev Mode.bit : Mode → Bool
  | .baseline => false
  | .biasCorrected => true

/-- The six causes for which a command is refused (30_encoding.md R89). -/
inductive ErrorCode where
  | illegalOp          -- ILLEGAL_OP, code 1 (60_exceptions.md R160)
  | reservedField      -- RESERVED_FIELD, code 2 (60_exceptions.md R166)
  | notConfigured      -- NOT_CONFIGURED, code 3 (60_exceptions.md R161)
  | alreadyConfigured  -- ALREADY_CONFIGURED, code 4 (60_exceptions.md R163)
  | badConfig          -- BAD_CONFIG, code 5 (60_exceptions.md R164)
  | indexRange         -- INDEX_RANGE, code 6 (60_exceptions.md R165)
  deriving DecidableEq, Repr

/-- One command transfer: the command word and its operand, moved together (30_encoding.md R80, R85). -/
structure Command where
  word : CmdWord
  data : Data64
  deriving DecidableEq, Repr

end Sys2Proof
end

