-- ==== Sys2Proof/Syntax.lean ====
section
/-! DEFINITION. The commands of the HLL sketch block, one constructor per row of spec/opcode_table.json
(spec 30_encoding.md R91). A constructor holds the operands its rule reads (30_encoding.md R86): DATA bits that a
command ignores are no operand of it. -/

namespace Sys2Proof

/-- A decoded command. -/
inductive Instr where
  /-- NOP, opcode 0x0 (40_configuration.md R110). -/
  | nop
  /-- CONFIG, opcode 0x1: W64, MODE and P from the command word, the seed from DATA (40_configuration.md R111). -/
  | config (w64 : Bool) (mode : Mode) (p : BitVec 5) (seed : Data64)
  /-- ADD, opcode 0x2: the operand that carries the hash word (41_update.md R126). -/
  | add (data : Data64)
  /-- EST, opcode 0x3 (42_estimate.md R140). -/
  | est
  /-- RDREG, opcode 0x4, with its register index (41_update.md R130). -/
  | rdreg (index : BitVec 16)
  /-- RDSTAT, opcode 0x5 (40_configuration.md R117). -/
  | rdstat
  /-- RDSEED, opcode 0x6 (40_configuration.md R118). -/
  | rdseed
  /-- RELEASE, opcode 0x7 (40_configuration.md R115). -/
  | release
  /-- The illegal opcodes 0x8 to 0xF, with the other 28 bits of the word, which may be anything
  (60_exceptions.md R160). -/
  | illegal (op : BitVec 4) (rest : BitVec 28)
  deriving DecidableEq, Repr

end Sys2Proof
end

