-- ==== Sys2Proof/WellFormed.lean ====
section
/-! DEFINITION. Which commands are encodings of the block. Every operand's type has exactly the width of its field
(spec 30_encoding.md R85), so the one thing left to check is the opcode of an illegal command. -/

namespace Sys2Proof

/-- The command has a command word: an illegal command's opcode is 0x8 to 0xF, that is, `CMD[3] = 1`
(30_encoding.md R91, 60_exceptions.md R160). -/
def Instr.wellFormed : Instr → Bool
  | .illegal op _ => op.getLsbD 3
  | .nop => true
  | .config _ _ _ _ => true
  | .add _ => true
  | .est => true
  | .rdreg _ => true
  | .rdstat => true
  | .rdseed => true
  | .release => true

end Sys2Proof
end

