-- ==== Sys2Proof/Decode.lean ====
section
/-! DEFINITION. Decoding (spec 30_encoding.md R85, R86, R91 to R95) and, after it, encoding (R85, R96). Decoding is
total: every command word gives one command, ILLEGAL (itself a row of the table) or RESERVED_FIELD (R94). It does
not depend on the state (R95). -/

namespace Sys2Proof

/-- The opcode, `CMD[3:0]` (30_encoding.md R85). -/
def opField (w : CmdWord) : BitVec 4 := w.extractLsb' 0 4

/-- P = `CMD[12:8]` (30_encoding.md R86). -/
def pField (w : CmdWord) : BitVec 5 := w.extractLsb' 8 5

/-- MODE = `CMD[13]` (30_encoding.md R86). -/
def modeField (w : CmdWord) : Mode := Mode.ofBit (w.getLsbD 13)

/-- W64 = `CMD[14]` (30_encoding.md R86). -/
def w64Field (w : CmdWord) : Bool := w.getLsbD 14

/-- INDEX = `CMD[31:16]` (30_encoding.md R86). -/
def indexField (w : CmdWord) : BitVec 16 := w.extractLsb' 16 16

/-- The reserved bits of the opcode's format: C, I or N (30_encoding.md R85, R92). -/
def reservedMask (op : BitVec 4) : CmdWord :=
  if op = 0x1#4 then 0xFFFF80F0#32
  else if op = 0x4#4 then 0x0000FFF0#32
  else 0xFFFFFFF0#32

/-- Dispatch on a legal opcode, 0x0 to 0x7 (30_encoding.md R91, R92). -/
def decodeLegal (w : CmdWord) (data : Data64) : Instr :=
  match (opField w).toNat with
  | 0 => .nop
  | 1 => .config (w64Field w) (modeField w) (pField w) data
  | 2 => .add data
  | 3 => .est
  | 4 => .rdreg (indexField w)
  | 5 => .rdstat
  | 6 => .rdseed
  | 7 => .release
  | _ => .illegal (opField w) (w.extractLsb' 4 28)

/-- The decoder, in the order of 30_encoding.md R92: ILLEGAL first, then RESERVED_FIELD, then dispatch. -/
def decode (w : CmdWord) (data : Data64) : Except ErrorCode Instr :=
  if 8 ≤ (opField w).toNat then .ok (.illegal (opField w) (w.extractLsb' 4 28))
  else if w &&& reservedMask (opField w) ≠ 0 then .error .reservedField
  else .ok (decodeLegal w data)

/-- The decoder on a whole command transfer. -/
def decodeCommand (c : Command) : Except ErrorCode Instr := decode c.word c.data

/-- The command transfer whose bits are `w`, numbered as spec/opcode_table.json numbers them: the command word is
bits 31:0 and DATA the 64 bits above it. Every bit from `nbits` on is 0. -/
def tableCommand (nbits w : Nat) : Command :=
  ⟨BitVec.ofNat 32 (w % 2 ^ nbits), BitVec.ofNat 64 (w % 2 ^ nbits / 2 ^ 32)⟩

/-- The command the decoder reads from the bits `w` of a table row; none where it refuses the word. -/
def decodeTableWord (nbits w : Nat) : Option Instr :=
  match decodeCommand (tableCommand nbits w) with
  | .ok i => some i
  | .error _ => none

/-- The name of a command in the opcode map (30_encoding.md R91) and spec/opcode_table.json. -/
def Instr.mnemonic : Instr → String
  | .nop => "NOP"
  | .config _ _ _ _ => "CONFIG"
  | .add _ => "ADD"
  | .est => "EST"
  | .rdreg _ => "RDREG"
  | .rdstat => "RDSTAT"
  | .rdseed => "RDSEED"
  | .release => "RELEASE"
  | .illegal _ _ => "ILLEGAL"

/-- The opcode of a command (30_encoding.md R91). -/
def Instr.opcode : Instr → BitVec 4
  | .nop => 0x0#4
  | .config _ _ _ _ => 0x1#4
  | .add _ => 0x2#4
  | .est => 0x3#4
  | .rdreg _ => 0x4#4
  | .rdstat => 0x5#4
  | .rdseed => 0x6#4
  | .release => 0x7#4
  | .illegal op _ => op

/-- Bits 31:4 of the command word, from the formats of 30_encoding.md R85: N is all zeros; C holds W64, MODE and P
at bits 14, 13 and 12:8; I holds INDEX at bits 31:16. -/
def Instr.upperBits : Instr → BitVec 28
  | .config w64 mode p _ => 0#17 ++ BitVec.ofBool w64 ++ BitVec.ofBool mode.bit ++ p ++ 0#4
  | .rdreg index => index ++ 0#12
  | .illegal _ rest => rest
  | .nop => 0
  | .add _ => 0
  | .est => 0
  | .rdstat => 0
  | .rdseed => 0
  | .release => 0

/-- The operand word: the seed of CONFIG, the hash word of ADD; 0 for every other command, as an assembler writes
it (30_encoding.md R96). -/
def Instr.dataWord : Instr → Data64
  | .config _ _ _ seed => seed
  | .add data => data
  | .nop => 0
  | .est => 0
  | .rdreg _ => 0
  | .rdstat => 0
  | .rdseed => 0
  | .release => 0
  | .illegal _ _ => 0

/-- The command transfer that stands for a command (30_encoding.md R85, R96). -/
def encode (i : Instr) : Command := ⟨i.upperBits ++ i.opcode, i.dataWord⟩

/-- One row of the opcode map: a word matches when `(CMD & mask) = match` (30_encoding.md R91). -/
structure OpcodeRow where
  mnemonic : String
  matchBits : CmdWord
  mask : CmdWord
  deriving DecidableEq, Repr

/-- The opcode map of 30_encoding.md R91, row by row. -/
def opcodeMap : List OpcodeRow :=
  [ ⟨"NOP", 0x00000000#32, 0xFFFFFFFF#32⟩
  , ⟨"CONFIG", 0x00000001#32, 0xFFFF80FF#32⟩
  , ⟨"ADD", 0x00000002#32, 0xFFFFFFFF#32⟩
  , ⟨"EST", 0x00000003#32, 0xFFFFFFFF#32⟩
  , ⟨"RDREG", 0x00000004#32, 0x0000FFFF#32⟩
  , ⟨"RDSTAT", 0x00000005#32, 0xFFFFFFFF#32⟩
  , ⟨"RDSEED", 0x00000006#32, 0xFFFFFFFF#32⟩
  , ⟨"RELEASE", 0x00000007#32, 0xFFFFFFFF#32⟩
  , ⟨"ILLEGAL", 0x00000008#32, 0x00000008#32⟩ ]

/-- A word matches a row (30_encoding.md R91). -/
def OpcodeRow.hits (r : OpcodeRow) (w : CmdWord) : Bool := w &&& r.mask == r.matchBits

end Sys2Proof
end

