-- ==== Sys2Proof/Machine/Binary64.lean ====
section
/-! DEFINITION. IEEE 754 binary64 arithmetic with round to nearest, ties to even: the values and the
operations ⊕ ⊖ ⊗ ⊘ of spec 00_scope.md R13 and 42_estimate.md R155, computed exactly on integers and rounded once.

A finite binary64 value is a whole number of units of 2^-1074 (the least subnormal), so its value is held as an
integer count of those units and every exact result before rounding is a fraction of two naturals. -/

namespace Sys2Proof

/-- Bit 63, the sign (00_scope.md R13). -/
def F64.sign (x : F64) : Bool := x.msb

/-- Bits 62:52, the biased exponent (00_scope.md R13). -/
def F64.expBits (x : F64) : Nat := x.toNat / 2 ^ 52 % 2 ^ 11

/-- Bits 51:0, the fraction (00_scope.md R13). -/
def F64.fracBits (x : F64) : Nat := x.toNat % 2 ^ 52

/-- The value is a finite number. -/
def F64.isFinite (x : F64) : Bool := x.expBits != 2047

/-- The value is +infinity or -infinity. -/
def F64.isInf (x : F64) : Bool := x.expBits == 2047 && x.fracBits == 0

/-- The value is no number. -/
def F64.isNaN (x : F64) : Bool := x.expBits == 2047 && x.fracBits != 0

/-- +0.0 -/
abbrev F64.posZero : F64 := 0x0000000000000000#64
/-- -0.0 -/
abbrev F64.negZero : F64 := 0x8000000000000000#64
/-- 1.0 -/
abbrev F64.one : F64 := 0x3FF0000000000000#64
/-- +infinity, 0x7FF0000000000000 (42_estimate.md R151). -/
abbrev F64.posInf : F64 := 0x7FF0000000000000#64
/-- The one NaN the operations answer with outside their domain. DESIGN CHOICE (log 12): the spec says that no
step produces a NaN (42_estimate.md R155), so which NaN is never seen. -/
abbrev F64.quietNaN : F64 := 0x7FF8000000000000#64

/-- How many units of 2^-1074 make 1. -/
abbrev F64.unitsPerOne : Nat := 2 ^ 1074

/-- The magnitude of a finite value in units of 2^-1074; for an infinity, 2^2098 units, which lies above every
finite magnitude, so that comparisons need no case of their own. -/
def F64.mag (x : F64) : Nat :=
  if x.expBits = 0 then x.fracBits else (2 ^ 52 + x.fracBits) * 2 ^ (x.expBits - 1)

/-- The signed value in units of 2^-1074; +0.0 and -0.0 are both 0. -/
def F64.units (x : F64) : Int := if x.sign then -(x.mag : Int) else (x.mag : Int)

/-- The rational number a finite binary64 encoding stands for. -/
def F64.toRat (x : F64) : Rat := (x.units : Rat) / (F64.unitsPerOne : Rat)

/-- Bits 62:0 of the binary64 value nearest to `num / den` units, ties to even, before the overflow test
(00_scope.md R13). `q` is the exponent of the unit in the last place, `m` the significand rounded down. Adding
`q * 2^52` to the rounded significand gives the encoding in every case: a significand below 2^52 occurs only with
`q = 0` and is a subnormal, and one that rounds up to 2^53 carries into the exponent field. -/
def F64.roundMag (num den : Nat) : Nat :=
  let q := Nat.log2 (num / den) - 52
  let ulp := den * 2 ^ q
  let m := num / ulp
  let r := num % ulp
  q * 2 ^ 52 + (if 2 * r > ulp ∨ (2 * r = ulp ∧ m % 2 = 1) then m + 1 else m)

/-- RNE of `num / den` units of 2^-1074 with the given sign: the nearest binary64 value, ties to even, an infinity
on overflow (00_scope.md R13). -/
def F64.rne (neg : Bool) (num den : Nat) : F64 :=
  BitVec.ofNat 64 ((if neg then 2 ^ 63 else 0) + min (F64.roundMag num den) (2047 * 2 ^ 52))

/-- RNE of the non-negative rational number `num / den`; decimal literals and exact sums are rounded by it
(00_scope.md R13). -/
def F64.ofRatio (num den : Nat) : F64 := F64.rne false (num * F64.unitsPerOne) den

/-- RNE of a natural number. -/
def F64.ofNat (n : Nat) : F64 := F64.ofRatio n 1

/-- The value with its sign complemented: an exact negation (42_estimate.md R151). Adding 2^63 modulo 2^64 changes
bit 63 alone. -/
def F64.neg (x : F64) : F64 := x + 0x8000000000000000#64

/-- `a ⊕ b = RNE(a + b)` (00_scope.md R13). An exact sum of zero is +0.0 unless both operands are -0.0, as
IEEE 754 has it in this rounding mode. -/
def F64.add (a b : F64) : F64 :=
  if a.isNaN || b.isNaN then F64.quietNaN
  else if a.isInf then (if b.isInf && a.sign != b.sign then F64.quietNaN else a)
  else if b.isInf then b
  else
    let s := a.units + b.units
    if s = 0 then (if a.sign && b.sign then F64.negZero else F64.posZero)
    else F64.rne (decide (s < 0)) s.natAbs 1

/-- `a ⊖ b = RNE(a − b)` (00_scope.md R13). -/
def F64.sub (a b : F64) : F64 := F64.add a b.neg

/-- An infinity of the given sign. -/
def F64.signedInf (neg : Bool) : F64 := if neg then F64.posInf.neg else F64.posInf

/-- A zero of the given sign. -/
def F64.signedZero (neg : Bool) : F64 := if neg then F64.negZero else F64.posZero

/-- `a ⊗ b = RNE(a × b)` (00_scope.md R13). -/
def F64.mul (a b : F64) : F64 :=
  let neg := a.sign != b.sign
  if a.isNaN || b.isNaN then F64.quietNaN
  else if a.isInf || b.isInf then
    (if a.mag = 0 ∨ b.mag = 0 then F64.quietNaN else F64.signedInf neg)
  else F64.rne neg (a.mag * b.mag) F64.unitsPerOne

/-- `a ⊘ b = RNE(a / b)` (00_scope.md R13). -/
def F64.div (a b : F64) : F64 :=
  let neg := a.sign != b.sign
  if a.isNaN || b.isNaN then F64.quietNaN
  else if a.isInf then (if b.isInf then F64.quietNaN else F64.signedInf neg)
  else if b.isInf then F64.signedZero neg
  else if b.mag = 0 then (if a.mag = 0 then F64.quietNaN else F64.signedInf neg)
  else F64.rne neg (a.mag * F64.unitsPerOne) b.mag

/-- The binary64 comparison `a < b` (92_eei_decisions.md D12); false if either is a NaN. -/
def F64.lt (a b : F64) : Bool := !a.isNaN && !b.isNaN && decide (a.units < b.units)

/-- The binary64 comparison `a ≤ b` (92_eei_decisions.md D12); false if either is a NaN. -/
def F64.le (a b : F64) : Bool := !a.isNaN && !b.isNaN && decide (a.units ≤ b.units)

/-- The value is negative or -0.0 (42_estimate.md R152). -/
def F64.negativeOrNegZero (x : F64) : Bool := x.sign && !x.isNaN

end Sys2Proof
end

