-- ==== Sys2Proof/Machine/BiasRom.lean ====
section
/-! DEFINITION. The bias ROM (spec 10_state.md R38) and its well-formedness (R39). -/

namespace Sys2Proof

/-- One pair (BIAS_RAW[i], BIAS_VAL[i]) of the bias ROM (10_state.md R38, R44). -/
structure BiasEntry where
  raw : F64
  val : F64
  deriving DecidableEq, Repr

/-- One entry is legal: both values are finite and `|BIAS_VAL[i]| ≤ 2^1020` (10_state.md R39). -/
def biasEntryOk (e : BiasEntry) : Bool :=
  e.raw.isFinite && e.val.isFinite && decide (e.val.mag ≤ 2 ^ 1020 * F64.unitsPerOne)

/-- BIAS_RAW is strictly increasing, in binary64 comparison (10_state.md R39). -/
def biasIncreasing : List BiasEntry → Bool
  | [] => true
  | [_] => true
  | a :: b :: rest => F64.lt a.raw b.raw && biasIncreasing (b :: rest)

/-- The whole check of 10_state.md R39 on a ROM parameter of 200 pairs. -/
def biasRomOk (entries : List BiasEntry) : Bool :=
  decide (entries.length = biasN) && entries.all biasEntryOk && biasIncreasing entries

/-- A bias ROM. It carries its check: a ROM parameter that fails it cannot be built ("A model refuses to build a
block whose ROM parameter fails this check", 10_state.md R39). -/
structure BiasRom where
  entries : List BiasEntry
  ok : biasRomOk entries = true
  deriving DecidableEq, Repr

/-- BIAS_VAL[i] for `i` below 200 (00_scope.md R14). Past the end, which no rule reads (42_estimate.md R148),
+0.0. -/
def BiasRom.val (rom : BiasRom) (i : Nat) : F64 := (rom.entries.map BiasEntry.val).getD i F64.posZero

/-- BIAS_RAW[i] for `i` below 200 (00_scope.md R14). Past the end, which no rule reads, +0.0. -/
def BiasRom.raw (rom : BiasRom) (i : Nat) : F64 := (rom.entries.map BiasEntry.raw).getD i F64.posZero

end Sys2Proof
end

