-- ==== Sys2Proof/Config.lean ====
section
/-! DEFINITION. What an implementation of the block fixes and the spec leaves open (spec 00_scope.md R9,
93_implementation_defined.md part 1), each as a constant with no body, so that no proof can see its value. -/

namespace Sys2Proof

/-- An LN unit: the natural-logarithm function a builder supplies, with the three properties the spec names and
nothing else (42_estimate.md R143 (a), (b), (c)). -/
structure LnUnit where
  ln : F64 → F64
  /-- (a) `LN(1.0) = +0.0` exactly. -/
  ln_one : ln F64.one = F64.posZero
  /-- (b) for every positive finite x, `LN(x)` is finite. -/
  ln_finite : ∀ x : F64, x.isFinite = true → F64.lt F64.posZero x = true → (ln x).isFinite = true
  /-- (c) `LN(x) > 0` for finite x > 1. -/
  ln_pos : ∀ x : F64, x.isFinite = true → F64.lt F64.one x = true → F64.lt F64.posZero (ln x) = true
  /-- (c) `LN(x) < 0` for 0 < x < 1. -/
  ln_neg : ∀ x : F64, F64.lt F64.posZero x = true → F64.lt x F64.one = true → F64.lt (ln x) F64.posZero = true

/-- Some function has the properties of 42_estimate.md R143, so an LN unit exists: the sign of ln, as a step
function. It is used only to show that, and as a witness in tests; the block's LN is `Config.ln`. -/
def LnUnit.sample : LnUnit where
  ln x := if F64.lt F64.one x then F64.one else if F64.lt x F64.one then F64.one.neg else F64.posZero
  ln_one := by decide +kernel
  ln_finite := by
    intro x _ _
    split
    · decide +kernel
    · split <;> decide +kernel
  ln_pos := by
    intro x _ h
    simp only [h, if_true]
    decide +kernel
  ln_neg := by
    intro x _ h
    have hn : F64.lt F64.one x = false := by
      simp only [F64.lt, Bool.and_eq_true, decide_eq_true_eq] at h
      simp only [F64.lt, Bool.and_eq_false_iff, decide_eq_false_iff_not]
      omega
    simp only [hn, h, if_true]
    decide +kernel

/-- A ROM that satisfies 10_state.md R39: the raw estimates are the 200 least positive binary64 values, in order, and
every bias is +0.0. It is used only to show that a well-formed ROM exists, and in tests. -/
def BiasRom.sample : BiasRom where
  entries := (List.range biasN).map fun i => ⟨BitVec.ofNat 64 (i + 1), F64.posZero⟩
  ok := by decide +kernel

/-- The block's LN unit: OPEN parameter LN (00_scope.md R9, 42_estimate.md R143, 92_eei_decisions.md D13). -/
opaque Config.lnUnit [Inhabited LnUnit] : LnUnit

/-- The block's LN function. The argument of `Config.lnUnit` shows only that an LN unit exists. -/
def Config.ln : F64 → F64 := (@Config.lnUnit ⟨LnUnit.sample⟩).ln

/-- The block's bias ROM parameter: OPEN parameter BIAS_RAW, BIAS_VAL (00_scope.md R9, 10_state.md R38). -/
opaque Config.biasRomParameter [Inhabited BiasRom] : BiasRom

/-- The ROM the block is built with. The argument shows only that a well-formed ROM exists. -/
def Config.biasRom : BiasRom := @Config.biasRomParameter ⟨BiasRom.sample⟩

/-- RQ_DEPTH less one; RQ_DEPTH is an OPEN parameter, an integer ≥ 1 (00_scope.md R9). -/
opaque Config.rqDepthLessOne : Nat

/-- RQ_DEPTH, the capacity of the response queue (10_state.md R42). -/
def Config.rqDepth : Nat := Config.rqDepthLessOne + 1

/-- LATENCY: the bound on the cycles for which an idle block with room in RQ may keep `cmd_ready` at 0
(00_scope.md R9, 30_encoding.md R83). No command's effect depends on it. -/
opaque Config.latency : Nat

/-- HASH_W for W = 32: the external hash unit's function of a seed and a byte string (00_scope.md R8, R9). -/
opaque Config.hash32 : Data64 → List Byte → BitVec 32

/-- HASH_W for W = 64 (00_scope.md R8, R9); nothing relates it to `Config.hash32` (91_not_in_source.md N2). -/
opaque Config.hash64 : Data64 → List Byte → BitVec 64

/-- The value a register slot holds after the n-th reset and before a CONFIG writes it: unspecified
(10_state.md R45, R46; 93_implementation_defined.md items 1, 3, 4), so a free value of its own for each reset and
each slot. -/
opaque Config.unspecifiedSlot : Nat → Nat → RegVal

/-- LN_ACCURACY, "how close LN is to the real ln" (00_scope.md R9, 42_estimate.md R143, 92_eei_decisions.md D13).
DESIGN CHOICE (log 19): the spec does not say how closeness is measured; here it is one bound on the absolute
difference over all positive finite x, not a relative error and not units in the last place. OPEN: no rule of the
block rests on it, so no bound is imposed on `Config.lnUnit`, and no definition uses this one. -/
def LnUnit.Accuracy (L : LnUnit) (err : ℝ) : Prop :=
  ∀ x : F64, x.isFinite = true → F64.lt F64.posZero x = true →
    |((L.ln x).toRat : ℝ) - Real.log (x.toRat : ℝ)| ≤ err

/-- `y` is the binary64 value nearest to the real number `r`, ties to the value with an even significand
(00_scope.md R13), where `r` does not overflow. -/
def F64.NearestEven (r : ℝ) (y : F64) : Prop :=
  y.isFinite = true ∧
  (∀ z : F64, z.isFinite = true → |r - (y.toRat : ℝ)| ≤ |r - (z.toRat : ℝ)|) ∧
  (∀ z : F64, z.isFinite = true → z.toRat ≠ y.toRat → |r - (z.toRat : ℝ)| = |r - (y.toRat : ℝ)| →
    y.fracBits % 2 = 0)

/-- The recommendation of 92_eei_decisions.md D13 and 42_estimate.md R143: LN is correctly rounded,
`LN(x) = RNE(ln x)`. The block does not assume it. -/
def LnUnit.CorrectlyRounded (L : LnUnit) : Prop :=
  ∀ x : F64, x.isFinite = true → F64.lt F64.posZero x = true →
    F64.NearestEven (Real.log (x.toRat : ℝ)) (L.ln x)

end Sys2Proof
end

