-- ==== Sys2Proof/Machine/State.lean ====
section
/-! DEFINITION. The state of the HLL sketch block (spec 10_state.md): the tuple (CFG, SEED, REG, RQ) and the bias
ROM, the commands accepted and not yet executed (70_reset_and_hazards.md R190 (d)), and beside them the host, the
other agent (00_scope.md R7): the clock edges it still drives and the responses it has taken. -/

namespace Sys2Proof.Machine

/-- The configuration register CFG (10_state.md R34). -/
structure Cfg where
  p : BitVec 5
  mode : Mode
  w64 : Bool
  configured : Bool
  deriving DecidableEq, Repr

/-- CFG while no sketch exists: every field 0 (10_state.md R35, R45). -/
abbrev Cfg.unconfigured : Cfg := ⟨0#5, .baseline, false, false⟩

/-- What a slot of the register array holds that the list of written slots does not name. -/
inductive Fill where
  | zero                     -- a CONFIG has written 0 to every slot (40_configuration.md R112)
  | unspecified (n : Nat)    -- no CONFIG since the n-th reset: a free value (10_state.md R45, R46)
  deriving DecidableEq, Repr

/-- The register array REG: 65536 slots of 7 bits (10_state.md R30), as the slots whose value differs from the
fill, by strictly rising index. -/
structure RegFile where
  fill : Fill
  slots : List (Nat × RegVal)
  deriving DecidableEq, Repr

/-- One entry of the response queue (10_state.md R42, 30_encoding.md R82). -/
structure Response where
  status : Status
  data : Data64
  deriving DecidableEq, Repr

/-- One rising edge of `clk`: the inputs the host drives, and the two choices of the block's timing that the spec
leaves to LATENCY (30_encoding.md R80, R82, R83, R84; 93_implementation_defined.md items 5, 6, 24). -/
structure Edge where
  rst : Bool
  cmdValid : Bool
  cmdWord : CmdWord
  cmdData : Data64
  rspReady : Bool
  /-- The block's timing lets `cmd_ready` be 1 in this cycle, where RQ is not full. -/
  willing : Bool
  /-- The oldest accepted command's execution ends in this cycle, where RQ has room for its response. -/
  executes : Bool
  deriving DecidableEq, Repr

/-- The whole state. -/
structure State where
  /-- CFG (10_state.md R34). -/
  cfg : Cfg
  /-- SEED (10_state.md R37). -/
  seed : Data64
  /-- REG (10_state.md R30). -/
  regs : RegFile
  /-- RQ, oldest entry first (10_state.md R42). -/
  rq : List Response
  /-- The bias ROM (10_state.md R38). -/
  rom : BiasRom
  /-- The commands accepted and not yet executed, oldest first (70_reset_and_hazards.md R190 (d), R196). -/
  pending : List Command
  /-- The host: the clock edges to come, in order. -/
  edges : List Edge
  /-- The host: the responses it has taken since the last reset, in order: those of the present run
  (70_reset_and_hazards.md R199). -/
  taken : List Response
  /-- The host: the responses it took in runs that a reset has ended, in order; they stand, and belong to no later
  run (70_reset_and_hazards.md R199). -/
  takenBefore : List Response
  /-- The model's own counter of free values: the number of the next reset. -/
  resets : Nat
  deriving DecidableEq, Repr

/-- The block has no fault: it has no trap, every command is executed or refused with an error response, and every
reachable state gives a number (60_exceptions.md R162, 42_estimate.md R156). So there is no reason a step can stop
with, and nothing raises one: safe. -/
inductive Fault where
  deriving DecidableEq, Repr

/-- Reasons for which the model, not the block, would give no meaning. -/
inductive Refusal where
  /-- Raised by an arm of exec that has no meaning yet; no arm raises it now. Safe: the model stops where the block
  would go on. -/
  | notModelled (mnemonic : String)
  deriving DecidableEq, Repr

/-- The state right after reset (10_state.md R45, 70_reset_and_hazards.md R190, R192, R193): unconfigured, SEED 0,
RQ empty, no command in execution, the ROM parameter, every register slot a free value. The host has driven no
edge yet and has taken no response. The reset that led here is number 0. -/
def State.reset : State where
  cfg := Cfg.unconfigured
  seed := 0#64
  regs := ⟨.unspecified 0, []⟩
  rq := []
  rom := Config.biasRom
  pending := []
  edges := []
  taken := []
  takenBefore := []
  resets := 1

end Sys2Proof.Machine
end

