-- ==== Sys2Proof/Machine/Ops.lean ====
section
/-! DEFINITION. The named operations on the state: reading and writing the register array, appending a response,
refusing a command (the block's one exception, spec 60_exceptions.md R162; there is no return from it, R169),
taking a response and reset. -/

namespace Sys2Proof.Machine

/-! ### The derived quantities of a configured sketch -/

/-- `m = 2^P`, the number of registers (00_scope.md R9, R10). -/
def Cfg.m (c : Cfg) : Nat := 2 ^ c.p.toNat

/-- W, the width of a hash word: 64 if W64 = 1, else 32 (00_scope.md R10). -/
def Cfg.width (c : Cfg) : Nat := if c.w64 then 64 else 32

/-- `W − P`, the width of the remainder field (00_scope.md R10). -/
def Cfg.remWidth (c : Cfg) : Nat := c.width - c.p.toNat

/-- The read-out image of CFG: P in bits 4:0, MODE in bit 5, W64 in bit 6, CONFIGURED in bit 7
(10_state.md R34). -/
def Cfg.image (c : Cfg) : BitVec 8 :=
  BitVec.ofBool c.configured ++ BitVec.ofBool c.w64 ++ BitVec.ofBool c.mode.bit ++ c.p

/-! ### The register array -/

/-- The value of a slot that no entry names. -/
def Fill.value : Fill → Nat → RegVal
  | .zero, _ => 0#7
  | .unspecified n, i => Config.unspecifiedSlot n i

/-- The entry of slot `i`, if there is one. -/
def slotLookup (i : Nat) : List (Nat × RegVal) → Option RegVal
  | [] => none
  | (j, v) :: rest => if j = i then some v else slotLookup i rest

/-- The entries with slot `i` holding `v`, in rising order of index. -/
def slotInsert (i : Nat) (v : RegVal) : List (Nat × RegVal) → List (Nat × RegVal)
  | [] => [(i, v)]
  | (j, w) :: rest =>
    if i < j then (i, v) :: (j, w) :: rest
    else if i = j then (i, v) :: rest
    else (j, w) :: slotInsert i v rest

/-- The entries without slot `i`. -/
def slotErase (i : Nat) : List (Nat × RegVal) → List (Nat × RegVal)
  | [] => []
  | (j, w) :: rest => if j = i then rest else (j, w) :: slotErase i rest

/-- `REG[i]` (00_scope.md R14). -/
def RegFile.read (r : RegFile) (i : Nat) : RegVal :=
  match slotLookup i r.slots with
  | some v => v
  | none => r.fill.value i

/-- `REG[i] <- v` (00_scope.md R14): an entry equal to what an unnamed slot holds is removed. -/
def RegFile.write (r : RegFile) (i : Nat) (v : RegVal) : RegFile :=
  if v = r.fill.value i then { r with slots := slotErase i r.slots }
  else { r with slots := slotInsert i v r.slots }

/-- 0 in all 65536 slots (40_configuration.md R112). -/
def RegFile.cleared : RegFile := ⟨.zero, []⟩

/-- The indices rise strictly. -/
def slotsRise : List (Nat × RegVal) → Bool
  | [] => true
  | [_] => true
  | a :: b :: rest => decide (a.1 < b.1) && slotsRise (b :: rest)

/-- The canonical form: indices rise strictly and lie below 65536, and no entry equals what an unnamed slot
holds. -/
def RegFile.wf (r : RegFile) : Bool :=
  slotsRise r.slots && r.slots.all fun e => decide (e.1 < nreg) && decide (e.2 ≠ r.fill.value e.1)

/-! ### Responses and error responses -/

/-- The error codes (30_encoding.md R89). -/
def errorCode : ErrorCode → BitVec 4
  | .illegalOp => 1#4
  | .reservedField => 2#4
  | .notConfigured => 3#4
  | .alreadyConfigured => 4#4
  | .badConfig => 5#4
  | .indexRange => 6#4

/-- The status byte of an error response, `0x80 | code`: ERR in bit 7, bits 6:4 zero, the code in bits 3:0
(00_scope.md R15, 30_encoding.md R87). -/
def errorStatus (e : ErrorCode) : Status := 1#1 ++ 0#3 ++ errorCode e

/-- `respond(status, data)`: append one entry to the response queue (00_scope.md R15). -/
def State.respond (s : State) (status : Status) (data : Data64) : State :=
  { s with rq := s.rq ++ [⟨status, data⟩] }

/-- `raise Error(code)`: the block's only exception. It appends the error response (status `0x80 | code`, data 0)
and writes no other state (00_scope.md R15, 60_exceptions.md R162). -/
def State.raiseError (s : State) (e : ErrorCode) : State := s.respond (errorStatus e) 0#64

/-! ### The ports -/

/-- RQ is full: it holds RQ_DEPTH ≥ 1 entries (10_state.md R42). An empty queue is never full. -/
def rqFull : List Response → Bool
  | [] => false
  | _ :: rest => decide (Config.rqDepthLessOne ≤ rest.length)

/-- `cmd_ready` in the cycle of this edge: 0 while RQ is full, and otherwise as the block's timing has it
(30_encoding.md R83); during reset it is whatever the timing has (R84). -/
def State.cmdReady (s : State) (e : Edge) : Bool := e.willing && (e.rst || !rqFull s.rq)

/-- `rsp_valid`: RQ is not empty (30_encoding.md R82). -/
def State.rspValid (s : State) : Bool := !s.rq.isEmpty

/-- `rsp_status` and `rsp_data`: the head entry of RQ, while `rsp_valid = 1` (30_encoding.md R82). -/
def State.rspHead (s : State) : Option Response := s.rq.head?

/-- `seed_o` (30_encoding.md R81). -/
def State.seedO (s : State) : Data64 := s.seed

/-- `w64_o` (30_encoding.md R81). -/
def State.w64O (s : State) : Bool := s.cfg.w64

/-- `cfg_o` (30_encoding.md R81). -/
def State.cfgO (s : State) : Bool := s.cfg.configured

/-- A command transfer happens at this edge (30_encoding.md R80, R84). -/
def State.accepts (s : State) (e : Edge) : Bool := !e.rst && e.cmdValid && s.cmdReady e

/-- A response transfer happens at this edge (30_encoding.md R82, R84). -/
def State.delivers (s : State) (e : Edge) : Bool := !e.rst && e.rspReady && s.rspValid

/-- The response transfer: the head entry of RQ goes to the host (30_encoding.md R82). -/
def State.takeResponse (s : State) : State :=
  match s.rq with
  | [] => s
  | r :: rest => { s with rq := rest, taken := s.taken ++ [r] }

/-- The command transfer: the block samples CMD and DATA as the newest accepted command (30_encoding.md R80). -/
def State.acceptCommand (s : State) (e : Edge) : State :=
  { s with pending := s.pending ++ [⟨e.cmdWord, e.cmdData⟩] }

/-- What one edge with `rst = 1` does (70_reset_and_hazards.md R190): CFG and SEED become 0, RQ is emptied, every
accepted command whose response is not in RQ is abandoned, nothing is transferred. The register array is not
written, and what its slots hold afterwards is unspecified (10_state.md R45), whatever they held and whatever an
abandoned command wrote (R191): a new free value for each slot. A reset starts a run: the responses the host has
taken stand, as those of the runs before it (R199). -/
def State.resetEdge (s : State) : State :=
  { s with
    cfg := Cfg.unconfigured
    seed := 0#64
    regs := ⟨.unspecified s.resets, []⟩
    rq := []
    pending := []
    taken := []
    takenBefore := s.takenBefore ++ s.taken
    resets := s.resets + 1 }

end Sys2Proof.Machine
end

