-- ==== Sys2Proof/Machine/Errors.lean ====
section
/-! DEFINITION. The commands the block refuses whatever its state: opcodes 0x8 to 0xF (spec 60_exceptions.md R160)
and words with a reserved bit set (R166). -/

namespace Sys2Proof.Machine

/-- An illegal opcode: ILLEGAL_OP in every state, whatever the other bits of the word (60_exceptions.md R160). -/
def execIllegal (_op : BitVec 4) (_rest : BitVec 28) (s : State) : Host.Outcome State Fault Refusal :=
  .next (s.raiseError .illegalOp)

/-- A word the decoder refuses: its error response and nothing else (30_encoding.md R92, R93 (b)). -/
def execDecodeError (e : ErrorCode) (s : State) : Host.Outcome State Fault Refusal :=
  .next (s.raiseError e)

end Sys2Proof.Machine
end

