-- ==== Sys2Proof/Machine/Flags.lean ====
section
/-! DEFINITION. The regime flags SR, MR, LR and CL of an EST response (spec 30_encoding.md R88). They are no state:
each EST computes them afresh (10_state.md R41). -/

namespace Sys2Proof.Machine

/-- The four regime flags (30_encoding.md R88). -/
structure RegimeFlags where
  sr : Bool   -- linear counting replaced the estimate
  mr : Bool   -- the mid-range bias correction was applied
  lr : Bool   -- the large-range correction condition held
  cl : Bool   -- the output was clamped
  deriving DecidableEq, Repr

/-- No correction ran: `SR, MR, LR, CL <- 0, 0, 0, 0` (42_estimate.md R140). -/
abbrev RegimeFlags.none : RegimeFlags := ⟨false, false, false, false⟩

/-- `{CL, LR, MR, SR}` in bits 3:0 (30_encoding.md R88, 42_estimate.md R140). -/
def RegimeFlags.bits (f : RegimeFlags) : BitVec 4 :=
  BitVec.ofBool f.cl ++ BitVec.ofBool f.lr ++ BitVec.ofBool f.mr ++ BitVec.ofBool f.sr

/-- The status byte of a command that executed: ERR = 0, bits 6:4 zero, the flags in bits 3:0
(30_encoding.md R87). -/
def flagStatus (f : RegimeFlags) : Status := 0#4 ++ f.bits

/-- The status byte of a command that executed and is no EST: flag bits 0 (30_encoding.md R88). -/
def okStatus : Status := flagStatus RegimeFlags.none

end Sys2Proof.Machine
end

