-- ==== Sys2Proof/Machine/Operands.lean ====
section
/-! DEFINITION. Operand assembly and the pure functions of the update pipeline: the hash word, its partition and
the rho extractor (spec 30_encoding.md R86, 41_update.md R122 to R124), and CONFIG's checks (40_configuration.md
R113). -/

namespace Sys2Proof.Machine

/-- The hash word an ADD uses: `DATA[63:0]` when W64 = 1, `DATA[31:0]` zero-extended when W64 = 0
(30_encoding.md R86, 41_update.md R123). -/
def hashWord (c : Cfg) (data : Data64) : Nat := data.toNat % 2 ^ c.width

/-- `idx(h) = h[P−1:0]` (41_update.md R122). -/
def hashIndex (c : Cfg) (h : Nat) : Nat := h % 2 ^ c.p.toNat

/-- `rem(h) = h[W−1:P]` (41_update.md R122). -/
def hashRem (c : Cfg) (h : Nat) : Nat := h >>> c.p.toNat

/-- `clz_n(v)`: the zero bits above the most significant one bit of `v` written with exactly `n` bits; `n` for
`v = 0` (00_scope.md R12). -/
def clz : Nat → Nat → Nat
  | 0, _ => 0
  | n + 1, v => if v.testBit n then 0 else clz n v + 1

/-- The rho extractor CountLeadingZerosPlusOne on an `n`-bit remainder (41_update.md R124). -/
def rho (rem n : Nat) : Nat :=
  if n = 0 then 1
  else if rem = 0 then n + 1
  else min (clz n rem + 1) (n + 1)

/-- The rho of a hash word under a configuration (41_update.md R126). -/
def hashRho (c : Cfg) (h : Nat) : Nat := rho (hashRem c h) c.remWidth

/-- `P < 4 or P > 16` (40_configuration.md R111, R113). -/
def indexBitsOutOfRange (p : BitVec 5) : Bool := decide (p.toNat < 4) || decide (16 < p.toNat)

/-- `MODE = 1 and W64 = 0` (40_configuration.md R111, R113). -/
def modeNeedsWideHash (mode : Mode) (w64 : Bool) : Bool := mode.bit && !w64

/-- The data of an ADD response: idx in bits 31:16, UPD in bit 7, rho in bits 6:0, every other bit 0
(30_encoding.md R90, 41_update.md R126). -/
def addResponseData (idx : Nat) (upd : Bool) (r : Nat) : Data64 :=
  (BitVec.ofNat 16 idx ++ 0#8 ++ BitVec.ofBool upd ++ BitVec.ofNat 7 r).zeroExtend 64

end Sys2Proof.Machine
end

