-- ==== Sys2Proof/Machine/Estimate.lean ====
section
/-! DEFINITION. The estimator harness, EST (spec 42_estimate.md): harmonic mean, linear counting, the bias-table
correction and the saturation correction. The LN function and the bias ROM are arguments of every step; EST runs
them with the block's own. -/

namespace Sys2Proof.Machine

/-! ### The harmonic mean (R141, R142) -/

/-- The numerator of HS over the common denominator 2^127: `Σ_{i<m} 2^(127 − REG[i])` (42_estimate.md R141). Seven
bits hold at most 127, so every term is a whole number. -/
def harmonicNum (regs : RegFile) : Nat → Nat
  | 0 => 0
  | m + 1 => harmonicNum regs m + 2 ^ (127 - (regs.read m).toNat)

/-- `hs = RNE(HS)`: the exact sum, rounded once (42_estimate.md R141). -/
def harmonicSum (regs : RegFile) (m : Nat) : F64 := F64.ofRatio (harmonicNum regs m) (2 ^ 127)

/-- `alpha64(P)` (10_state.md R36). -/
def alpha64 (p : Nat) : F64 :=
  if p = 4 then F64.ofRatio 673 1000
  else if p = 5 then F64.ofRatio 697 1000
  else if p = 6 then F64.ofRatio 709 1000
  else F64.div (F64.ofRatio 7213 10000)
    (F64.add F64.one (F64.div (F64.ofRatio 1079 1000) (F64.ofNat (2 ^ p))))

/-- `raw = (alpha64(P) ⊗ 2^(2P)) ⊘ hs` (42_estimate.md R142). -/
def rawEstimate (p : Nat) (regs : RegFile) : F64 :=
  F64.div (F64.mul (alpha64 p) (F64.ofNat (2 ^ (2 * p)))) (harmonicSum regs (2 ^ p))

/-! ### The small range (R144, R145) -/

/-- Z: the number of registers below `m` that are 0 (42_estimate.md R145). -/
def zeroCount (regs : RegFile) : Nat → Nat
  | 0 => 0
  | m + 1 => zeroCount regs m + (if regs.read m = 0#7 then 1 else 0)

/-- `raw <= 2.5 * m`, a binary64 comparison (42_estimate.md R144). -/
def smallRange (m : Nat) (raw : F64) : Bool := F64.le raw (F64.ofRatio (5 * m) 2)

/-- `m ⊗ LN(m ⊘ Z)` (42_estimate.md R145). -/
def linearCounting (ln : F64 → F64) (m z : Nat) : F64 :=
  F64.mul (F64.ofNat m) (ln (F64.div (F64.ofNat m) (F64.ofNat z)))

/-! ### The mid range (R146 to R149) -/

/-- `raw < 5.0 * m`, a binary64 comparison (42_estimate.md R146). -/
def belowMidRangeTop (m : Nat) (raw : F64) : Bool := F64.lt raw (F64.ofNat (5 * m))

/-- The least `i` with `BIAS_RAW[i] >= x`, or the length of the table if there is none (42_estimate.md R147). -/
def lowerBound (x : F64) : List BiasEntry → Nat
  | [] => 0
  | e :: rest => if F64.le x e.raw then 0 else lowerBound x rest + 1

/-- The left end of the window of six entries: `left` after the shift at the upper edge (42_estimate.md R148). -/
def windowLeft (idx : Nat) : Nat :=
  let left := idx - 3
  let right := min biasN (left + 6)
  if right - left < 6 then right - 6 else left

/-- The right end of the window (42_estimate.md R148). -/
def windowRight (idx : Nat) : Nat := min biasN ((idx - 3) + 6)

/-- The left-to-right binary64 sum of the six biases from `left` on (42_estimate.md R149). -/
def windowSum (rom : BiasRom) (left : Nat) : F64 :=
  F64.add (F64.add (F64.add (F64.add (F64.add (rom.val left) (rom.val (left + 1))) (rom.val (left + 2)))
    (rom.val (left + 3))) (rom.val (left + 4))) (rom.val (left + 5))

/-- `WINDOW_AVG(raw)`: the sum divided by 6.0 (42_estimate.md R149). -/
def windowAvg (rom : BiasRom) (raw : F64) : F64 :=
  F64.div (windowSum rom (windowLeft (lowerBound raw rom.entries))) (F64.ofNat 6)

/-! ### The large range (R150, R151) and the output rule (R152) -/

/-- 2^64. -/
def two64 : F64 := F64.ofNat (2 ^ 64)

/-- `TLR = RNE(2^64 / 30)` (42_estimate.md R150). -/
def tlr : F64 := F64.ofRatio (2 ^ 64) 30

/-- An estimate on its way through the steps of R140, with the flags set so far. -/
structure Estimate where
  value : F64
  flags : RegimeFlags
  deriving DecidableEq, Repr

/-- The first step of R140 after `raw`: linear counting, or else the mid-range correction, or neither
(42_estimate.md R144 to R149). The small-range branch is chosen by its condition alone, whatever Z is
(90_conflicts.md C1). -/
def smallOrMidRange (ln : F64 → F64) (rom : BiasRom) (c : Cfg) (regs : RegFile) (raw : F64) : Estimate :=
  if smallRange c.m raw then
    (if 0 < zeroCount regs c.m then
      ⟨linearCounting ln c.m (zeroCount regs c.m), { RegimeFlags.none with sr := true }⟩
    else ⟨raw, RegimeFlags.none⟩)
  else if c.mode.bit && belowMidRangeTop c.m raw then
    ⟨F64.sub raw (windowAvg rom raw), { RegimeFlags.none with mr := true }⟩
  else ⟨raw, RegimeFlags.none⟩

/-- The large-range correction, on the value the earlier step left (42_estimate.md R150, R151; 90_conflicts.md C2,
C3). -/
def largeRange (ln : F64 → F64) (c : Cfg) (x : Estimate) : Estimate :=
  if c.mode.bit && F64.lt tlr x.value then
    let d := F64.sub F64.one (F64.div x.value two64)
    if F64.le d F64.posZero then ⟨F64.posInf, { x.flags with lr := true, cl := true }⟩
    else ⟨F64.neg (F64.mul two64 (ln d)), { x.flags with lr := true }⟩
  else x

/-- The output rule: a negative value or −0.0 becomes +0.0, with CL (42_estimate.md R152; 90_conflicts.md C4). -/
def outputRule (x : Estimate) : Estimate :=
  if F64.negativeOrNegZero x.value then ⟨F64.posZero, { x.flags with cl := true }⟩ else x

/-- The whole estimator, for an LN function and a bias ROM (42_estimate.md R140). -/
def estimate (ln : F64 → F64) (rom : BiasRom) (c : Cfg) (regs : RegFile) : Estimate :=
  outputRule (largeRange ln c (smallOrMidRange ln rom c regs (rawEstimate c.p.toNat regs)))

/-- EST: the estimate and its regime flags, or NOT_CONFIGURED (42_estimate.md R140). -/
def execEst (s : State) : Host.Outcome State Fault Refusal :=
  if !s.cfg.configured then .next (s.raiseError .notConfigured)
  else
    let e := estimate Config.ln s.rom s.cfg s.regs
    .next (s.respond (flagStatus e.flags) e.value)

end Sys2Proof.Machine
end

