-- ==== Sys2Proof/Machine/Lifecycle.lean ====
section
/-! DEFINITION. The lifecycle and status commands NOP, CONFIG, RELEASE, RDSTAT and RDSEED (spec
40_configuration.md). -/

namespace Sys2Proof.Machine

/-- NOP: the response alone (40_configuration.md R110). -/
def execNop (s : State) : Host.Outcome State Fault Refusal := .next (s.respond okStatus 0#64)

/-- What a successful CONFIG writes, all at once: 0 to every slot, the four CFG fields and SEED
(40_configuration.md R112). -/
def State.configure (s : State) (w64 : Bool) (mode : Mode) (p : BitVec 5) (seed : Data64) : State :=
  { s with regs := RegFile.cleared, cfg := ⟨p, mode, w64, true⟩, seed := seed }

/-- CONFIG: construct a sketch, or refuse and write nothing (40_configuration.md R111). -/
def execConfig (w64 : Bool) (mode : Mode) (p : BitVec 5) (seed : Data64) (s : State) :
    Host.Outcome State Fault Refusal :=
  if s.cfg.configured then .next (s.raiseError .alreadyConfigured)
  else if indexBitsOutOfRange p then .next (s.raiseError .badConfig)
  else if modeNeedsWideHash mode w64 then .next (s.raiseError .badConfig)
  else .next ((s.configure w64 mode p seed).respond okStatus 0#64)

/-- RDSTAT: the CFG image, in every state (40_configuration.md R117). -/
def execRdstat (s : State) : Host.Outcome State Fault Refusal :=
  .next (s.respond okStatus (s.cfg.image.zeroExtend 64))

/-- RDSEED: SEED, or NOT_CONFIGURED (40_configuration.md R118). -/
def execRdseed (s : State) : Host.Outcome State Fault Refusal :=
  if !s.cfg.configured then .next (s.raiseError .notConfigured)
  else .next (s.respond okStatus s.seed)

/-- RELEASE: CFG and SEED become 0, the register slots keep their values (40_configuration.md R115). -/
def execRelease (s : State) : Host.Outcome State Fault Refusal :=
  .next ({ s with cfg := Cfg.unconfigured, seed := 0#64 }.respond okStatus 0#64)

end Sys2Proof.Machine
end

