-- ==== Sys2Proof/Machine/Update.lean ====
section
/-! DEFINITION. The update family, ADD and RDREG (spec 41_update.md). -/

namespace Sys2Proof.Machine

/-- ADD: `REG[idx] <- max(REG[idx], rho)` for the hash word in DATA, or NOT_CONFIGURED (41_update.md R126). -/
def execAdd (data : Data64) (s : State) : Host.Outcome State Fault Refusal :=
  if !s.cfg.configured then .next (s.raiseError .notConfigured)
  else
    let h := hashWord s.cfg data
    let i := hashIndex s.cfg h
    let r := hashRho s.cfg h
    let old := (s.regs.read i).toNat
    .next ({ s with regs := s.regs.write i (BitVec.ofNat 7 (max old r)) }.respond okStatus
      (addResponseData i (decide (old < r)) r))

/-- RDREG: `REG[INDEX]`, or NOT_CONFIGURED, or INDEX_RANGE (41_update.md R130). -/
def execRdreg (index : BitVec 16) (s : State) : Host.Outcome State Fault Refusal :=
  if !s.cfg.configured then .next (s.raiseError .notConfigured)
  else if s.cfg.m ≤ index.toNat then .next (s.raiseError .indexRange)
  else .next (s.respond okStatus ((s.regs.read index.toNat).zeroExtend 64))

end Sys2Proof.Machine
end

