-- ==== Sys2Proof/Machine/Dispatch.lean ====
section
/-! DEFINITION. One arm per command (spec 30_encoding.md R91, R92). -/

namespace Sys2Proof.Machine

def exec (i : Instr) (s : State) : Host.Outcome State Fault Refusal :=
  match i with
  | .nop => Sys2Proof.Machine.execNop s
  | .config w64 mode p seed => Sys2Proof.Machine.execConfig w64 mode p seed s
  | .add data => Sys2Proof.Machine.execAdd data s
  | .est => Sys2Proof.Machine.execEst s
  | .rdreg index => Sys2Proof.Machine.execRdreg index s
  | .rdstat => Sys2Proof.Machine.execRdstat s
  | .rdseed => Sys2Proof.Machine.execRdseed s
  | .release => Sys2Proof.Machine.execRelease s
  | .illegal op rest => Sys2Proof.Machine.execIllegal op rest s

end Sys2Proof.Machine
end

