-- ==== Sys2Proof/Machine/Clock.lean ====
section
/-! DEFINITION. One rising edge of the clock (spec 30_encoding.md R80 to R84, 20_memory.md R67, R68,
70_reset_and_hazards.md R190) and how a word reaches the block as the command it executes next. -/

namespace Sys2Proof.Machine

/-- Execute one accepted command as one indivisible step: decode it, then run its rule, or refuse it with the
decoder's error (20_memory.md R67, 30_encoding.md R92). -/
def runCommand (c : Command) (s : State) : Host.Outcome State Fault Refusal :=
  match decodeCommand c with
  | .ok i => exec i s
  | .error e => execDecodeError e s

/-- The oldest accepted command ends its execution, where RQ has room for its response; with no such command,
or no room, nothing (20_memory.md R67, R68; 10_state.md R42). -/
def executeOldest (s : State) : Host.Outcome State Fault Refusal :=
  match s.pending with
  | [] => .next s
  | c :: rest => if rqFull s.rq then .next s else runCommand c { s with pending := rest }

/-- The two transfers of an edge with `rst = 0`: a response leaves RQ, a command is accepted. Both are decided by
the ports as they stand before the edge (30_encoding.md R80, R82, R83). -/
def transfers (e : Edge) (s : State) : State :=
  let s₁ := if s.delivers e then s.takeResponse else s
  if s.accepts e then s₁.acceptCommand e else s₁

/-- One rising edge of `clk` (30_encoding.md R84): reset, or else the transfers and then, if the block's timing has
it so, the end of the oldest command's execution. -/
def clockEdge (e : Edge) (s : State) : Host.Outcome State Fault Refusal :=
  if e.rst then .next s.resetEdge
  else if e.executes then executeOldest (transfers e s)
  else .next (transfers e s)

/-- The edge at which the host offers `c`, and the block accepts and executes it at once. -/
def commandEdge (c : Command) : Edge :=
  { rst := false, cmdValid := true, cmdWord := c.word, cmdData := c.data, rspReady := false,
    willing := true, executes := true }

/-- The host takes every response that waits. -/
def State.drainResponses (s : State) : State := { s with rq := [], taken := s.taken ++ s.rq }

/-- The state in which the host offers `c` at the next edge and nothing stands before it: no earlier command is in
execution, and a full response queue has been taken by the host. -/
def State.offer (s : State) (c : Command) : State :=
  let s₁ := if rqFull s.rq then s.drainResponses else s
  { s₁ with pending := [], edges := commandEdge c :: s.edges }

end Sys2Proof.Machine
end

