-- ==== Sys2Proof/Machine/Step.lean ====
section
/-! DEFINITION. The machine's step: the next rising edge of the clock that the host drives. -/

namespace Sys2Proof.Machine

/-- One step: the host's next clock edge. While the host drives none, the block is idle and keeps all its state
(spec 60_exceptions.md R176). -/
def step (s : State) : Host.Outcome State Fault Refusal :=
  match s.edges with
  | [] => .next s
  | e :: rest => clockEdge e { s with edges := rest }

/-- The state with the command whose bits are `w` (numbered as spec/opcode_table.json numbers them) as the one the
next step accepts and executes. The block fetches nothing (10_state.md R40): commands come from the command port,
so the word is put on the port, with DATA 0 above `nbits`. -/
def State.withFetchWord (s : State) (nbits w : Nat) : State := s.offer (tableCommand nbits w)

end Sys2Proof.Machine
end

