-- ==== Sys2Proof/Machine/Assembler.lean ====
section
/-! DEFINITION. Assembly of commands: the syntax and the pseudo-instructions of spec 30_encoding.md R96 and R97. This
is the host's side of the command port; no command of the block reads it. -/

namespace Sys2Proof.Machine

/-- One line of assembly (30_encoding.md R96) or one pseudo-instruction (R97), its numbers not yet checked against
their fields. -/
inductive AsmLine where
  | nop
  | config (p : Nat) (mode : Mode) (w64 : Bool) (seed : Nat)
  | add (h : Nat)
  | est
  | rdreg (index : Nat)
  | rdstat
  | rdseed
  | release
  /-- `addstr <s>`: `add HASH_W(SEED, s)` (30_encoding.md R97). -/
  | addstr (text : List Byte)
  /-- `sync`: a NOP (30_encoding.md R97). -/
  | sync
  /-- `reconfig …`: RELEASE, then CONFIG (30_encoding.md R97). -/
  | reconfig (p : Nat) (mode : Mode) (w64 : Bool) (seed : Nat)
  /-- `illegal <n>`: a raw command word with that opcode (30_encoding.md R97). -/
  | illegal (n : Nat)
  deriving DecidableEq, Repr

/-- `HASH_W(SEED, s)` as the 64-bit operand of an ADD, for the width and the seed the hash unit reads on `w64_o` and
`seed_o` (00_scope.md R8, 30_encoding.md R81). -/
def hashOperand (w64 : Bool) (seed : Data64) (text : List Byte) : Data64 :=
  if w64 then Config.hash64 seed text else (Config.hash32 seed text).zeroExtend 64

/-- `0x1 | P<<8 | MODE<<13 | W64<<14` and the seed; an assembly error where P or the seed does not fit
(30_encoding.md R96). -/
def assembleConfig (p : Nat) (mode : Mode) (w64 : Bool) (seed : Nat) : Option Command :=
  if p ≤ 31 ∧ seed < 2 ^ 64 then
    some ⟨0x1#32 ||| BitVec.ofNat 32 p <<< 8 ||| BitVec.ofNat 32 mode.bit.toNat <<< 13
      ||| BitVec.ofNat 32 w64.toNat <<< 14, BitVec.ofNat 64 seed⟩
  else none

/-- The commands a line stands for, given the hash unit's view of the block; `none` for an assembly error: an
operand its field cannot hold (30_encoding.md R96, R97). -/
def assemble (w64O : Bool) (seedO : Data64) : AsmLine → Option (List Command)
  | .nop => some [⟨0x00000000#32, 0#64⟩]
  | .config p mode w64 seed => (assembleConfig p mode w64 seed).map fun c => [c]
  | .add h => if h < 2 ^ 64 then some [⟨0x00000002#32, BitVec.ofNat 64 h⟩] else none
  | .est => some [⟨0x00000003#32, 0#64⟩]
  | .rdreg index =>
    if index ≤ 65535 then some [⟨0x4#32 ||| BitVec.ofNat 32 index <<< 16, 0#64⟩] else none
  | .rdstat => some [⟨0x00000005#32, 0#64⟩]
  | .rdseed => some [⟨0x00000006#32, 0#64⟩]
  | .release => some [⟨0x00000007#32, 0#64⟩]
  | .addstr text => some [⟨0x00000002#32, hashOperand w64O seedO text⟩]
  | .sync => some [⟨0x00000000#32, 0#64⟩]
  | .reconfig p mode w64 seed =>
    (assembleConfig p mode w64 seed).map fun c => [⟨0x00000007#32, 0#64⟩, c]
  | .illegal n => if 8 ≤ n ∧ n ≤ 15 then some [⟨BitVec.ofNat 32 n, 0#64⟩] else none

/-! ### Reading a line of text (30_encoding.md R96)

One command per line, the mnemonic in lower case, then its operands, separated by commas; numbers are decimal, or
hexadecimal with `0x`. DESIGN CHOICE (log 10), as the spec gives the syntax by its forms alone: one blank ends the
mnemonic; further blanks around the operands are dropped, but for the string of `addstr`, which is every character
after that one blank, blanks among them; the operands of `config` stand in the order R96 writes them; a digit of a
hexadecimal number may be a letter of either case; a line with more or fewer operands is no line. -/

/-- The value of a digit in bases up to 16, with letters in either case. -/
def digitValue (c : Char) : Option Nat :=
  let n := c.toNat
  if 48 ≤ n ∧ n ≤ 57 then some (n - 48)
  else if 97 ≤ n ∧ n ≤ 102 then some (n - 87)
  else if 65 ≤ n ∧ n ≤ 70 then some (n - 55)
  else none

/-- The digits read so far, and the rest of them, in a base. -/
def readDigits (base : Nat) : Nat → List Char → Option Nat
  | acc, [] => some acc
  | acc, c :: rest =>
    match digitValue c with
    | some d => if d < base then readDigits base (acc * base + d) rest else none
    | none => none

/-- A number: decimal, or hexadecimal with `0x` (30_encoding.md R96). -/
def readNumber : List Char → Option Nat
  | [] => none
  | '0' :: 'x' :: c :: rest => readDigits 16 0 (c :: rest)
  | c :: rest => readDigits 10 0 (c :: rest)

/-- The characters without leading blanks. -/
def dropBlanks : List Char → List Char
  | ' ' :: rest => dropBlanks rest
  | cs => cs

/-- The characters without leading and trailing blanks. -/
def trimBlanks (cs : List Char) : List Char := (dropBlanks (dropBlanks cs).reverse).reverse

/-- The characters up to the first separator, and those after it, if there is one. -/
def breakAt (sep : Char) : List Char → List Char × Option (List Char)
  | [] => ([], none)
  | c :: rest =>
    if c = sep then ([], some rest)
    else
      let (a, b) := breakAt sep rest
      (c :: a, b)

/-- The text after `key=`, if the operand begins so. -/
def operandAfter (key : List Char) (cs : List Char) : Option (List Char) :=
  match key with
  | [] => match cs with
    | '=' :: rest => some rest
    | _ => none
  | k :: ks => match cs with
    | c :: rest => if c = k then operandAfter ks rest else none
    | [] => none

/-- The four operands `p=…, mode=…, w=…, seed=…` (30_encoding.md R96). -/
def readConfigOperands (cs : List Char) : Option (Nat × Mode × Bool × Nat) := do
  let (a, r₁) := breakAt ',' cs
  let (b, r₂) := breakAt ',' (← r₁)
  let (c, r₃) := breakAt ',' (← r₂)
  let p ← readNumber (← operandAfter ['p'] (trimBlanks a))
  let m ← operandAfter ['m', 'o', 'd', 'e'] (trimBlanks b)
  let mode ← if m = ['b', 'a', 's', 'e'] then some Mode.baseline
    else if m = ['u', 'l', 't', 'r', 'a'] then some Mode.biasCorrected else none
  let w ← readNumber (← operandAfter ['w'] (trimBlanks c))
  let w64 ← if w = 32 then some false else if w = 64 then some true else none
  let seed ← readNumber (← operandAfter ['s', 'e', 'e', 'd'] (trimBlanks (← r₃)))
  return (p, mode, w64, seed)

/-- The bytes of a string operand, its blanks among them: the low eight bits of each character's code. DESIGN CHOICE
(log 10). -/
def textBytes (cs : List Char) : List Byte := cs.map fun c => BitVec.ofNat 8 c.toNat

/-- One line of assembly; `none` for a line that is none (30_encoding.md R96, R97). DESIGN CHOICE (log 10): the
string of `addstr` keeps every blank after the first. -/
def readLine (line : List Char) : Option AsmLine :=
  let (name, rest) := breakAt ' ' (dropBlanks line)
  let args := rest.getD []
  let alone (l : AsmLine) : Option AsmLine := if trimBlanks args = [] then some l else none
  if name = ['n', 'o', 'p'] then alone .nop
  else if name = ['e', 's', 't'] then alone .est
  else if name = ['r', 'd', 's', 't', 'a', 't'] then alone .rdstat
  else if name = ['r', 'd', 's', 'e', 'e', 'd'] then alone .rdseed
  else if name = ['r', 'e', 'l', 'e', 'a', 's', 'e'] then alone .release
  else if name = ['s', 'y', 'n', 'c'] then alone .sync
  else if name = ['a', 'd', 'd'] then (readNumber (trimBlanks args)).map AsmLine.add
  else if name = ['r', 'd', 'r', 'e', 'g'] then (readNumber (trimBlanks args)).map AsmLine.rdreg
  else if name = ['i', 'l', 'l', 'e', 'g', 'a', 'l'] then (readNumber (trimBlanks args)).map AsmLine.illegal
  else if name = ['a', 'd', 'd', 's', 't', 'r'] then some (.addstr (textBytes args))
  else if name = ['c', 'o', 'n', 'f', 'i', 'g'] then
    (readConfigOperands args).map fun (p, mode, w64, seed) => .config p mode w64 seed
  else if name = ['r', 'e', 'c', 'o', 'n', 'f', 'i', 'g'] then
    (readConfigOperands args).map fun (p, mode, w64, seed) => .reconfig p mode w64 seed
  else none

end Sys2Proof.Machine
end

