-- ==== Sys2Proof/Safety.lean ====
section
/-! DEFINITION. What a legal state and a safe run of the block are, in the terms the statements use: legal
configurations and responses, the invariant of every reachable state, the observation of a run, the fairness of
the block's timing, and the atomic machine the block behaves as. -/

namespace Sys2Proof.Machine

/-! ### Legal values -/

/-- The (P, MODE, W64) combinations a sketch can have (spec 40_configuration.md R113, 10_state.md R34). -/
def Cfg.legal (c : Cfg) : Bool :=
  decide (4 ≤ c.p.toNat) && decide (c.p.toNat ≤ 16) && (!c.mode.bit || c.w64)

/-- A response the block can produce: with ERR = 1, a code of 30_encoding.md R89 and data 0; with ERR = 0, bits 6:4
zero (R87, R93 (d)). -/
def Response.legal (r : Response) : Bool :=
  if r.status.msb then
    [0x81#8, 0x82#8, 0x83#8, 0x84#8, 0x85#8, 0x86#8].contains r.status && r.data == 0#64
  else r.status.extractLsb' 4 3 == 0#3

/-- The invariant of every reachable state. -/
structure State.Inv (s : State) : Prop where
  /-- The register array is in canonical form. -/
  regs_canonical : s.regs.wf = true
  /-- While no sketch exists, every CFG field and SEED are 0 (10_state.md R35, R37). -/
  unconfigured_zero : s.cfg.configured = false → s.cfg = Cfg.unconfigured ∧ s.seed = 0#64
  /-- While a sketch exists, its configuration is legal (10_state.md R34). -/
  configured_legal : s.cfg.configured = true → s.cfg.legal = true
  /-- While a sketch exists, its registers are at most `W − P + 1` (10_state.md R32). -/
  registers_bounded : s.cfg.configured = true →
    ∀ i, i < s.cfg.m → (s.regs.read i).toNat ≤ s.cfg.remWidth + 1
  /-- While a sketch exists, every slot from `m` on is 0 (10_state.md R32). -/
  upper_slots_zero : s.cfg.configured = true → ∀ i, s.cfg.m ≤ i → s.regs.read i = 0#7
  /-- RQ holds at most RQ_DEPTH entries (10_state.md R42). -/
  queue_bounded : s.rq.length ≤ Config.rqDepth
  /-- Every response in RQ or taken by the host, in this run or before it, is legal (30_encoding.md R87, R89,
  R93). -/
  responses_legal : ∀ r ∈ s.takenBefore ++ s.taken ++ s.rq, Response.legal r = true
  /-- The next reset's free values are new ones. -/
  free_values_fresh : ∀ n, s.regs.fill = .unspecified n → n < s.resets

/-! ### Runs -/

/-- No edge before the next reset brings a command that an empty response queue would let in: the command accepted
last is the last one of the run. A run ends at a reset, which starts another. DEDUCED (log 16): R199 of
70_reset_and_hazards.md speaks of the last command and does not say how it is known to be the last. -/
def noCommandToCome : List Edge → Bool
  | [] => true
  | e :: rest => e.rst || (!(e.cmdValid && e.willing) && noCommandToCome rest)

/-- The run since the last reset is over: its last command has been accepted, every accepted command has executed,
and the host has taken every response. Idle edges and resets may still come. DEDUCED (log 16) from
70_reset_and_hazards.md R199. -/
def State.runOver (s : State) : Bool := noCommandToCome s.edges && s.pending.isEmpty && s.rq.isEmpty

/-- The observation of a run: the responses the host took in it, in order, and the final `seed_o`, `w64_o` and `cfg_o`
(70_reset_and_hazards.md R199). -/
structure Observation where
  responses : List Response
  seedO : Data64
  w64O : Bool
  cfgO : Bool
  deriving DecidableEq, Repr

/-- What a host observes of the run since the last reset, when it is over in this state; the responses of earlier
runs are not part of it (70_reset_and_hazards.md R199). -/
def State.observation (s : State) : Observation := ⟨s.taken, s.seedO, s.w64O, s.cfgO⟩

/-- The state a step leads to. The block never stops (60_exceptions.md R162), so a stop leaves the state as it
was. -/
def advance (s : State) : State :=
  match step s with
  | .next t => t
  | .fault _ => s
  | .refused _ => s

/-- The state after `n` clock edges. -/
def after : Nat → State → State
  | 0, s => s
  | n + 1, s => after n (advance s)

/-- The command accepted at the next edge, if one is (30_encoding.md R80). -/
def acceptedNow (s : State) : List Command :=
  match s.edges with
  | [] => []
  | e :: _ => if s.accepts e then [⟨e.cmdWord, e.cmdData⟩] else []

/-- The commands accepted in the next `n` edges, in acceptance order. -/
def acceptedWithin : Nat → State → List Command
  | 0, _ => []
  | n + 1, s => acceptedNow s ++ acceptedWithin n (advance s)

/-- The atomic machine: every command of the list is executed as one step, in order, each on the state the one
before it left (20_memory.md R67). -/
def atomically : List Command → State → State
  | [], s => s
  | c :: rest, s =>
    match runCommand c s with
    | .next t => atomically rest t
    | .fault _ => s
    | .refused _ => s

/-- The block's timing is fair on these edges: no more than LATENCY edges in a row keep the block unwilling to
accept (30_encoding.md R83). -/
def fairTiming (edges : List Edge) : Prop :=
  ∀ k, k + Config.latency < edges.length → ∃ j, j ≤ Config.latency ∧ ∃ e, edges[k + j]? = some e ∧ e.willing = true

end Sys2Proof.Machine
end

