-- ==== Sys2Proof/Certificates/Slice0/Obligations.lean ====
section
/-! DEFINITION. The statements about the HLL sketch block, from the numbered rules of its spec. A next state is
written as a record update of the state before, so each such statement also says that every other field is as it
was. -/

open Sys2Proof Sys2Proof.Machine

/-! ### The commands: results, completion and frame -/

/-- 40_configuration.md R110. NOP answers status 0x00, data 0 in every state and changes nothing else; a reserved
bit in its word is RESERVED_FIELD. -/
def Obligations.NopRespondsZero : Prop :=
  ∀ (s : State) (d : Data64),
    decode 0x00000000#32 d = .ok .nop ∧
    exec .nop s = .next { s with rq := s.rq ++ [⟨0x00#8, 0#64⟩] } ∧
    ∀ u : BitVec 28, u ≠ 0 →
      runCommand ⟨u ++ 0x0#4, d⟩ s = .next { s with rq := s.rq ++ [⟨0x82#8, 0#64⟩] }

/-- 40_configuration.md R111, R112, R113. CONFIG on an unconfigured block accepts exactly P from 4 to 16 with
(MODE, W64) other than (1, 0); it writes 0 to all 65536 slots, the four CFG fields and SEED, and answers 0x00. A
refused CONFIG writes nothing: 0x84 on a configured block, else 0x85. -/
def Obligations.ConfigConstructsSketch : Prop :=
  ∀ (s : State) (w64 : Bool) (mode : Mode) (p : BitVec 5) (seed : Data64),
    let i := Instr.config w64 mode p seed
    let accepted := 4 ≤ p.toNat ∧ p.toNat ≤ 16 ∧ ¬(mode = .biasCorrected ∧ w64 = false)
    (s.cfg.configured = true → exec i s = .next { s with rq := s.rq ++ [⟨0x84#8, 0#64⟩] }) ∧
    (s.cfg.configured = false → ¬accepted → exec i s = .next { s with rq := s.rq ++ [⟨0x85#8, 0#64⟩] }) ∧
    (s.cfg.configured = false → accepted → ∃ rg : RegFile, (∀ k < 65536, rg.read k = 0#7) ∧
      exec i s = .next { s with cfg := ⟨p, mode, w64, true⟩, seed := seed, regs := rg,
                                rq := s.rq ++ [⟨0x00#8, 0#64⟩] })

/-- 40_configuration.md R115. RELEASE always succeeds: CFG and SEED become 0, the register array keeps its
contents; on an unconfigured block it changes nothing but the response queue. -/
def Obligations.ReleaseEndsSketch : Prop :=
  ∀ (s : State) (d : Data64),
    decode 0x00000007#32 d = .ok .release ∧
    exec .release s = .next { s with cfg := ⟨0#5, .baseline, false, false⟩, seed := 0#64,
                                     rq := s.rq ++ [⟨0x00#8, 0#64⟩] } ∧
    (s.Inv → s.cfg.configured = false → exec .release s = .next { s with rq := s.rq ++ [⟨0x00#8, 0#64⟩] }) ∧
    ∀ u : BitVec 28, u ≠ 0 →
      runCommand ⟨u ++ 0x7#4, d⟩ s = .next { s with rq := s.rq ++ [⟨0x82#8, 0#64⟩] }

/-- 40_configuration.md R117. RDSTAT answers P + 32·MODE + 64·W64 + 128·CONFIGURED in every state and changes
nothing else; on an unconfigured block that is 0. -/
def Obligations.RdstatReadsConfiguration : Prop :=
  ∀ (s : State) (d : Data64),
    decode 0x00000005#32 d = .ok .rdstat ∧
    (∃ x : Data64, exec .rdstat s = .next { s with rq := s.rq ++ [⟨0x00#8, x⟩] } ∧
      x.toNat = s.cfg.p.toNat + 32 * s.cfg.mode.bit.toNat + 64 * s.cfg.w64.toNat + 128 * s.cfg.configured.toNat) ∧
    (s.Inv → s.cfg.configured = false →
      exec .rdstat s = .next { s with rq := s.rq ++ [⟨0x00#8, 0#64⟩] }) ∧
    ∀ u : BitVec 28, u ≠ 0 →
      runCommand ⟨u ++ 0x5#4, d⟩ s = .next { s with rq := s.rq ++ [⟨0x82#8, 0#64⟩] }

/-- 40_configuration.md R118. RDSEED answers SEED on a configured block and NOT_CONFIGURED otherwise, and changes
nothing else; and SEED is the seed that CONFIG wrote until a RELEASE or a reset. -/
def Obligations.RdseedReadsSeed : Prop :=
  ∀ (s : State) (d : Data64),
    decode 0x00000006#32 d = .ok .rdseed ∧
    (s.cfg.configured = true → exec .rdseed s = .next { s with rq := s.rq ++ [⟨0x00#8, s.seed⟩] }) ∧
    (s.cfg.configured = false → exec .rdseed s = .next { s with rq := s.rq ++ [⟨0x83#8, 0#64⟩] }) ∧
    (∀ i t, s.cfg.configured = true → exec i s = .next t → t.cfg.configured = true → t.seed = s.seed) ∧
    ∀ u : BitVec 28, u ≠ 0 →
      runCommand ⟨u ++ 0x6#4, d⟩ s = .next { s with rq := s.rq ++ [⟨0x82#8, 0#64⟩] }

/-- 41_update.md R126, R123, with R122 and R124 written out in arithmetic. Without a sketch ADD is NOT_CONFIGURED. On a
configured block it writes `max(REG[idx], rho)` to `REG[idx]` and to no other slot, and answers idx in bits 31:16,
UPD in bit 7 and rho in bits 6:0; for a remainder `rem ≠ 0` of n bits, rho is `n − ⌊log2 rem⌋`, and for `rem = 0` it
is `n + 1`. Bits 63:32 of DATA have no effect with W = 32. -/
def Obligations.AddRaisesRegisterToMaximum : Prop :=
  ∀ (s : State) (data : Data64),
    decode 0x00000002#32 data = .ok (.add data) ∧
    (s.cfg.configured = false → exec (.add data) s = .next { s with rq := s.rq ++ [⟨0x83#8, 0#64⟩] }) ∧
    (s.regs.wf = true → s.cfg.legal = true → s.cfg.configured = true →
      let p := s.cfg.p.toNat
      let w := if s.cfg.w64 then 64 else 32
      let h := if s.cfg.w64 then data.toNat else data.toNat % 2 ^ 32
      let idx := h % 2 ^ p
      let rem := h / 2 ^ p
      let r := if rem = 0 then w - p + 1 else w - p - Nat.log2 rem
      let old := (s.regs.read idx).toNat
      ∃ (rg : RegFile) (x : Data64),
        exec (.add data) s = .next { s with regs := rg, rq := s.rq ++ [⟨0x00#8, x⟩] } ∧
        (rg.read idx).toNat = max old r ∧
        (∀ k, k ≠ idx → rg.read k = s.regs.read k) ∧
        x.toNat = 65536 * idx + (if old < r then 128 else 0) + r)

/-- 41_update.md R130. RDREG answers the register's value; NOT_CONFIGURED without a sketch, then INDEX_RANGE for an
index from m on; and it changes nothing else. -/
def Obligations.RdregReadsRegister : Prop :=
  ∀ (s : State) (index : BitVec 16) (d : Data64),
    decode (0x4#32 ||| (index.zeroExtend 32) <<< 16) d = .ok (.rdreg index) ∧
    (s.cfg.configured = false → exec (.rdreg index) s = .next { s with rq := s.rq ++ [⟨0x83#8, 0#64⟩] }) ∧
    (s.cfg.configured = true → 2 ^ s.cfg.p.toNat ≤ index.toNat →
      exec (.rdreg index) s = .next { s with rq := s.rq ++ [⟨0x86#8, 0#64⟩] }) ∧
    (s.cfg.configured = true → index.toNat < 2 ^ s.cfg.p.toNat → ∃ x : Data64,
      exec (.rdreg index) s = .next { s with rq := s.rq ++ [⟨0x00#8, x⟩] } ∧
      x.toNat = (s.regs.read index.toNat).toNat)

/-- 42_estimate.md R146, and with it the other branches of R140. On a configured block EST completes, changes nothing
but the response queue, and answers as the branch says: linear counting, the raw estimate, the mid-range correction
exactly when MODE = 1 and 2.5·m < raw < 5·m, by the average of the six biases from the window's left end on (R149,
written out), and after it the large-range correction and the output rule. The
comparisons with 2.5·m and 5·m are on the exact rational values; Z is counted as a set; LN is the block's LN unit,
whatever it is. (Linear counting above the large-range threshold is LinearCountingAboveThreshold.) -/
def Obligations.EstFollowsRegimes : Prop :=
  ∀ s : State, s.cfg.configured = true → s.cfg.legal = true →
    let m := 2 ^ s.cfg.p.toNat
    let raw := rawEstimate s.cfg.p.toNat s.regs
    let z := ((Finset.range m).filter fun i => s.regs.read i = 0#7).card
    let lin := F64.mul (F64.ofNat m) (Config.ln (F64.div (F64.ofNat m) (F64.ofNat z)))
    let b := s.rom.val
    let l := windowLeft (lowerBound raw s.rom.entries)
    let sum := F64.add (F64.add (F64.add (F64.add (F64.add (b l) (b (l + 1))) (b (l + 2))) (b (l + 3))) (b (l + 4)))
      (b (l + 5))
    let mid := F64.sub raw (F64.div sum 0x4018000000000000#64)
    let tlr : F64 := 0x43A1111111111111#64
    let d := fun e : F64 => F64.sub F64.one (F64.div e (F64.ofNat (2 ^ 64)))
    let sat := fun e : F64 => F64.neg (F64.mul (F64.ofNat (2 ^ 64)) (Config.ln (d e)))
    let answers := fun (st : Status) (v : F64) => exec .est s = .next { s with rq := s.rq ++ [⟨st, v⟩] }
    (raw.toRat ≤ 5 / 2 * m → 0 < z → s.cfg.mode = .baseline ∨ F64.lt tlr lin = false → answers 0x01#8 lin) ∧
    (raw.toRat ≤ 5 / 2 * m → z = 0 → answers 0x00#8 raw) ∧
    (5 / 2 * m < raw.toRat → s.cfg.mode = .baseline → answers 0x00#8 raw) ∧
    (5 / 2 * m < raw.toRat → raw.toRat < 5 * m → s.cfg.mode = .biasCorrected →
      (mid.sign = true → answers 0x0A#8 0#64) ∧
      (mid.sign = false → F64.lt tlr mid = false → answers 0x02#8 mid) ∧
      (F64.lt tlr mid = true → F64.le (d mid) 0#64 = true → answers 0x0E#8 0x7FF0000000000000#64) ∧
      (F64.lt tlr mid = true → F64.le (d mid) 0#64 = false → answers 0x06#8 (sat mid))) ∧
    (5 * m ≤ raw.toRat → s.cfg.mode = .biasCorrected →
      (F64.lt tlr raw = false → answers 0x00#8 raw) ∧
      (F64.lt tlr raw = true → F64.le (d raw) 0#64 = true → answers 0x0C#8 0x7FF0000000000000#64) ∧
      (F64.lt tlr raw = true → F64.le (d raw) 0#64 = false → answers 0x04#8 (sat raw)))

/-- 60_exceptions.md R160. A word with `CMD[3] = 1` is answered 0x81, data 0, and changes nothing else, whatever its
other bits, its DATA and the state. -/
def Obligations.IllegalOpcodesRefused : Prop :=
  (∀ (s : State) (w : CmdWord) (d : Data64), w.getLsbD 3 = true →
    runCommand ⟨w, d⟩ s = .next { s with rq := s.rq ++ [⟨0x81#8, 0#64⟩] }) ∧
  ∀ (s : State) (op : BitVec 4) (rest : BitVec 28), 8 ≤ op.toNat →
    decode (rest ++ op) 0#64 = .ok (.illegal op rest) ∧
    exec (.illegal op rest) s = .next { s with rq := s.rq ++ [⟨0x81#8, 0#64⟩] }

/-! ### Errors -/

/-- 60_exceptions.md R166. A word with a legal opcode and a 1 in a reserved bit of its format is answered 0x82, data
0, and changes nothing else, in every state. -/
def Obligations.ReservedBitsRefused : Prop :=
  ∀ (s : State) (w : CmdWord) (d : Data64), w.toNat % 16 < 8 →
    (if w.toNat % 16 = 1 then w &&& 0xFFFF80F0#32 ≠ 0#32
     else if w.toNat % 16 = 4 then w &&& 0x0000FFF0#32 ≠ 0#32
     else 16 ≤ w.toNat) →
    runCommand ⟨w, d⟩ s = .next { s with rq := s.rq ++ [⟨0x82#8, 0#64⟩] }

/-- 60_exceptions.md R161, 40_configuration.md R116. Without a sketch ADD, EST, RDREG and RDSEED are answered 0x83,
data 0, before any register is read, and change nothing else; NOP, CONFIG, RDSTAT and RELEASE never answer it. -/
def Obligations.SketchCommandsNeedSketch : Prop :=
  (∀ (s : State) (i : Instr), s.cfg.configured = false →
    (∃ d, i = .add d) ∨ i = .est ∨ (∃ k, i = .rdreg k) ∨ i = .rdseed →
    exec i s = .next { s with rq := s.rq ++ [⟨0x83#8, 0#64⟩] }) ∧
  ∀ (s t : State) (i : Instr), exec i s = .next t → t.rq = s.rq ++ [⟨0x83#8, 0#64⟩] →
    s.cfg.configured = false ∧ ((∃ d, i = .add d) ∨ i = .est ∨ (∃ k, i = .rdreg k) ∨ i = .rdseed)

/-- 60_exceptions.md R167. A command reports at most one error, the first that applies: ILLEGAL_OP, RESERVED_FIELD,
the state check, the operand check. -/
def Obligations.FirstErrorByPriority : Prop :=
  ∀ (s : State) (w : CmdWord) (d : Data64), ∃ (t : State) (r : Response),
    runCommand ⟨w, d⟩ s = .next t ∧ t.rq = s.rq ++ [r] ∧
    let op := w.toNat % 16
    let p := w.toNat / 2 ^ 8 % 32
    let reserved := (op = 1 ∧ w &&& 0xFFFF80F0#32 ≠ 0#32) ∨ (op = 4 ∧ w &&& 0x0000FFF0#32 ≠ 0#32) ∨
      (op ≠ 1 ∧ op ≠ 4 ∧ 16 ≤ w.toNat)
    if 8 ≤ op then r.status = 0x81#8
    else if reserved then r.status = 0x82#8
    else if (op = 2 ∨ op = 3 ∨ op = 4 ∨ op = 6) ∧ s.cfg.configured = false then r.status = 0x83#8
    else if op = 1 ∧ s.cfg.configured = true then r.status = 0x84#8
    else if op = 1 ∧ (p < 4 ∨ 16 < p ∨ (w.getLsbD 13 = true ∧ w.getLsbD 14 = false)) then r.status = 0x85#8
    else if op = 4 ∧ 2 ^ s.cfg.p.toNat ≤ w.toNat / 2 ^ 16 then r.status = 0x86#8
    else r.status.msb = false

/-- 60_exceptions.md R162. An error response is the only exception: a command answered with ERR = 1 has written
nothing but its response, whose data is 0. -/
def Obligations.RefusedCommandWritesNothing : Prop :=
  ∀ (s t : State) (c : Command), runCommand c s = .next t → ∃ r : Response,
    t.rq = s.rq ++ [r] ∧ (r.status.msb = true → r.data = 0#64 ∧ t = { s with rq := s.rq ++ [r] })

/-! ### Encoding -/

/-- Decoding the command transfer that stands for a well-formed command gives that command, with every operand at
every value. -/
def Obligations.DecodeOfEncode : Prop :=
  ∀ i : Instr, i.wellFormed = true → decodeCommand (encode i) = .ok i

/-- A word has one meaning: the command it decodes to is well-formed and encodes to that very word. -/
def Obligations.EncodeOfDecode : Prop :=
  ∀ (w : CmdWord) (d : Data64) (i : Instr), decode w d = .ok i →
    i.wellFormed = true ∧ (encode i).word = w ∧
    ((encode i).data = d ∨ ((encode i).data = 0#64 ∧ i.opcode ≠ 0x1#4 ∧ i.opcode ≠ 0x2#4))

/-- 30_encoding.md R91, R94. Every word, with any operand, is one command of the opcode map, ILLEGAL among them, or
RESERVED_FIELD: it decodes to a command exactly when it matches that command's row and no other, and to
RESERVED_FIELD exactly when it matches none. -/
def Obligations.DecoderAgreesWithOpcodeMap : Prop :=
  ∀ (w : CmdWord) (d : Data64),
    (∃ i, decode w d = .ok i ∧ ∀ r ∈ opcodeMap, (w &&& r.mask = r.matchBits ↔ r.mnemonic = i.mnemonic)) ∨
    (decode w d = .error .reservedField ∧ ∀ r ∈ opcodeMap, w &&& r.mask ≠ r.matchBits)

/-- Words written out from 30_encoding.md R85 and 95_test_vectors.md decode to the commands they stand for. -/
def Obligations.SpecWordsDecode : Prop :=
  decode 0b00000000000000000110110000000001#32 0x5EED#64 = .ok (.config true .biasCorrected 12#5 0x5EED#64) ∧
  decode 0b00000000000000000000010000000001#32 0x2A#64 = .ok (.config false .baseline 4#5 0x2A#64) ∧
  decode 0b00000000000000000000000000000010#32 0x13#64 = .ok (.add 0x13#64) ∧
  decode 0b00000000000000000000000000000011#32 0x13#64 = .ok .est ∧
  decode 0b00000000000011110000000000000100#32 0#64 = .ok (.rdreg 15#16) ∧
  decode 0b11111111111111111111111111111111#32 0#64 = .ok (.illegal 0xF#4 0xFFFFFFF#28) ∧
  decode 0b00000000000000001000010000000001#32 0#64 = .error .reservedField

/-- 30_encoding.md R96, R97. Every line of assembly whose operands fit assembles to the transfer of its command, and
every pseudo-instruction to its expansion; a line with an operand that does not fit is an assembly error. `addstr`
carries the hash word of the width and the seed the hash unit reads on its ports, zero-extended with W = 32. -/
def Obligations.AssemblyStandsForCommands : Prop :=
  ∀ (wo : Bool) (so : Data64) (p : Nat) (mode : Mode) (w64 : Bool) (seed h k n : Nat) (text : List Byte),
    (p ≤ 31 → seed < 2 ^ 64 →
      assemble wo so (.config p mode w64 seed) =
        some [encode (.config w64 mode (BitVec.ofNat 5 p) (BitVec.ofNat 64 seed))] ∧
      assemble wo so (.reconfig p mode w64 seed) =
        some [encode .release, encode (.config w64 mode (BitVec.ofNat 5 p) (BitVec.ofNat 64 seed))]) ∧
    (31 < p ∨ 2 ^ 64 ≤ seed →
      assemble wo so (.config p mode w64 seed) = none ∧ assemble wo so (.reconfig p mode w64 seed) = none) ∧
    (h < 2 ^ 64 → assemble wo so (.add h) = some [encode (.add (BitVec.ofNat 64 h))]) ∧
    (2 ^ 64 ≤ h → assemble wo so (.add h) = none) ∧
    (k ≤ 65535 → assemble wo so (.rdreg k) = some [encode (.rdreg (BitVec.ofNat 16 k))]) ∧
    (65535 < k → assemble wo so (.rdreg k) = none) ∧
    (8 ≤ n → n ≤ 15 → assemble wo so (.illegal n) = some [encode (.illegal (BitVec.ofNat 4 n) 0#28)]) ∧
    (n < 8 ∨ 15 < n → assemble wo so (.illegal n) = none) ∧
    assemble true so (.addstr text) = some [encode (.add (Config.hash64 so text))] ∧
    assemble false so (.addstr text) = some [encode (.add ((Config.hash32 so text).zeroExtend 64))] ∧
    assemble wo so .nop = some [encode .nop] ∧ assemble wo so .sync = some [encode .nop] ∧
    assemble wo so .est = some [encode .est] ∧ assemble wo so .rdstat = some [encode .rdstat] ∧
    assemble wo so .rdseed = some [encode .rdseed] ∧ assemble wo so .release = some [encode .release]

/-! ### The step, the ports and reset -/

/-- A step runs the decoded command: at an edge where the oldest accepted command ends its execution and RQ has
room, the step is `exec` of what that command decodes to, on the state after the edge's transfers with the command
taken off the accepted ones; and the very next step after `withFetchWord` is `exec` of the word's command, on a
state with the same CFG, SEED, REG and ROM, nothing else accepted, and no response lost. That the command runs is
20_memory.md R67 and 30_encoding.md R92; the edge it runs at is the model's choice: a command may execute at the edge
that accepts it (assumption log 3), room in RQ is judged after the response transfer of that edge (log 8), and
`withFetchWord` puts the word on the command port (log 1). -/
def Obligations.StepRunsDecodedCommand : Prop :=
  (∀ (s : State) (e : Edge) (es : List Edge) (c : Command) (cs : List Command) (i : Instr),
    s.edges = e :: es → e.rst = false → e.executes = true →
    let u := transfers e { s with edges := es }
    u.pending = c :: cs → u.rq.length < Config.rqDepth → decodeCommand c = .ok i →
    step s = exec i { u with pending := cs }) ∧
  ∀ (s : State) (nbits w : Nat) (i : Instr), decodeTableWord nbits w = some i →
    ∃ u : State, step (s.withFetchWord nbits w) = exec i u ∧
      u.cfg = s.cfg ∧ u.seed = s.seed ∧ u.regs = s.regs ∧ u.rom = s.rom ∧ u.pending = [] ∧
      u.edges = s.edges ∧ u.taken ++ u.rq = s.taken ++ s.rq ∧ u.takenBefore = s.takenBefore

/-- The block never stops: every step from every state gives a next state (60_exceptions.md section 1, 30_encoding.md
section 5). -/
def Obligations.BlockNeverStops : Prop :=
  ∀ s : State, ∃ t : State, step s = .next t

/-- 30_encoding.md R80, R83, R84. At every edge with `rst = 0`, whether an execution ends at it or not, a command is
accepted exactly when the host offers one, the block's timing is willing and RQ, as it stands before the edge, is not
full; at an edge with `rst = 1` none is. The accepted command becomes the newest of the accepted ones, of which at most
the oldest leaves (the model's choice: assumption log 3); where no execution ends, none leaves, and CFG, SEED, REG
and the ROM stay as they were. -/
def Obligations.CommandTransferRule : Prop :=
  ∀ (s t : State) (e : Edge) (es : List Edge), s.edges = e :: es → step s = .next t →
    (e.rst = false →
      acceptedNow s = (if e.cmdValid = true ∧ e.willing = true ∧ s.rq.length < Config.rqDepth
        then [⟨e.cmdWord, e.cmdData⟩] else []) ∧
      (t.pending = s.pending ++ acceptedNow s ∨
        (e.executes = true ∧ t.pending = (s.pending ++ acceptedNow s).tail))) ∧
    (e.rst = true → acceptedNow s = []) ∧
    (e.rst = false → e.executes = false →
      t.pending = s.pending ++ acceptedNow s ∧
      t.cfg = s.cfg ∧ t.seed = s.seed ∧ t.regs = s.regs ∧ t.rom = s.rom)

/-- 30_encoding.md R82. `rsp_valid` is 1 exactly when RQ is not empty, and the port shows its head entry. At an edge
with `rst = 0` the head entry goes to the host exactly when the host is ready and RQ is not empty; while no transfer
happens the response the port shows does not change. At an edge with `rst = 1` no response is transferred. That at most
one response is appended at an edge is not R82's but the model's choice (assumption log 3: at most one execution ends
at an edge). -/
def Obligations.ResponseTransferRule : Prop :=
  ∀ (s t : State) (e : Edge) (es : List Edge), s.edges = e :: es → step s = .next t →
    (s.rspValid = true ↔ s.rq ≠ []) ∧ s.rspHead = s.rq.head? ∧
    (e.rst = false →
      (∃ new : List Response, new.length ≤ 1 ∧
        t.rq = (if e.rspReady then s.rq.tail else s.rq) ++ new ∧
        t.taken = s.taken ++ (if e.rspReady then s.rq.head?.toList else [])) ∧
      (s.rspValid = true → e.rspReady = false → t.rspValid = true ∧ t.rspHead = s.rspHead)) ∧
    (e.rst = true → t.takenBefore ++ t.taken = s.takenBefore ++ s.taken)

/-- 70_reset_and_hazards.md R190. An edge with `rst = 1` writes 0 to CFG and SEED, empties RQ, abandons every
accepted command whose response is not in RQ, accepts no command and delivers no response, and leaves the ROM and the
responses already taken, in this run and before it, alone. Of the register slots it says nothing: they are unspecified (see
ResetLeavesSlotsUnspecified). -/
def Obligations.ResetEdgeRule : Prop :=
  ∀ (s : State) (e : Edge) (es : List Edge), s.edges = e :: es → e.rst = true → ∃ t : State,
    step s = .next t ∧
    t.cfg.configured = false ∧ t.cfg.p = 0#5 ∧ t.cfg.mode.bit = false ∧ t.cfg.w64 = false ∧
    t.seed = 0#64 ∧ t.rq = [] ∧ t.pending = [] ∧ acceptedNow s = [] ∧ t.rom = s.rom ∧
    t.takenBefore ++ t.taken = s.takenBefore ++ s.taken ∧ t.edges = es ∧ t.rspValid = false ∧ t.seedO = 0#64

/-- 10_state.md R45. The values after reset; the register slots are unspecified (see ResetLeavesSlotsUnspecified). -/
def Obligations.ResetValues : Prop :=
  State.reset.cfg.configured = false ∧ State.reset.cfg.p = 0#5 ∧ State.reset.cfg.mode.bit = false ∧
  State.reset.cfg.w64 = false ∧ State.reset.seed = 0#64 ∧ State.reset.rq = [] ∧
  State.reset.rom = Config.biasRom ∧ State.reset.rspValid = false ∧ State.reset.seedO = 0#64

/-- What the slots hold after reset is unspecified (10_state.md R45, R46). The form is the model's own (assumption log
4 and 5): slot k after the n-th reset holds the free value `Config.unspecifiedSlot n k`, of which nothing is known,
and a reset edge gives every slot a new one, whatever it held. -/
def Obligations.ResetLeavesSlotsUnspecified : Prop :=
  (∀ k, State.reset.regs.read k = Config.unspecifiedSlot 0 k) ∧
  ∀ (s t : State) (e : Edge) (es : List Edge), s.edges = e :: es → e.rst = true → step s = .next t →
    (∀ k, t.regs.read k = Config.unspecifiedSlot s.resets k) ∧ t.resets = s.resets + 1

/-- 20_memory.md R68. While no reset comes, every accepted command appends exactly one response, and a response
leaves RQ only by being taken: the responses taken and waiting and the commands not yet answered grow together by
exactly one for each command accepted. -/
def Obligations.OneResponsePerCommand : Prop :=
  ∀ (n : Nat) (s : State), (∀ e ∈ s.edges.take n, e.rst = false) →
    ((after n s).taken ++ (after n s).rq).length + (after n s).pending.length =
      (s.taken ++ s.rq).length + s.pending.length + (acceptedWithin n s).length

/-- With fair timing, an idle block with room in RQ accepts a command that the host keeps offering within LATENCY + 1
edges. The spec promises a bounded number of cycles and asks for weak fairness, not a cycle count (30_encoding.md
R83); that the bound is one number, LATENCY, and that fairness is the hypothesis `fairTiming` are the model's choice
(assumption log 9). -/
def Obligations.OfferedCommandIsAccepted : Prop :=
  ∀ (s : State) (c : Command), s.pending = [] → s.rq.length < Config.rqDepth → fairTiming s.edges →
    Config.latency < s.edges.length →
    (∀ e ∈ s.edges.take (Config.latency + 1),
      e.rst = false ∧ e.cmdValid = true ∧ e.cmdWord = c.word ∧ e.cmdData = c.data) →
    (acceptedWithin (Config.latency + 1) s).head? = some c

/-! ### The whole machine -/

/-- The state after reset meets the invariant. -/
def Obligations.ResetMeetsInvariant : Prop := State.reset.Inv

/-- Every step keeps the invariant: canonical registers, CFG and SEED zero without a sketch and legal with one,
registers at most W − P + 1 and slots from m on 0 (10_state.md R32), RQ within its capacity, every response legal. -/
def Obligations.StepKeepsInvariant : Prop :=
  ∀ s t : State, s.Inv → step s = .next t → t.Inv

/-- 10_state.md R33. While a sketch lives, no step lowers a register. -/
def Obligations.RegistersNeverDecrease : Prop :=
  ∀ s t : State, s.Inv → s.cfg.configured = true → step s = .next t → t.cfg.configured = true →
    ∀ k, (s.regs.read k).toNat ≤ (t.regs.read k).toNat

/-- 10_state.md R31, R35, R37, R38 over all commands: only CONFIG and ADD write a register slot, only CONFIG and
RELEASE write CFG or SEED, no command writes the ROM, the accepted commands, the host's edges or what it has
taken. -/
def Obligations.StateChangesOnlyByItsCommands : Prop :=
  ∀ (s t : State) (i : Instr), exec i s = .next t →
    (t.regs ≠ s.regs → (∃ w m p x, i = .config w m p x) ∨ ∃ d, i = .add d) ∧
    (t.cfg ≠ s.cfg ∨ t.seed ≠ s.seed → (∃ w m p x, i = .config w m p x) ∨ i = .release) ∧
    t.rom = s.rom ∧ t.pending = s.pending ∧ t.edges = s.edges ∧ t.taken = s.taken ∧
    t.takenBefore = s.takenBefore ∧ t.resets = s.resets

/-- 20_memory.md R67. Whatever the block's timing, a run without reset does exactly what executing a beginning of
its accepted commands one at a time, in acceptance order, each as one indivisible step, does; the other accepted
commands have had no effect yet. -/
def Obligations.CommandsExecuteAtomicallyInOrder : Prop :=
  ∀ (n : Nat) (s : State), (∀ e ∈ s.edges.take n, e.rst = false) →
    let cmds := s.pending ++ acceptedWithin n s
    ∃ k, k ≤ cmds.length ∧ (after n s).pending = cmds.drop k ∧
      let u := atomically (cmds.take k) s
      (after n s).cfg = u.cfg ∧ (after n s).seed = u.seed ∧ (after n s).regs = u.regs ∧
      (after n s).rom = u.rom ∧ (after n s).taken ++ (after n s).rq = u.taken ++ u.rq

/-- 30_encoding.md R83, 70_reset_and_hazards.md R198, R199. Nothing depends on the timing: two runs from one state
that accept the same commands, whatever their edges and the block's choices in them, give the same observation
when they are over, whatever idle edges and resets still come. -/
def Obligations.TimingIsUnobservable : Prop :=
  ∀ (s : State) (es₁ es₂ : List Edge) (n₁ n₂ : Nat),
    (∀ e ∈ es₁.take n₁, e.rst = false) → (∀ e ∈ es₂.take n₂, e.rst = false) →
    let s₁ := { s with edges := es₁ }
    let s₂ := { s with edges := es₂ }
    acceptedWithin n₁ s₁ = acceptedWithin n₂ s₂ →
    (after n₁ s₁).runOver = true → (after n₂ s₂).runOver = true →
    (after n₁ s₁).observation = (after n₂ s₂).observation

/-- 70_reset_and_hazards.md R199, R191, R192. A run starts at a reset: two blocks with the same ROM, whatever they did
before, that are reset and then accept the same commands, whatever the timing, give the same observation when the run
is over. Nothing of an earlier run, a run the reset cut short among them, is part of it. -/
def Obligations.RunFromResetIsItsOwn : Prop :=
  ∀ (s₁ s₂ : State) (r₁ r₂ : Edge) (es₁ es₂ : List Edge) (n₁ n₂ : Nat), s₁.rom = s₂.rom →
    s₁.edges = r₁ :: es₁ → s₂.edges = r₂ :: es₂ → r₁.rst = true → r₂.rst = true →
    (∀ e ∈ es₁.take n₁, e.rst = false) → (∀ e ∈ es₂.take n₂, e.rst = false) →
    let t₁ := advance s₁
    let t₂ := advance s₂
    acceptedWithin n₁ t₁ = acceptedWithin n₂ t₂ →
    (after n₁ t₁).runOver = true → (after n₂ t₂).runOver = true →
    (after n₁ t₁).observation = (after n₂ t₂).observation

/-- A run that is over stays over, with the same observation, until a reset starts another: no edge with `rst = 0`
accepts a command in it any more. R199 of 70_reset_and_hazards.md says that a run is over when the host has taken the
response of its last command; which command is the last and which states count as over (`State.runOver`,
`noCommandToCome`) is the model's reading of it (DEDUCED, assumption log 16), and this statement rests on that
reading. -/
def Obligations.RunThatIsOverStaysOver : Prop :=
  ∀ s : State, s.runOver = true → (∀ e, s.edges.head? = some e → e.rst = false) →
    acceptedNow s = [] ∧ ∃ t : State, step s = .next t ∧ t.runOver = true ∧ t.observation = s.observation

/-- 10_state.md R37. No computation reads SEED: but for RDSEED, a command's response and what it leaves in CFG and
REG are the same whatever SEED holds. -/
def Obligations.SeedAffectsNothing : Prop :=
  ∀ (s : State) (i : Instr) (x : Data64), i ≠ .rdseed → ∃ t u : State,
    exec i s = .next t ∧ exec i { s with seed := x } = .next u ∧
    u.rq = t.rq ∧ u.cfg = t.cfg ∧ u.regs = t.regs ∧ u.rom = t.rom

/-- 10_state.md R46. What the slots hold without a sketch is unobservable: two runs that differ only in it, over any
edges, resets among them, never differ in a response, in CFG, in SEED or in the commands accepted, nor in the
registers once a sketch exists. -/
def Obligations.HiddenSlotsAreUnobservable : Prop :=
  ∀ (n : Nat) (s : State) (rg : RegFile), s.cfg.configured = false →
    let t := after n s
    let u := after n { s with regs := rg }
    u.rq = t.rq ∧ u.taken = t.taken ∧ u.takenBefore = t.takenBefore ∧ u.cfg = t.cfg ∧ u.seed = t.seed ∧ u.pending = t.pending ∧
    (t.cfg.configured = true → u.regs = t.regs)

/-- 40_configuration.md R114. A new CONFIG after a RELEASE starts a sketch whose state does not depend on the old
one's in any way. -/
def Obligations.NewSketchForgetsOld : Prop :=
  ∀ (s₁ s₂ : State) (w64 : Bool) (mode : Mode) (p : BitVec 5) (seed : Data64),
    (Cfg.mk p mode w64 true).legal = true →
    let cmds := [encode .release, encode (.config w64 mode p seed)]
    (atomically cmds s₁).cfg = ⟨p, mode, w64, true⟩ ∧
    (atomically cmds s₁).cfg = (atomically cmds s₂).cfg ∧
    (atomically cmds s₁).seed = (atomically cmds s₂).seed ∧
    (atomically cmds s₁).regs = (atomically cmds s₂).regs

/-- 20_memory.md R64. NOP, EST, RDREG, RDSTAT and RDSEED change nothing but the response queue, and repeated at once
they answer the same; an ADD repeated leaves the registers as the first one left them. -/
def Obligations.ReadsRepeatAndChangeNothing : Prop :=
  (∀ (s : State) (i : Instr), i = .nop ∨ i = .est ∨ (∃ k, i = .rdreg k) ∨ i = .rdstat ∨ i = .rdseed →
    ∃ r : Response, exec i s = .next { s with rq := s.rq ++ [r] } ∧
      exec i { s with rq := s.rq ++ [r] } = .next { s with rq := s.rq ++ [r] ++ [r] }) ∧
  ∀ (s : State) (d : Data64), s.regs.wf = true → s.cfg.legal = true → ∃ t u : State,
    exec (.add d) s = .next t ∧ exec (.add d) t = .next u ∧ u.regs = t.regs

/-- 30_encoding.md R81: `seed_o` shows SEED, `w64_o` CFG.W64 and `cfg_o` CFG.CONFIGURED. And they change only at a reset
edge or at an edge that ends the execution of a CONFIG or a RELEASE: that they change after the command has executed
is 70_reset_and_hazards.md R196 (e), but that they change at that very edge is the model's reading (DEDUCED,
assumption log 17; 93_implementation_defined.md item 25 leaves the time to LATENCY). -/
def Obligations.HashUnitOutputsFollowExecution : Prop :=
  (∀ s : State, s.seedO = s.seed ∧ s.w64O = s.cfg.w64 ∧ s.cfgO = s.cfg.configured) ∧
  ∀ (s t : State) (e : Edge) (es : List Edge), s.edges = e :: es → step s = .next t →
    t.seedO ≠ s.seedO ∨ t.w64O ≠ s.w64O ∨ t.cfgO ≠ s.cfgO →
    e.rst = true ∨ (e.executes = true ∧ ∃ (c : Command) (cs : List Command) (i : Instr),
      (transfers e { s with edges := es }).pending = c :: cs ∧ decodeCommand c = .ok i ∧
      ((∃ w m p x, i = .config w m p x) ∨ i = .release))

/-! ### The update pipeline -/

/-- 41_update.md R122. The index is the low P bits, below m; the remainder is the W − P bits above; together they
are the whole hash word. -/
def Obligations.PartitionSplitsHashWord : Prop :=
  ∀ (c : Cfg) (data : Data64), c.legal = true →
    let h := hashWord c data
    hashIndex c h = h &&& (c.m - 1) ∧ hashIndex c h < c.m ∧
    hashRem c h = h / c.m ∧ hashRem c h < 2 ^ (c.width - c.p.toNat) ∧
    hashRem c h * c.m + hashIndex c h = h

/-- 41_update.md R125. The range of rho, when it is greatest, its value elsewhere, and its equivalent form on the
W-bit word with the index bits cleared. -/
def Obligations.RhoRangeAndEquivalentForm : Prop :=
  ∀ (c : Cfg) (h : Nat), c.legal = true → h < 2 ^ c.width →
    let w := c.width
    let p := c.p.toNat
    1 ≤ hashRho c h ∧ hashRho c h ≤ w - p + 1 ∧ hashRho c h ≤ 61 ∧
    (hashRho c h = w - p + 1 ↔ hashRem c h = 0) ∧
    (hashRem c h ≠ 0 → hashRho c h = clz (w - p) (hashRem c h) + 1 ∧ hashRho c h ≤ w - p) ∧
    hashRho c h = min (clz w (h - h % 2 ^ p)) (w - p) + 1

/-- 41_update.md R127 (c). After any sequence of ADDs on a sketch, each register is the maximum of what it was and
the rho of every added hash word with that index. -/
def Obligations.RegisterIsMaximumRho : Prop :=
  ∀ (s : State) (ds : List Data64), s.Inv → s.cfg.configured = true → ∀ k,
    (((atomically (ds.map fun d => encode (.add d)) s).regs.read k).toNat : Nat) =
      ((ds.map (hashWord s.cfg)).filter fun h => hashIndex s.cfg h = k).foldl
        (fun acc h => max acc (hashRho s.cfg h)) (s.regs.read k).toNat

/-- 20_memory.md R69. The registers and the estimate depend only on the set of hash words added: not on their order
nor on how many times each was added. -/
def Obligations.EstimateDependsOnSetOfHashWords : Prop :=
  ∀ (s : State) (ds₁ ds₂ : List Data64), s.Inv → s.cfg.configured = true →
    (∀ h, h ∈ ds₁.map (hashWord s.cfg) ↔ h ∈ ds₂.map (hashWord s.cfg)) →
    let t₁ := atomically (ds₁.map fun d => encode (.add d)) s
    let t₂ := atomically (ds₂.map fun d => encode (.add d)) s
    t₁.regs = t₂.regs ∧ ∃ r, exec .est t₁ = .next { t₁ with rq := t₁.rq ++ [r] } ∧
      exec .est t₂ = .next { t₂ with rq := t₂.rq ++ [r] }

/-! ### The estimator -/

/-- 00_scope.md R13. The four operations on finite values round the exact result to the nearest binary64 value, ties
to even; a result of magnitude `2^1024 − 2^970` or more is an infinity of its sign. -/
def Obligations.OperationsRoundToNearestEven : Prop :=
  ∀ a b : F64, a.isFinite = true → b.isFinite = true →
    let limit : Rat := 2 ^ 1024 - 2 ^ 970
    let rounds := fun (x : Rat) (y : F64) =>
      (|x| < limit → F64.NearestEven (x : ℝ) y) ∧
      (limit ≤ x → y = 0x7FF0000000000000#64) ∧ (x ≤ -limit → y = 0xFFF0000000000000#64)
    rounds (a.toRat + b.toRat) (F64.add a b) ∧ rounds (a.toRat - b.toRat) (F64.sub a b) ∧
    rounds (a.toRat * b.toRat) (F64.mul a b) ∧ (b.toRat ≠ 0 → rounds (a.toRat / b.toRat) (F64.div a b))

/-- 42_estimate.md R141. The harmonic sum is the exact sum of `2^(−REG[i])` over the m registers, rounded once. -/
def Obligations.HarmonicSumIsRoundedOnce : Prop :=
  ∀ (regs : RegFile) (m : Nat), 1 ≤ m → m ≤ 65536 →
    F64.NearestEven (∑ k ∈ Finset.range m, (1 / 2 : ℝ) ^ (regs.read k).toNat) (harmonicSum regs m) ∧
    0 < (harmonicSum regs m).toRat ∧
    ((∀ k < m, (regs.read k).toNat ≤ 61) →
      (m : ℝ) / 2 ^ 61 ≤ ∑ k ∈ Finset.range m, (1 / 2 : ℝ) ^ (regs.read k).toNat) ∧
    ∑ k ∈ Finset.range m, (1 / 2 : ℝ) ^ (regs.read k).toNat ≤ (m : ℝ)

/-- 10_state.md R36, its table: alpha64(P) for every P, as binary64 encodings; P = 12 is the formula's value, not
0.72125 (90_conflicts.md C5). -/
def Obligations.AlphaConstants : Prop :=
  alpha64 4 = 0x3FE589374BC6A7F0#64 ∧ alpha64 5 = 0x3FE64DD2F1A9FBE7#64 ∧ alpha64 6 = 0x3FE6B020C49BA5E3#64 ∧
  alpha64 7 = 0x3FE6E37EF20B947A#64 ∧ alpha64 8 = 0x3FE6FC16CE33D64D#64 ∧ alpha64 9 = 0x3FE70876987DC1B0#64 ∧
  alpha64 10 = 0x3FE70EAB7E0DB3E2#64 ∧ alpha64 11 = 0x3FE711C7321E7B57#64 ∧
  alpha64 12 = 0x3FE713555C9EFABF#64 ∧ alpha64 13 = 0x3FE7141C860200C7#64 ∧
  alpha64 14 = 0x3FE714801FBCCD72#64 ∧ alpha64 15 = 0x3FE714B1EDDC9938#64 ∧ alpha64 16 = 0x3FE714CAD53D1AD7#64

/-- 42_estimate.md R142. The raw estimate is `alpha64(P)·m²/hs` rounded once, positive and finite; its least value
is `alpha64(P)·m`, which the empty sketch has, and with every register at most W − P + 1 its greatest is
`alpha64(P)·2^(W+1)`, below `0.73·2^65`, which the sketch with every register at W − P + 1 has. -/
def Obligations.RawEstimateIsRoundedQuotient : Prop :=
  ∀ (p : Nat) (regs : RegFile), 4 ≤ p → p ≤ 16 →
    let raw := rawEstimate p regs
    F64.NearestEven (((alpha64 p).toRat * 4 ^ p / (harmonicSum regs (2 ^ p)).toRat : Rat) : ℝ) raw ∧
    0 < raw.toRat ∧ (alpha64 p).toRat * 2 ^ p ≤ raw.toRat ∧
    ((∀ k < 2 ^ p, regs.read k = 0#7) → raw.toRat = (alpha64 p).toRat * 2 ^ p) ∧
    (∀ w, w = 32 ∨ w = 64 → (∀ k < 2 ^ p, (regs.read k).toNat ≤ w - p + 1) →
      raw.toRat ≤ (alpha64 p).toRat * 2 ^ (w + 1) ∧ raw.toRat < 73 / 100 * 2 ^ 65) ∧
    (∀ w, w = 32 ∨ w = 64 → (∀ k < 2 ^ p, (regs.read k).toNat = w - p + 1) →
      raw.toRat = (alpha64 p).toRat * 2 ^ (w + 1))

/-- 10_state.md R39, 42_estimate.md R149, R155. The window average is the left-to-right sum of the six biases from the
window's left end on, divided by 6.0, and for every well-formed ROM it and the mid-range estimate of any sketch are
finite; the average has magnitude at most 2^1021. -/
def Obligations.MidRangeEstimateIsFinite : Prop :=
  ∀ (rom : BiasRom) (p : Nat) (regs : RegFile), 4 ≤ p → p ≤ 16 →
    let raw := rawEstimate p regs
    let b := rom.val
    let l := windowLeft (lowerBound raw rom.entries)
    windowAvg rom raw =
      F64.div (F64.add (F64.add (F64.add (F64.add (F64.add (b l) (b (l + 1))) (b (l + 2))) (b (l + 3))) (b (l + 4)))
        (b (l + 5))) 0x4018000000000000#64 ∧
    (windowAvg rom raw).isFinite = true ∧ |(windowAvg rom raw).toRat| ≤ 2 ^ 1021 ∧
    (F64.sub raw (windowAvg rom raw)).isFinite = true

/-- 42_estimate.md R147. The lower-bound index is the least one whose raw estimate is at or above x, 200 if there
is none, and so the number of entries below x. -/
def Obligations.LowerBoundIsLeastIndex : Prop :=
  ∀ (rom : BiasRom) (x : F64), x.isNaN = false →
    let i := lowerBound x rom.entries
    i ≤ 200 ∧ (i < 200 → F64.le x (rom.raw i) = true) ∧
    (∀ j, j < i → F64.lt (rom.raw j) x = true) ∧
    ((List.range 200).filter fun j => F64.lt (rom.raw j) x).length = i

/-- 42_estimate.md R148. For every index from 0 to 200 the window has exactly six entries inside [0, 200), at the
places the rule's table gives. -/
def Obligations.WindowHasSixEntries : Prop :=
  ∀ idx ≤ 200, windowRight idx = windowLeft idx + 6 ∧ windowRight idx ≤ 200 ∧
    (idx ≤ 3 → windowLeft idx = 0) ∧ (4 ≤ idx → idx ≤ 197 → windowLeft idx = idx - 3) ∧
    (198 ≤ idx → windowLeft idx = 194)

/-- 42_estimate.md R154. An empty sketch estimates exactly +0.0 with SR, for every P and both modes. -/
def Obligations.EmptySketchEstimatesZero : Prop :=
  ∀ s : State, s.cfg.configured = true → s.cfg.legal = true →
    (∀ k < 2 ^ s.cfg.p.toNat, s.regs.read k = 0#7) →
    exec .est s = .next { s with rq := s.rq ++ [⟨0x01#8, 0x0000000000000000#64⟩] }

/-- 42_estimate.md R151. A bias-corrected sketch in which every register holds 65 − P estimates +infinity, with LR
and CL. -/
def Obligations.SaturatedSketchEstimatesInfinity : Prop :=
  ∀ s : State, s.cfg.configured = true → s.cfg.legal = true → s.cfg.mode = .biasCorrected →
    (∀ k < 2 ^ s.cfg.p.toNat, (s.regs.read k).toNat = 65 - s.cfg.p.toNat) →
    exec .est s = .next { s with rq := s.rq ++ [⟨0x0C#8, 0x7FF0000000000000#64⟩] }

/-- 42_estimate.md R152, R155, R156. Every estimate is a non-negative binary64 value that is no NaN: bit 63 is 0, in
every configured state, whatever the ROM and the LN unit. -/
def Obligations.EstimateIsNonNegativeNumber : Prop :=
  ∀ s : State, s.cfg.configured = true → s.cfg.legal = true → ∃ (st : Status) (v : F64),
    exec .est s = .next { s with rq := s.rq ++ [⟨st, v⟩] } ∧ v.getLsbD 63 = false ∧ v.isNaN = false

/-- 30_encoding.md R88. For every LN unit with LN(x) < 2^43 on [1, 65536] the flag combinations EST can return are
exactly 0x0, 0x1, 0x2, 0x4, 0x6, 0xA, 0xC and 0xE: no well-formed ROM and no register state gives another, and some,
with registers that a sketch can hold (10_state.md R32), give each. CL with LR means +infinity, CL without LR means +0.0 after a mid-range correction; in MODE 0 only 0x0 and
0x1. Every other command that executes answers with flag bits 0. -/
def Obligations.RegimeFlagCombinations : Prop :=
  (∀ L : LnUnit,
    (∀ x : F64, F64.le F64.one x = true → F64.le x (F64.ofNat 65536) = true →
      F64.lt (L.ln x) (F64.ofNat (2 ^ 43)) = true) →
    (∀ (rom : BiasRom) (c : Cfg) (regs : RegFile), c.legal = true →
      let e := estimate L.ln rom c regs
      e.flags.bits ∈ [0x0#4, 0x1#4, 0x2#4, 0x4#4, 0x6#4, 0xA#4, 0xC#4, 0xE#4] ∧
      (c.mode = .baseline → e.flags.bits = 0x0#4 ∨ e.flags.bits = 0x1#4) ∧
      (e.flags.cl = true → e.flags.lr = true → e.value = 0x7FF0000000000000#64) ∧
      (e.flags.cl = true → e.flags.lr = false → e.flags.mr = true ∧ e.value = 0x0000000000000000#64)) ∧
    ∀ f ∈ [0x0#4, 0x1#4, 0x2#4, 0x4#4, 0x6#4, 0xA#4, 0xC#4, 0xE#4],
      ∃ (rom : BiasRom) (c : Cfg) (regs : RegFile), c.legal = true ∧
        (∀ k < c.m, (regs.read k).toNat ≤ c.width - c.p.toNat + 1) ∧ (∀ k, c.m ≤ k → regs.read k = 0#7) ∧
        (estimate L.ln rom c regs).flags.bits = f) ∧
  ∀ (s : State) (i : Instr), i ≠ .est → ∃ (t : State) (r : Response), exec i s = .next t ∧
    t.rq = s.rq ++ [r] ∧ (r.status.msb = false → r.status = 0x00#8)

/-- 42_estimate.md R150 on the small-range branch, and the proviso of 30_encoding.md R88. Where linear counting gives a
value above the large-range threshold, the large-range correction runs on it: SR with LR (0x5), or SR, LR and CL
(0xD). With some LN units that are not below 2^43 on [1, 65536], both occur. -/
def Obligations.LinearCountingAboveThreshold : Prop :=
  (∀ (L : LnUnit) (rom : BiasRom) (c : Cfg) (regs : RegFile), c.legal = true → c.mode = .biasCorrected →
    let m := 2 ^ c.p.toNat
    let z := ((Finset.range m).filter fun i => regs.read i = 0#7).card
    let lin := F64.mul (F64.ofNat m) (L.ln (F64.div (F64.ofNat m) (F64.ofNat z)))
    let d := F64.sub F64.one (F64.div lin (F64.ofNat (2 ^ 64)))
    let e := estimate L.ln rom c regs
    (rawEstimate c.p.toNat regs).toRat ≤ 5 / 2 * m → 0 < z → F64.lt 0x43A1111111111111#64 lin = true →
    (F64.le d 0#64 = true → e.flags.bits = 0xD#4 ∧ e.value = 0x7FF0000000000000#64) ∧
    (F64.le d 0#64 = false →
      e.flags.bits = 0x5#4 ∧ e.value = F64.neg (F64.mul (F64.ofNat (2 ^ 64)) (L.ln d)))) ∧
  ∀ f ∈ [0x5#4, 0xD#4], ∃ (L : LnUnit) (rom : BiasRom) (c : Cfg) (regs : RegFile),
    c.legal = true ∧ (estimate L.ln rom c regs).flags.bits = f

/-- 10_state.md R38. Only EST in MODE 1 reads the bias ROM: a baseline estimate, and every other command, is the same
whatever the ROM holds. -/
def Obligations.RomIsReadOnlyByCorrectedEstimate : Prop :=
  ∀ (s : State) (i : Instr) (rom : BiasRom), i ≠ .est ∨ s.cfg.mode = .baseline → ∃ t u : State,
    exec i s = .next t ∧ exec i { s with rom := rom } = .next u ∧ u = { t with rom := rom }
end

