-- ==== Sys2Proof/Laws/Binary64.lean ====
section
/-! SUPPORT. The laws of binary64 rounding: the fields of a rounded result, that magnitudes order as their
encodings do, and that `roundMag` answers the encoding nearest to the exact value, ties to even. All are facts
about naturals: magnitudes count units of 2^-1074. -/

namespace Sys2Proof

/-- The magnitude, in units, that bits 62:0 of an encoding stand for. -/
def F64.magOf (b : Nat) : Nat :=
  if b / 2 ^ 52 = 0 then b % 2 ^ 52 else (2 ^ 52 + b % 2 ^ 52) * 2 ^ (b / 2 ^ 52 - 1)

/-- The encoding with a sign and given bits 62:0. -/
abbrev F64.ofFields (neg : Bool) (b : Nat) : F64 := BitVec.ofNat 64 ((if neg then 2 ^ 63 else 0) + b)

theorem F64.rne_eq (neg : Bool) (n d : Nat) :
    F64.rne neg n d = F64.ofFields neg (min (F64.roundMag n d) (2047 * 2 ^ 52)) := rfl

theorem F64.ofFields_toNat (neg : Bool) {b : Nat} (h : b < 2 ^ 63) :
    (F64.ofFields neg b).toNat = (if neg then 2 ^ 63 else 0) + b := by
  rw [BitVec.toNat_ofNat, Nat.mod_eq_of_lt]
  split <;> omega

@[simp] theorem F64.ofFields_sign (neg : Bool) {b : Nat} (h : b < 2 ^ 63) :
    (F64.ofFields neg b).sign = neg := by
  rw [F64.sign, BitVec.msb_eq_decide, F64.ofFields_toNat neg h]
  cases neg <;> simp <;> omega

@[simp] theorem F64.ofFields_expBits (neg : Bool) {b : Nat} (h : b < 2 ^ 63) :
    (F64.ofFields neg b).expBits = b / 2 ^ 52 := by
  rw [F64.expBits, F64.ofFields_toNat neg h]
  cases neg <;> simp <;> omega

@[simp] theorem F64.ofFields_fracBits (neg : Bool) {b : Nat} (h : b < 2 ^ 63) :
    (F64.ofFields neg b).fracBits = b % 2 ^ 52 := by
  rw [F64.fracBits, F64.ofFields_toNat neg h]
  cases neg <;> simp <;> omega

theorem F64.ofFields_mag (neg : Bool) {b : Nat} (h : b < 2 ^ 63) :
    (F64.ofFields neg b).mag = F64.magOf b := by
  rw [F64.mag, F64.magOf, F64.ofFields_expBits neg h, F64.ofFields_fracBits neg h]

/-- Every encoding is the one with its sign and its bits 62:0. -/
theorem F64.eq_ofFields (x : F64) : x = F64.ofFields x.sign (x.toNat % 2 ^ 63) := by
  apply BitVec.eq_of_toNat_eq
  have hx := x.isLt
  rw [F64.ofFields_toNat _ (Nat.mod_lt _ (by norm_num)), F64.sign, BitVec.msb_eq_decide]
  by_cases h : 2 ^ (64 - 1) ≤ x.toNat
  · simp only [h, decide_true, if_true]; omega
  · simp only [h, decide_false]; simp; omega

theorem F64.mag_eq_magOf (x : F64) : x.mag = F64.magOf (x.toNat % 2 ^ 63) := by
  conv_lhs => rw [F64.eq_ofFields x]
  exact F64.ofFields_mag _ (Nat.mod_lt _ (by norm_num))

/-- A value is finite exactly when bits 62:0 lie below those of an infinity. -/
theorem F64.isFinite_iff (x : F64) : x.isFinite = true ↔ x.toNat % 2 ^ 63 < 2047 * 2 ^ 52 := by
  have hx := x.isLt
  simp only [F64.isFinite, F64.expBits, bne_iff_ne, ne_eq]
  constructor <;> intro h <;> omega

/-- A significand `m` of at most 53 bits (54 where it rounds up) with exponent `q` stands for `m * 2^q`. -/
theorem F64.magOf_significand {q m : Nat} (hm : m ≤ 2 ^ 53) (hq : q = 0 ∨ 2 ^ 52 ≤ m) :
    F64.magOf (q * 2 ^ 52 + m) = m * 2 ^ q := by
  unfold F64.magOf
  rcases Nat.lt_or_ge m (2 ^ 52) with h | h
  · have hq0 : q = 0 := by omega
    subst hq0
    have h1 : (0 * 2 ^ 52 + m) / 2 ^ 52 = 0 := by omega
    have h2 : (0 * 2 ^ 52 + m) % 2 ^ 52 = m := by omega
    simp only [h1, h2, if_true, pow_zero, mul_one]
  · rcases Nat.lt_or_ge m (2 ^ 53) with h' | h'
    · have h1 : (q * 2 ^ 52 + m) / 2 ^ 52 = q + 1 := by omega
      have h2 : (q * 2 ^ 52 + m) % 2 ^ 52 = m - 2 ^ 52 := by omega
      rw [h1, h2, if_neg (by omega)]
      have : 2 ^ 52 + (m - 2 ^ 52) = m := by omega
      rw [this]; simp
    · have hm' : m = 2 ^ 53 := le_antisymm hm h'
      subst hm'
      have h1 : (q * 2 ^ 52 + 2 ^ 53) / 2 ^ 52 = q + 2 := by omega
      have h2 : (q * 2 ^ 52 + 2 ^ 53) % 2 ^ 52 = 0 := by omega
      rw [h1, h2, if_neg (by omega)]
      have : q + 2 - 1 = q + 1 := by omega
      rw [this, pow_succ]; ring

/-- The next encoding stands for a greater magnitude. -/
theorem F64.magOf_lt_succ (b : Nat) : F64.magOf b < F64.magOf (b + 1) := by
  obtain ⟨q, m, hb, hm, hq⟩ : ∃ q m, b = q * 2 ^ 52 + m ∧ m < 2 ^ 53 ∧ (q = 0 ∨ 2 ^ 52 ≤ m) := by
    rcases Nat.lt_or_ge b (2 ^ 53) with h | h
    · exact ⟨0, b, by omega, h, .inl rfl⟩
    · exact ⟨b / 2 ^ 52 - 1, 2 ^ 52 + b % 2 ^ 52, by omega, by omega, .inr (by omega)⟩
  subst hb
  rw [Nat.add_assoc, F64.magOf_significand (by omega) hq,
    F64.magOf_significand (by omega) (hq.imp_right (by omega))]
  exact Nat.mul_lt_mul_of_pos_right (Nat.lt_succ_self m) (by positivity)

/-- Magnitudes order as their encodings do. -/
theorem F64.magOf_strictMono : StrictMono F64.magOf := strictMono_nat_of_lt_succ F64.magOf_lt_succ

/-- The rounding step taken apart: `base` is the encoding just below or at `num / den`, the next one lies above it,
and the answer is the nearer of the two, the even one at a tie. -/
theorem F64.roundMag_spec (num den : Nat) (hd : 0 < den) : ∃ base,
    F64.magOf base * den ≤ num ∧ num < F64.magOf (base + 1) * den ∧
    ((F64.roundMag num den = base ∧ 2 * num ≤ (F64.magOf base + F64.magOf (base + 1)) * den ∧
        (2 * num = (F64.magOf base + F64.magOf (base + 1)) * den → base % 2 = 0)) ∨
     (F64.roundMag num den = base + 1 ∧ (F64.magOf base + F64.magOf (base + 1)) * den ≤ 2 * num ∧
        (2 * num = (F64.magOf base + F64.magOf (base + 1)) * den → (base + 1) % 2 = 0))) := by
  set k := num / den with hk
  set q := Nat.log2 k - 52 with hqdef
  set ulp := den * 2 ^ q with hulp
  set m := num / ulp with hm
  set r := num % ulp with hr
  have hulp0 : 0 < ulp := Nat.mul_pos hd (by positivity)
  have hmk : m = k / 2 ^ q := by rw [hm, hk, hulp, Nat.div_div_eq_div_mul]
  have hm53 : m < 2 ^ 53 := by
    rw [hmk, Nat.div_lt_iff_lt_mul (by positivity), ← pow_add]
    by_cases hk0 : k = 0
    · rw [hk0]; positivity
    · rw [← Nat.log2_lt hk0]; omega
  have hq52 : q = 0 ∨ 2 ^ 52 ≤ m := by
    by_cases h0 : q = 0
    · exact .inl h0
    · right
      rw [hmk, Nat.le_div_iff_mul_le (by positivity), ← pow_add]
      have hk0 : k ≠ 0 := by
        rintro hk0
        rw [hk0] at hqdef
        simp at hqdef
        exact h0 hqdef
      rw [← Nat.le_log2 hk0]; omega
  have hdiv : num = ulp * m + r := (Nat.div_add_mod num ulp).symm
  have hrlt : r < ulp := Nat.mod_lt _ hulp0
  have hb0 : F64.magOf (q * 2 ^ 52 + m) * den = ulp * m := by
    rw [F64.magOf_significand (by omega) hq52, hulp]; ring
  have hb1 : F64.magOf (q * 2 ^ 52 + m + 1) * den = ulp * m + ulp := by
    rw [Nat.add_assoc, F64.magOf_significand (by omega) (hq52.imp_right (by omega)), hulp]; ring
  refine ⟨q * 2 ^ 52 + m, by omega, by omega, ?_⟩
  rw [Nat.add_mul, hb0, hb1]
  have hround : F64.roundMag num den = q * 2 ^ 52 + (if 2 * r > ulp ∨ (2 * r = ulp ∧ m % 2 = 1) then m + 1 else m) := rfl
  rw [hround]
  split
  · rename_i h
    right
    refine ⟨by omega, by omega, fun _ => by omega⟩
  · rename_i h
    left
    refine ⟨rfl, by omega, fun _ => by omega⟩

/-- The rounded encoding is at most any encoding that lies at or above the exact value. -/
theorem F64.roundMag_le {num den c : Nat} (hd : 0 < den) (h : num ≤ F64.magOf c * den) :
    F64.roundMag num den ≤ c := by
  obtain ⟨base, hlo, hhi, hcase⟩ := F64.roundMag_spec num den hd
  have hbc : base ≤ c := by
    rw [← F64.magOf_strictMono.le_iff_le]
    exact Nat.le_of_mul_le_mul_right (hlo.trans h) hd
  rcases hcase with ⟨he, _, _⟩ | ⟨he, hmid, _⟩
  · rw [he]; exact hbc
  · rw [he]
    rcases Nat.lt_or_ge base c with hlt | hge
    · exact hlt
    · have : base = c := le_antisymm hbc hge
      subst this
      have h1 : F64.magOf base * den < F64.magOf (base + 1) * den :=
        Nat.mul_lt_mul_of_pos_right (F64.magOf_lt_succ base) hd
      rw [Nat.add_mul] at hmid
      omega

/-- The rounded encoding is at least any encoding that lies at or below the exact value. -/
theorem F64.le_roundMag {num den c : Nat} (hd : 0 < den) (h : F64.magOf c * den ≤ num) :
    c ≤ F64.roundMag num den := by
  obtain ⟨base, hlo, hhi, hcase⟩ := F64.roundMag_spec num den hd
  have hcb : c < base + 1 := by
    rw [← F64.magOf_strictMono.lt_iff_lt]
    exact Nat.lt_of_mul_lt_mul_right (lt_of_le_of_lt h hhi)
  rcases hcase with ⟨he, _, _⟩ | ⟨he, _, _⟩ <;> omega

/-- Rounding an exact binary64 magnitude gives its encoding. -/
theorem F64.roundMag_exact {num den c : Nat} (hd : 0 < den) (h : num = F64.magOf c * den) :
    F64.roundMag num den = c :=
  le_antisymm (F64.roundMag_le hd h.le) (F64.le_roundMag hd h.ge)

/-- The rounded magnitude is nearest to the exact value among all magnitudes. -/
theorem F64.roundMag_nearest (num den c : Nat) (hd : 0 < den) :
    ((num : Int) - F64.magOf (F64.roundMag num den) * den).natAbs ≤ ((num : Int) - F64.magOf c * den).natAbs := by
  obtain ⟨base, hlo, hhi, hcase⟩ := F64.roundMag_spec num den hd
  have hc : F64.magOf c * den ≤ F64.magOf base * den ∨ F64.magOf (base + 1) * den ≤ F64.magOf c * den := by
    rcases Nat.lt_or_ge base c with h | h
    · exact .inr (Nat.mul_le_mul_right _ (F64.magOf_strictMono.le_iff_le.2 h))
    · exact .inl (Nat.mul_le_mul_right _ (F64.magOf_strictMono.le_iff_le.2 h))
  simp only [Nat.add_mul] at hcase
  rcases hcase with ⟨he, h1, _⟩ | ⟨he, h1, _⟩ <;> rw [he, ← Nat.cast_mul, ← Nat.cast_mul] <;> omega

/-- At a tie, the rounded encoding is even. -/
theorem F64.roundMag_tie_even (num den c : Nat) (hd : 0 < den) (hne : c ≠ F64.roundMag num den)
    (htie : ((num : Int) - F64.magOf c * den).natAbs =
      ((num : Int) - F64.magOf (F64.roundMag num den) * den).natAbs) :
    F64.roundMag num den % 2 = 0 := by
  obtain ⟨base, hlo, hhi, hcase⟩ := F64.roundMag_spec num den hd
  simp only [Nat.add_mul] at hcase
  have hstep : ∀ a b : Nat, a < b → F64.magOf a * den < F64.magOf b * den := fun a b h =>
    Nat.mul_lt_mul_of_pos_right (F64.magOf_strictMono h) hd
  rcases hcase with ⟨he, h1, h2⟩ | ⟨he, h1, h2⟩ <;> rw [he] at hne htie ⊢ <;>
    rw [← Nat.cast_mul, ← Nat.cast_mul] at htie <;> apply h2
  · rcases Nat.lt_trichotomy c base with h | h | h
    · have := hstep _ _ h; omega
    · exact absurd h hne
    · rcases Nat.lt_or_ge (base + 1) c with h' | h'
      · have := hstep _ _ h'; omega
      · have : c = base + 1 := by omega
        subst this; omega
  · rcases Nat.lt_trichotomy c (base + 1) with h | h | h
    · rcases Nat.lt_or_ge c base with h' | h'
      · have := hstep _ _ h'; omega
      · have : c = base := by omega
        subst this; omega
    · exact absurd h hne
    · have := hstep _ _ h; omega

/-! ### What a rounded result is -/

/-- Bits 62:0 of a rounded result. -/
abbrev F64.rneBits (n d : Nat) : Nat := min (F64.roundMag n d) (2047 * 2 ^ 52)

theorem F64.rneBits_lt (n d : Nat) : F64.rneBits n d < 2 ^ 63 := by
  unfold F64.rneBits; omega

@[simp] theorem F64.rne_sign (neg : Bool) (n d : Nat) : (F64.rne neg n d).sign = neg := by
  rw [F64.rne_eq]; exact F64.ofFields_sign _ (F64.rneBits_lt n d)

theorem F64.rne_mag (neg : Bool) (n d : Nat) : (F64.rne neg n d).mag = F64.magOf (F64.rneBits n d) := by
  rw [F64.rne_eq]; exact F64.ofFields_mag _ (F64.rneBits_lt n d)

/-- A rounded result is never a NaN. -/
@[simp] theorem F64.rne_isNaN (neg : Bool) (n d : Nat) : (F64.rne neg n d).isNaN = false := by
  have h := F64.rneBits_lt n d
  rw [F64.rne_eq, F64.isNaN, F64.ofFields_expBits _ h, F64.ofFields_fracBits _ h]
  have hle : F64.rneBits n d ≤ 2047 * 2 ^ 52 := min_le_right _ _
  simp only [Bool.and_eq_false_iff, beq_eq_false_iff_ne, bne_eq_false_iff_eq, ne_eq]
  omega

/-- A value whose magnitude is that of an encoding below the infinities is finite. -/
theorem F64.isFinite_of_mag_lt {x : F64} (h : x.mag < F64.magOf (2047 * 2 ^ 52)) : x.isFinite = true := by
  rw [F64.isFinite_iff]
  rw [F64.mag_eq_magOf] at h
  exact F64.magOf_strictMono.lt_iff_lt.1 h

theorem F64.mag_lt_of_isFinite {x : F64} (h : x.isFinite = true) : x.mag < F64.magOf (2047 * 2 ^ 52) := by
  rw [F64.isFinite_iff] at h
  rw [F64.mag_eq_magOf]
  exact F64.magOf_strictMono h

theorem F64.isNaN_of_isFinite {x : F64} (h : x.isFinite = true) : x.isNaN = false := by
  unfold F64.isFinite at h; unfold F64.isNaN; simp_all

theorem F64.isInf_of_isFinite {x : F64} (h : x.isFinite = true) : x.isInf = false := by
  unfold F64.isFinite at h; unfold F64.isInf; simp_all

/-- A result that lies at or below a finite magnitude rounds to at most it, and is finite. -/
theorem F64.rne_mag_le {neg : Bool} {n d c : Nat} (hd : 0 < d) (hc : c < 2047 * 2 ^ 52)
    (h : n ≤ F64.magOf c * d) :
    (F64.rne neg n d).mag ≤ F64.magOf c ∧ (F64.rne neg n d).isFinite = true := by
  have h1 := F64.roundMag_le hd h
  have h2 : F64.rneBits n d ≤ c := by unfold F64.rneBits; omega
  have h3 : (F64.rne neg n d).mag ≤ F64.magOf c := by
    rw [F64.rne_mag]; exact F64.magOf_strictMono.le_iff_le.2 h2
  exact ⟨h3, F64.isFinite_of_mag_lt (lt_of_le_of_lt h3 (F64.magOf_strictMono hc))⟩

/-- A result that lies at or above a magnitude rounds to at least it, or to an infinity. -/
theorem F64.le_rne_mag {neg : Bool} {n d c : Nat} (hd : 0 < d) (hc : c ≤ 2047 * 2 ^ 52)
    (h : F64.magOf c * d ≤ n) : F64.magOf c ≤ (F64.rne neg n d).mag := by
  have h1 := F64.le_roundMag hd h
  rw [F64.rne_mag]
  apply F64.magOf_strictMono.le_iff_le.2
  unfold F64.rneBits; omega

/-- A result that is a finite binary64 magnitude is exact. -/
theorem F64.rne_exact {neg : Bool} {n d c : Nat} (hd : 0 < d) (hc : c < 2047 * 2 ^ 52)
    (h : n = F64.magOf c * d) : F64.rne neg n d = F64.ofFields neg c := by
  rw [F64.rne_eq, F64.roundMag_exact hd h, min_eq_left hc.le]

/-! ### The operations on finite values -/

theorem F64.units_natAbs (x : F64) : x.units.natAbs = x.mag := by
  unfold F64.units; split <;> simp

theorem F64.add_of_finite {a b : F64} (ha : a.isFinite = true) (hb : b.isFinite = true) :
    F64.add a b = if a.units + b.units = 0 then (if a.sign && b.sign then F64.negZero else F64.posZero)
      else F64.rne (decide (a.units + b.units < 0)) (a.units + b.units).natAbs 1 := by
  simp [F64.add, F64.isNaN_of_isFinite ha, F64.isNaN_of_isFinite hb, F64.isInf_of_isFinite ha,
    F64.isInf_of_isFinite hb]

theorem F64.mul_of_finite {a b : F64} (ha : a.isFinite = true) (hb : b.isFinite = true) :
    F64.mul a b = F64.rne (a.sign != b.sign) (a.mag * b.mag) F64.unitsPerOne := by
  simp [F64.mul, F64.isNaN_of_isFinite ha, F64.isNaN_of_isFinite hb, F64.isInf_of_isFinite ha,
    F64.isInf_of_isFinite hb]

theorem F64.div_of_finite {a b : F64} (ha : a.isFinite = true) (hb : b.isFinite = true) (h0 : b.mag ≠ 0) :
    F64.div a b = F64.rne (a.sign != b.sign) (a.mag * F64.unitsPerOne) b.mag := by
  simp [F64.div, F64.isNaN_of_isFinite ha, F64.isNaN_of_isFinite hb, F64.isInf_of_isFinite ha,
    F64.isInf_of_isFinite hb, h0]

/-- A sum whose operands' magnitudes add up to at most a finite magnitude is finite and at most it. -/
theorem F64.add_bound {a b : F64} {c : Nat} (ha : a.isFinite = true) (hb : b.isFinite = true)
    (hc : c < 2047 * 2 ^ 52) (h : a.mag + b.mag ≤ F64.magOf c) :
    (F64.add a b).mag ≤ F64.magOf c ∧ (F64.add a b).isFinite = true := by
  rw [F64.add_of_finite ha hb]
  split
  · split <;> exact ⟨by rw [show (_ : F64).mag = 0 from by decide]; omega, by decide⟩
  · apply F64.rne_mag_le (by decide) hc
    have h1 := F64.units_natAbs a
    have h2 := F64.units_natAbs b
    omega

theorem F64.neg_eq_ofFields (x : F64) : x.neg = F64.ofFields (!x.sign) (x.toNat % 2 ^ 63) := by
  apply BitVec.eq_of_toNat_eq
  have hx := x.isLt
  have h63 : x.toNat % 2 ^ 63 < 2 ^ 63 := Nat.mod_lt _ (by norm_num)
  rw [F64.ofFields_toNat _ h63, F64.neg, BitVec.toNat_add, F64.sign, BitVec.msb_eq_decide]
  by_cases h : 2 ^ (64 - 1) ≤ x.toNat
  · simp only [h, decide_true, Bool.not_true]
    simp
    omega
  · simp only [h, decide_false, Bool.not_false]
    simp
    omega

@[simp] theorem F64.neg_sign (x : F64) : x.neg.sign = !x.sign := by
  rw [F64.neg_eq_ofFields]; exact F64.ofFields_sign _ (Nat.mod_lt _ (by norm_num))

@[simp] theorem F64.neg_mag (x : F64) : x.neg.mag = x.mag := by
  rw [F64.neg_eq_ofFields, F64.ofFields_mag _ (Nat.mod_lt _ (by norm_num)), F64.mag_eq_magOf x]

@[simp] theorem F64.neg_units (x : F64) : x.neg.units = -x.units := by
  unfold F64.units
  rw [F64.neg_sign, F64.neg_mag]
  cases x.sign <;> simp

theorem F64.neg_expBits (x : F64) : x.neg.expBits = x.expBits := by
  have h := Nat.mod_lt x.toNat (show 2 ^ 63 > 0 by norm_num)
  rw [F64.neg_eq_ofFields, F64.ofFields_expBits _ h]
  conv_rhs => rw [F64.eq_ofFields x, F64.ofFields_expBits _ h]

theorem F64.neg_fracBits (x : F64) : x.neg.fracBits = x.fracBits := by
  have h := Nat.mod_lt x.toNat (show 2 ^ 63 > 0 by norm_num)
  rw [F64.neg_eq_ofFields, F64.ofFields_fracBits _ h]
  conv_rhs => rw [F64.eq_ofFields x, F64.ofFields_fracBits _ h]

@[simp] theorem F64.neg_isFinite (x : F64) : x.neg.isFinite = x.isFinite := by
  unfold F64.isFinite; rw [F64.neg_expBits]

@[simp] theorem F64.neg_isNaN (x : F64) : x.neg.isNaN = x.isNaN := by
  unfold F64.isNaN; rw [F64.neg_expBits, F64.neg_fracBits]

end Sys2Proof
end

