-- ==== Sys2Proof/Laws/Decode.lean ====
section
/-! SUPPORT. The fields of a command word built from its upper 28 bits and its opcode, and when its reserved bits
are clear. -/

namespace Sys2Proof

theorem getLsbD_word (u : BitVec 28) (op : BitVec 4) (i : Nat) :
    BitVec.getLsbD (w := 32) (u ++ op) i = if i < 4 then op.getLsbD i else u.getLsbD (i - 4) :=
  BitVec.getLsbD_append

theorem getLsbD_indexBits (u : BitVec 16) (low : BitVec 12) (i : Nat) :
    BitVec.getLsbD (w := 28) (u ++ low) i = if i < 12 then low.getLsbD i else u.getLsbD (i - 12) :=
  BitVec.getLsbD_append

/-- The opcode of a word is its low four bits. -/
@[simp] theorem opField_append (u : BitVec 28) (op : BitVec 4) : opField (u ++ op) = op := by
  unfold opField
  ext i hi
  simp [getLsbD_word, hi]

/-- Bits 31:4 of a word are its upper 28 bits. -/
@[simp] theorem upper_append (u : BitVec 28) (op : BitVec 4) :
    BitVec.extractLsb' (n := 32) 4 28 (u ++ op) = u := by
  ext i hi
  simp [getLsbD_word]
  exact BitVec.getLsbD_eq_getElem hi

/-- INDEX is the top 16 bits of a word. -/
@[simp] theorem indexField_append (x : BitVec 16) (low : BitVec 12) (op : BitVec 4) :
    indexField ((x ++ low : BitVec 28) ++ op) = x := by
  unfold indexField
  ext i hi
  simp [getLsbD_word, getLsbD_indexBits]
  grind

/-- A masked word is 0 exactly when every bit of the mask is 0 in it. -/
theorem and_eq_zero_iff (w m : CmdWord) :
    w &&& m = 0#32 ↔ ∀ i < 32, m.getLsbD i = true → w.getLsbD i = false := by
  rw [BitVec.eq_of_getLsbD_eq_iff]
  simp only [BitVec.getLsbD_and, BitVec.getLsbD_zero, Bool.and_eq_false_iff]
  constructor <;> intro h i hi <;> have := h i hi <;> grind

/-- Every word is its upper 28 bits above its opcode. -/
theorem word_eq_append (w : CmdWord) : w = (w.extractLsb' 4 28 ++ opField w : BitVec 32) := by
  apply BitVec.eq_of_getLsbD_eq
  intro i hi
  rw [getLsbD_word]
  unfold opField
  split
  · rename_i h; simp [h]
  · simp only [BitVec.getLsbD_extractLsb']
    have h1 : i - 4 < 28 := by omega
    have h2 : 4 + (i - 4) = i := by omega
    simp [h1, h2]

/-- The reserved bits of format N are bits 31:4. -/
theorem reservedN_clear_iff (u : BitVec 28) (op : BitVec 4) :
    (u ++ op : BitVec 32) &&& 0xFFFFFFF0#32 = 0#32 ↔ u = 0#28 := by
  rw [and_eq_zero_iff]
  constructor
  · intro h
    apply BitVec.eq_of_getLsbD_eq
    intro i hi
    have := h (i + 4) (by omega) (by
      have : ∀ j : Fin 28, (0xFFFFFFF0#32).getLsbD (j.val + 4) = true := by decide
      exact this ⟨i, hi⟩)
    rw [getLsbD_word] at this
    simpa using this
  · rintro rfl i _ hm
    rw [getLsbD_word]
    split
    · rename_i h4
      have : ∀ j : Fin 4, (0xFFFFFFF0#32).getLsbD j.val = false := by decide
      exact absurd hm (by rw [this ⟨i, h4⟩]; simp)
    · simp

/-- The reserved bits of format I are bits 15:4. -/
theorem reservedI_clear_iff (x : BitVec 16) (low : BitVec 12) (op : BitVec 4) :
    ((x ++ low : BitVec 28) ++ op : BitVec 32) &&& 0x0000FFF0#32 = 0#32 ↔ low = 0#12 := by
  rw [and_eq_zero_iff]
  constructor
  · intro h
    apply BitVec.eq_of_getLsbD_eq
    intro i hi
    have := h (i + 4) (by omega) (by
      have : ∀ j : Fin 12, (0x0000FFF0#32).getLsbD (j.val + 4) = true := by decide
      exact this ⟨i, hi⟩)
    rw [getLsbD_word, getLsbD_indexBits] at this
    simpa [hi] using this
  · rintro rfl i hi hm
    have : ∀ j : Fin 32, (0x0000FFF0#32).getLsbD j.val = true → 4 ≤ j.val ∧ j.val < 16 := by decide
    have := this ⟨i, hi⟩ hm
    rw [getLsbD_word, getLsbD_indexBits]
    simp only at this
    rw [if_neg (by omega), if_pos (by omega)]
    simp

/-- The fields of a CONFIG word, and its reserved bits, which are clear. -/
theorem configWord_fields (w64 m : Bool) (p : BitVec 5) :
    let w : CmdWord := (0#17 ++ BitVec.ofBool w64 ++ BitVec.ofBool m ++ p ++ 0#4 : BitVec 28) ++ 0x1#4
    w &&& reservedMask 0x1#4 = 0#32 ∧ w64Field w = w64 ∧ w.getLsbD 13 = m ∧ pField w = p := by
  revert w64 m p
  decide +kernel

end Sys2Proof
end

