-- ==== Sys2Proof/Laws/Estimate.lean ====
section
/-! SUPPORT. The laws of the estimator's steps: the harmonic sum and the raw estimate are positive finite numbers,
the thresholds are exact, and what the LN unit and the bias window contribute. -/

namespace Sys2Proof.Machine

/-! ### Powers of two and small numbers -/

/-- The encoding of a power of two: biased exponent `e`, fraction 0. -/
theorem magOf_two_pow {e : Nat} (h : 1 ≤ e) : F64.magOf (e * 2 ^ 52) = 2 ^ (e + 51) := by
  obtain ⟨q, rfl⟩ : ∃ q, e = q + 1 := ⟨e - 1, by omega⟩
  have : (q + 1) * 2 ^ 52 = q * 2 ^ 52 + 2 ^ 52 := by ring
  rw [this, F64.magOf_significand (by norm_num) (.inr le_rfl), ← pow_add]
  congr 1; omega

/-- A positive finite number: what the estimator's values are. -/
structure PosFinite (x : F64) : Prop where
  finite : x.isFinite = true
  sign : x.sign = false
  pos : 0 < x.mag

theorem PosFinite.isNaN {x : F64} (h : PosFinite x) : x.isNaN = false := F64.isNaN_of_isFinite h.finite

theorem PosFinite.units {x : F64} (h : PosFinite x) : x.units = x.mag := by
  unfold F64.units; rw [h.sign]; rfl

theorem legal_bounds {c : Cfg} (h : c.p.toNat < 17 ∧ 4 ≤ c.p.toNat) : c.m ≤ 65536 ∧ 16 ≤ c.m := by
  unfold Cfg.m
  have h1 : 2 ^ c.p.toNat ≤ 2 ^ 16 := Nat.pow_le_pow_right (by norm_num) (by omega)
  have h2 : 2 ^ 4 ≤ 2 ^ c.p.toNat := Nat.pow_le_pow_right (by norm_num) (by omega)
  omega

/-! ### The harmonic sum and the raw estimate -/

theorem harmonicNum_bounds (regs : RegFile) (m : Nat) :
    m ≤ harmonicNum regs m ∧ harmonicNum regs m ≤ m * 2 ^ 127 := by
  induction m with
  | zero => simp [harmonicNum]
  | succ m ih =>
    have h1 : 2 ^ (127 - (regs.read m).toNat) ≤ 2 ^ 127 := Nat.pow_le_pow_right (by norm_num) (by omega)
    have h2 : 0 < 2 ^ (127 - (regs.read m).toNat) := by positivity
    simp only [harmonicNum]
    constructor
    · omega
    · rw [Nat.add_mul]; omega

/-- hs is a positive finite number between 2^-127 and 2^16 (42_estimate.md R141). -/
theorem harmonicSum_facts (regs : RegFile) {m : Nat} (h1 : 1 ≤ m) (h2 : m ≤ 65536) :
    PosFinite (harmonicSum regs m) ∧ 2 ^ 947 ≤ (harmonicSum regs m).mag ∧ (harmonicSum regs m).mag ≤ 2 ^ 1090 := by
  obtain ⟨hlo, hhi⟩ := harmonicNum_bounds regs m
  have hN1 : 1 ≤ harmonicNum regs m := by omega
  have hN2 : harmonicNum regs m ≤ 2 ^ 16 * 2 ^ 127 := hhi.trans (Nat.mul_le_mul_right _ (by omega))
  have up := F64.rne_mag_le (neg := false) (n := harmonicNum regs m * F64.unitsPerOne) (d := 2 ^ 127)
    (c := 1039 * 2 ^ 52) (by positivity) (by norm_num) (by
      rw [magOf_two_pow (by norm_num)]
      calc harmonicNum regs m * F64.unitsPerOne ≤ (2 ^ 16 * 2 ^ 127) * F64.unitsPerOne := Nat.mul_le_mul_right _ hN2
        _ = 2 ^ (1039 + 51) * 2 ^ 127 := by rw [← pow_add, ← pow_add, ← pow_add])
  have lo := F64.le_rne_mag (neg := false) (n := harmonicNum regs m * F64.unitsPerOne) (d := 2 ^ 127)
    (c := 896 * 2 ^ 52) (by positivity) (by norm_num) (by
      rw [magOf_two_pow (by norm_num)]
      calc 2 ^ (896 + 51) * 2 ^ 127 = 1 * F64.unitsPerOne := by rw [← pow_add, one_mul]
        _ ≤ _ := Nat.mul_le_mul_right _ hN1)
  rw [magOf_two_pow (by norm_num)] at up lo
  refine ⟨⟨up.2, F64.rne_sign _ _ _, lt_of_lt_of_le (Nat.two_pow_pos _) lo⟩, lo, up.1⟩

/-- `alpha64(P) ⊗ 2^(2P)` is a positive finite number between 1 and 2^32 (10_state.md R36). -/
theorem alphaScaled_facts {p : Nat} (h1 : 4 ≤ p) (h2 : p ≤ 16) :
    PosFinite (F64.mul (alpha64 p) (F64.ofNat (2 ^ (2 * p)))) ∧
    2 ^ 1074 ≤ (F64.mul (alpha64 p) (F64.ofNat (2 ^ (2 * p)))).mag ∧
    (F64.mul (alpha64 p) (F64.ofNat (2 ^ (2 * p)))).mag ≤ 2 ^ 1106 := by
  have h : ∀ p : Fin 17, 4 ≤ p.val →
      ((F64.mul (alpha64 p.val) (F64.ofNat (2 ^ (2 * p.val)))).isFinite = true ∧
        (F64.mul (alpha64 p.val) (F64.ofNat (2 ^ (2 * p.val)))).sign = false ∧
        0 < (F64.mul (alpha64 p.val) (F64.ofNat (2 ^ (2 * p.val)))).mag) ∧
      2 ^ 1074 ≤ (F64.mul (alpha64 p.val) (F64.ofNat (2 ^ (2 * p.val)))).mag ∧
      (F64.mul (alpha64 p.val) (F64.ofNat (2 ^ (2 * p.val)))).mag ≤ 2 ^ 1106 := by decide +kernel
  obtain ⟨⟨a, b, c⟩, d⟩ := h ⟨p, by omega⟩ h1
  exact ⟨⟨a, b, c⟩, d⟩

/-- raw is a positive finite number (42_estimate.md R142). -/
theorem rawEstimate_facts {p : Nat} (regs : RegFile) (h1 : 4 ≤ p) (h2 : p ≤ 16) :
    PosFinite (rawEstimate p regs) ∧ (rawEstimate p regs).mag ≤ 2 ^ 1233 := by
  have hm1 : 2 ^ p ≤ 2 ^ 16 := Nat.pow_le_pow_right (by norm_num) h2
  have hm0 : 0 < 2 ^ p := by positivity
  obtain ⟨hh, hlo, hhi⟩ := harmonicSum_facts regs (m := 2 ^ p) (by omega) (by omega)
  obtain ⟨ha, alo, ahi⟩ := alphaScaled_facts h1 h2
  unfold rawEstimate
  rw [F64.div_of_finite ha.finite hh.finite hh.pos.ne']
  have up := F64.rne_mag_le (neg := (F64.mul (alpha64 p) (F64.ofNat (2 ^ (2 * p)))).sign != (harmonicSum regs (2 ^ p)).sign)
    (n := (F64.mul (alpha64 p) (F64.ofNat (2 ^ (2 * p)))).mag * F64.unitsPerOne)
    (d := (harmonicSum regs (2 ^ p)).mag) (c := 1182 * 2 ^ 52) hh.pos (by norm_num) (by
      rw [magOf_two_pow (by norm_num)]
      calc _ ≤ 2 ^ 1106 * F64.unitsPerOne := Nat.mul_le_mul_right _ ahi
        _ = 2 ^ (1182 + 51) * 2 ^ 947 := by rw [← pow_add, ← pow_add]
        _ ≤ _ := Nat.mul_le_mul_left _ hlo)
  have lo := F64.le_rne_mag (neg := (F64.mul (alpha64 p) (F64.ofNat (2 ^ (2 * p)))).sign != (harmonicSum regs (2 ^ p)).sign)
    (n := (F64.mul (alpha64 p) (F64.ofNat (2 ^ (2 * p)))).mag * F64.unitsPerOne)
    (d := (harmonicSum regs (2 ^ p)).mag) (c := 1007 * 2 ^ 52) hh.pos (by norm_num) (by
      rw [magOf_two_pow (by norm_num)]
      calc 2 ^ (1007 + 51) * (harmonicSum regs (2 ^ p)).mag ≤ 2 ^ (1007 + 51) * 2 ^ 1090 := Nat.mul_le_mul_left _ hhi
        _ = 2 ^ 1074 * F64.unitsPerOne := by rw [← pow_add, ← pow_add]
        _ ≤ _ := Nat.mul_le_mul_right _ alo)
  rw [magOf_two_pow (by norm_num)] at up lo
  refine ⟨⟨up.2, ?_, lt_of_lt_of_le (Nat.two_pow_pos _) lo⟩, up.1⟩
  rw [F64.rne_sign, ha.sign, hh.sign]; rfl

/-! ### The thresholds -/

/-- 2.5·m is exact (42_estimate.md R144). -/
theorem smallThreshold_units {p : Nat} (h1 : 4 ≤ p) (h2 : p ≤ 16) :
    (F64.ofRatio (5 * 2 ^ p) 2).units = 5 * 2 ^ p * 2 ^ 1073 ∧ (F64.ofRatio (5 * 2 ^ p) 2).isFinite = true := by
  have h : ∀ p : Fin 17, 4 ≤ p.val → (F64.ofRatio (5 * 2 ^ p.val) 2).units = 5 * 2 ^ p.val * 2 ^ 1073 ∧
      (F64.ofRatio (5 * 2 ^ p.val) 2).isFinite = true := by decide +kernel
  exact h ⟨p, by omega⟩ h1

/-- 5.0·m is exact (42_estimate.md R146). -/
theorem midThreshold_units {p : Nat} (h1 : 4 ≤ p) (h2 : p ≤ 16) :
    (F64.ofNat (5 * 2 ^ p)).units = 5 * 2 ^ p * 2 ^ 1074 ∧ (F64.ofNat (5 * 2 ^ p)).isFinite = true := by
  have h : ∀ p : Fin 17, 4 ≤ p.val → (F64.ofNat (5 * 2 ^ p.val)).units = 5 * 2 ^ p.val * 2 ^ 1074 ∧
      (F64.ofNat (5 * 2 ^ p.val)).isFinite = true := by decide +kernel
  exact h ⟨p, by omega⟩ h1

/-- TLR is 0x43A1111111111111 (42_estimate.md R150). -/
theorem tlr_bits : tlr = 0x43A1111111111111#64 := by decide +kernel

/-- 2^64 is exact. -/
theorem two64_bits : two64 = 0x43F0000000000000#64 := by decide +kernel

/-- A natural number up to 65536 is exact in binary64. -/
theorem ofNat_exact {n : Nat} (h1 : 1 ≤ n) (h2 : n ≤ 65536) :
    PosFinite (F64.ofNat n) ∧ (F64.ofNat n).mag = n * 2 ^ 1074 := by
  obtain ⟨c, hc, hm⟩ : ∃ c, c < 2047 * 2 ^ 52 ∧ F64.magOf c = n * 2 ^ 1074 := by
    have hn : n ≠ 0 := by omega
    have hk : Nat.log2 n ≤ 16 := by
      have := (Nat.log2_lt hn (k := 17)).2 (by omega); omega
    have hlo := Nat.log2_self_le hn
    have hhi := Nat.lt_log2_self (n := n)
    refine ⟨(1022 + Nat.log2 n) * 2 ^ 52 + n * 2 ^ (52 - Nat.log2 n), ?_, ?_⟩
    · have : n * 2 ^ (52 - Nat.log2 n) < 2 ^ 53 := by
        calc n * 2 ^ (52 - Nat.log2 n) < 2 ^ (Nat.log2 n + 1) * 2 ^ (52 - Nat.log2 n) :=
              Nat.mul_lt_mul_of_pos_right hhi (by positivity)
          _ = 2 ^ 53 := by rw [← pow_add]; congr 1; omega
      omega
    · rw [F64.magOf_significand]
      · rw [mul_assoc, ← pow_add]; congr 2; omega
      · calc n * 2 ^ (52 - Nat.log2 n) ≤ 2 ^ (Nat.log2 n + 1) * 2 ^ (52 - Nat.log2 n) :=
              Nat.mul_le_mul_right _ hhi.le
          _ = 2 ^ 53 := by rw [← pow_add]; congr 1; omega
      · right
        calc 2 ^ 52 = 2 ^ Nat.log2 n * 2 ^ (52 - Nat.log2 n) := by rw [← pow_add]; congr 1; omega
          _ ≤ _ := Nat.mul_le_mul_right _ hlo
  have he : F64.ofNat n = F64.ofFields false c := by
    unfold F64.ofNat F64.ofRatio
    exact F64.rne_exact (by norm_num) hc (by rw [hm, mul_one])
  have hb : c < 2 ^ 63 := by omega
  have hmag : (F64.ofNat n).mag = n * 2 ^ 1074 := by rw [he, F64.ofFields_mag _ hb, hm]
  refine ⟨⟨?_, by rw [he]; exact F64.ofFields_sign _ hb, by rw [hmag]; positivity⟩, hmag⟩
  rw [F64.isFinite_iff, he, F64.ofFields_toNat _ hb]
  simp
  omega

/-! ### Linear counting -/

theorem zeroCount_le (regs : RegFile) (m : Nat) : zeroCount regs m ≤ m := by
  induction m with
  | zero => simp [zeroCount]
  | succ m ih => simp only [zeroCount]; split <;> omega

/-- Z counts the registers below m that are 0. -/
theorem zeroCount_eq_card (regs : RegFile) (m : Nat) :
    zeroCount regs m = ((Finset.range m).filter fun i => regs.read i = 0#7).card := by
  induction m with
  | zero => simp [zeroCount]
  | succ m ih =>
    rw [Finset.range_add_one, Finset.filter_insert, zeroCount, ih]
    split
    · rw [Finset.card_insert_of_notMem (by simp)]
    · simp

/-- The quotient `m ⊘ Z` is a finite number from 1 to 65536 (42_estimate.md R145). -/
theorem quotient_facts {m z : Nat} (hz : 1 ≤ z) (hzm : z ≤ m) (hm : m ≤ 65536) :
    PosFinite (F64.div (F64.ofNat m) (F64.ofNat z)) ∧ 2 ^ 1074 ≤ (F64.div (F64.ofNat m) (F64.ofNat z)).mag ∧
    (F64.div (F64.ofNat m) (F64.ofNat z)).mag ≤ 2 ^ 1090 := by
  obtain ⟨pm, mm⟩ := ofNat_exact (n := m) (by omega) hm
  obtain ⟨pz, mz⟩ := ofNat_exact (n := z) hz (by omega)
  rw [F64.div_of_finite pm.finite pz.finite pz.pos.ne']
  have hd : 0 < (F64.ofNat z).mag := pz.pos
  have lo := F64.le_rne_mag (neg := (F64.ofNat m).sign != (F64.ofNat z).sign)
    (n := (F64.ofNat m).mag * F64.unitsPerOne) (c := 1023 * 2 ^ 52) hd (by norm_num) (by
      rw [magOf_two_pow (by norm_num), mm, mz]
      calc 2 ^ (1023 + 51) * (z * 2 ^ 1074) = z * 2 ^ 1074 * F64.unitsPerOne := by ring
        _ ≤ _ := Nat.mul_le_mul_right _ (Nat.mul_le_mul_right _ hzm))
  have up := F64.rne_mag_le (neg := (F64.ofNat m).sign != (F64.ofNat z).sign)
    (n := (F64.ofNat m).mag * F64.unitsPerOne) (c := 1039 * 2 ^ 52) hd (by norm_num) (by
      rw [magOf_two_pow (by norm_num), mm, mz]
      calc m * 2 ^ 1074 * F64.unitsPerOne ≤ (65536 * z) * 2 ^ 1074 * F64.unitsPerOne :=
            Nat.mul_le_mul_right _ (Nat.mul_le_mul_right _ (by omega))
        _ = 2 ^ (1039 + 51) * (z * 2 ^ 1074) := by
            rw [show (1039 + 51) = 16 + 1074 from rfl, pow_add]; ring)
  rw [magOf_two_pow (by norm_num)] at lo up
  refine ⟨⟨up.2, ?_, lt_of_lt_of_le (Nat.two_pow_pos _) lo⟩, lo, up.1⟩
  rw [F64.rne_sign, pm.sign, pz.sign]; rfl

theorem lt_iff_of_finite {a b : F64} (ha : a.isFinite = true) (hb : b.isFinite = true) :
    F64.lt a b = true ↔ a.units < b.units := by
  simp [F64.lt, F64.isNaN_of_isFinite ha, F64.isNaN_of_isFinite hb]

theorem le_iff_of_finite {a b : F64} (ha : a.isFinite = true) (hb : b.isFinite = true) :
    F64.le a b = true ↔ a.units ≤ b.units := by
  simp [F64.le, F64.isNaN_of_isFinite ha, F64.isNaN_of_isFinite hb]

theorem one_facts : F64.one.isFinite = true ∧ F64.one.units = 2 ^ 1074 := by decide +kernel
theorem posZero_facts : F64.posZero.isFinite = true ∧ F64.posZero.units = 0 := by decide +kernel

/-- A value with positive units has sign +. -/
theorem sign_of_units_pos {x : F64} (h : 0 < x.units) : x.sign = false := by
  unfold F64.units at h
  cases hs : x.sign
  · rfl
  · rw [hs] at h; simp at h; omega

/-- A value with negative units has sign −. -/
theorem sign_of_units_neg {x : F64} (h : x.units < 0) : x.sign = true := by
  unfold F64.units at h
  cases hs : x.sign
  · rw [hs] at h; simp at h; omega
  · rfl

/-- Only 1.0 has the units of 1.0. -/
theorem eq_one_of_units {x : F64} (h : x.units = 2 ^ 1074) : x = F64.one := by
  have hs : x.sign = false := sign_of_units_pos (by rw [h]; positivity)
  have hm : F64.magOf (x.toNat % 2 ^ 63) = F64.magOf (1023 * 2 ^ 52) := by
    rw [← F64.mag_eq_magOf, magOf_two_pow (by norm_num)]
    unfold F64.units at h
    rw [hs] at h
    simp only [if_false, Bool.false_eq_true] at h
    exact_mod_cast h
  have := F64.magOf_strictMono.injective hm
  rw [F64.eq_ofFields x, hs, this]
  decide

/-- LN of a finite number from 1 on is +0.0 or a positive finite number (42_estimate.md R143). -/
theorem ln_from_one (L : LnUnit) {x : F64} (hx : PosFinite x) (h : 2 ^ 1074 ≤ x.mag) :
    L.ln x = F64.posZero ∨ PosFinite (L.ln x) := by
  have hu := hx.units
  rcases Nat.lt_or_ge (2 ^ 1074) x.mag with hlt | hge
  · right
    have h1 : F64.lt F64.one x = true :=
      (lt_iff_of_finite one_facts.1 hx.finite).2 (by rw [one_facts.2, hu]; exact_mod_cast hlt)
    have h0 : F64.lt F64.posZero x = true :=
      (lt_iff_of_finite posZero_facts.1 hx.finite).2 (by rw [posZero_facts.2, hu]; exact_mod_cast hx.pos)
    have hf := L.ln_finite x hx.finite h0
    have hp := (lt_iff_of_finite posZero_facts.1 hf).1 (L.ln_pos x hx.finite h1)
    rw [posZero_facts.2] at hp
    refine ⟨hf, sign_of_units_pos hp, ?_⟩
    have := F64.units_natAbs (L.ln x)
    omega
  · left
    have : x = F64.one := eq_one_of_units (by rw [hu]; have := le_antisymm hge h; exact_mod_cast this)
    rw [this]; exact L.ln_one

/-- LN of a number between 0 and 1 is a negative finite number (42_estimate.md R143). -/
theorem ln_below_one (L : LnUnit) {x : F64} (hx : PosFinite x) (h : x.mag < 2 ^ 1074) :
    (L.ln x).isFinite = true ∧ (L.ln x).sign = true ∧ 0 < (L.ln x).mag := by
  have hu := hx.units
  have h1 : F64.lt x F64.one = true :=
    (lt_iff_of_finite hx.finite one_facts.1).2 (by rw [one_facts.2, hu]; exact_mod_cast h)
  have h0 : F64.lt F64.posZero x = true :=
    (lt_iff_of_finite posZero_facts.1 hx.finite).2 (by rw [posZero_facts.2, hu]; exact_mod_cast hx.pos)
  have hf := L.ln_finite x hx.finite h0
  have hp := (lt_iff_of_finite hf posZero_facts.1).1 (L.ln_neg x h0 h1)
  rw [posZero_facts.2] at hp
  refine ⟨hf, sign_of_units_neg hp, ?_⟩
  have := F64.units_natAbs (L.ln x)
  omega

/-- Linear counting gives a non-negative number (42_estimate.md R145). -/
theorem linearCounting_facts (L : LnUnit) {m z : Nat} (hz : 1 ≤ z) (hzm : z ≤ m) (hm : m ≤ 65536) :
    (linearCounting L.ln m z).sign = false ∧ (linearCounting L.ln m z).isNaN = false := by
  obtain ⟨pq, qlo, qhi⟩ := quotient_facts hz hzm hm
  obtain ⟨pm, _⟩ := ofNat_exact (n := m) (by omega) hm
  have hl : (L.ln (F64.div (F64.ofNat m) (F64.ofNat z))).isFinite = true ∧
      (L.ln (F64.div (F64.ofNat m) (F64.ofNat z))).sign = false := by
    rcases ln_from_one L pq qlo with h | h
    · rw [h]; decide
    · exact ⟨h.finite, h.sign⟩
  unfold linearCounting
  rw [F64.mul_of_finite pm.finite hl.1, F64.rne_sign, F64.rne_isNaN, pm.sign, hl.2]
  exact ⟨rfl, rfl⟩

/-! ### The bias table -/

theorem lowerBound_le (x : F64) (l : List BiasEntry) : lowerBound x l ≤ l.length := by
  induction l with
  | nil => simp [lowerBound]
  | cons e l ih => simp only [lowerBound]; split <;> simp_all

theorem BiasRom.length_eq (rom : BiasRom) : rom.entries.length = 200 := by
  have := rom.ok
  simp only [biasRomOk, Bool.and_eq_true, decide_eq_true_eq] at this
  exact this.1.1

/-- Every bias of a well-formed ROM is finite and at most 2^1020 in magnitude (10_state.md R39). -/
theorem BiasRom.val_facts (rom : BiasRom) (i : Nat) :
    (rom.val i).isFinite = true ∧ (rom.val i).mag ≤ 2 ^ 1020 * 2 ^ 1074 := by
  have hok := rom.ok
  simp only [biasRomOk, Bool.and_eq_true, List.all_eq_true] at hok
  unfold BiasRom.val
  rw [List.getD_eq_getElem?_getD, List.getElem?_map]
  cases h : rom.entries[i]? with
  | none =>
    have h0 : F64.posZero.mag = 0 := by decide
    refine ⟨by decide, ?_⟩
    show F64.posZero.mag ≤ _
    rw [h0]
    exact Nat.zero_le _
  | some e =>
    have := hok.1.2 e (List.mem_of_getElem? h)
    simp only [biasEntryOk, Bool.and_eq_true, decide_eq_true_eq] at this
    have h2 := this.2
    unfold F64.unitsPerOne at h2
    exact ⟨this.1.2, h2⟩

/-- Encodings of k·2^1020 for k up to 7: each partial sum of the window is bounded by one of them. -/
theorem window_magOf : F64.magOf (2044 * 2 ^ 52) = 2 * (2 ^ 1020 * 2 ^ 1074) ∧
    F64.magOf (2044 * 2 ^ 52 + 2 ^ 51) = 3 * (2 ^ 1020 * 2 ^ 1074) ∧
    F64.magOf (2045 * 2 ^ 52) = 4 * (2 ^ 1020 * 2 ^ 1074) ∧
    F64.magOf (2045 * 2 ^ 52 + 2 ^ 50) = 5 * (2 ^ 1020 * 2 ^ 1074) ∧
    F64.magOf (2045 * 2 ^ 52 + 2 ^ 51) = 6 * (2 ^ 1020 * 2 ^ 1074) ∧
    F64.magOf (2043 * 2 ^ 52) = 2 ^ 1020 * 2 ^ 1074 := by decide +kernel

/-- The window sum is finite and at most 6·2^1020 in magnitude (10_state.md R39, 42_estimate.md R155). -/
theorem windowSum_facts (rom : BiasRom) (left : Nat) :
    (windowSum rom left).isFinite = true ∧ (windowSum rom left).mag ≤ 6 * (2 ^ 1020 * 2 ^ 1074) := by
  obtain ⟨w2, w3, w4, w5, w6, _⟩ := window_magOf
  have v := fun i => BiasRom.val_facts rom i
  have s2 := F64.add_bound (c := 2044 * 2 ^ 52) (v left).1 (v (left + 1)).1 (by norm_num)
    (by rw [w2]; have := (v left).2; have := (v (left + 1)).2; omega)
  rw [w2] at s2
  have s3 := F64.add_bound (c := 2044 * 2 ^ 52 + 2 ^ 51) s2.2 (v (left + 2)).1 (by norm_num)
    (by rw [w3]; have := s2.1; have := (v (left + 2)).2; omega)
  rw [w3] at s3
  have s4 := F64.add_bound (c := 2045 * 2 ^ 52) s3.2 (v (left + 3)).1 (by norm_num)
    (by rw [w4]; have := s3.1; have := (v (left + 3)).2; omega)
  rw [w4] at s4
  have s5 := F64.add_bound (c := 2045 * 2 ^ 52 + 2 ^ 50) s4.2 (v (left + 4)).1 (by norm_num)
    (by rw [w5]; have := s4.1; have := (v (left + 4)).2; omega)
  rw [w5] at s5
  have s6 := F64.add_bound (c := 2045 * 2 ^ 52 + 2 ^ 51) s5.2 (v (left + 5)).1 (by norm_num)
    (by rw [w6]; have := s5.1; have := (v (left + 5)).2; omega)
  rw [w6] at s6
  exact ⟨s6.2, s6.1⟩

theorem six_facts : PosFinite (F64.ofNat 6) ∧ (F64.ofNat 6).mag = 6 * 2 ^ 1074 :=
  ofNat_exact (by norm_num) (by norm_num)

/-- The window average is finite and at most 2^1020 in magnitude (42_estimate.md R155). -/
theorem windowAvg_facts (rom : BiasRom) (raw : F64) :
    (windowAvg rom raw).isFinite = true ∧ (windowAvg rom raw).mag ≤ 2 ^ 1020 * 2 ^ 1074 := by
  obtain ⟨sf, sm⟩ := windowSum_facts rom (windowLeft (lowerBound raw rom.entries))
  obtain ⟨pf, pm⟩ := six_facts
  unfold windowAvg
  rw [F64.div_of_finite sf pf.finite pf.pos.ne']
  have := F64.rne_mag_le
    (neg := (windowSum rom (windowLeft (lowerBound raw rom.entries))).sign != (F64.ofNat 6).sign)
    (n := (windowSum rom (windowLeft (lowerBound raw rom.entries))).mag * F64.unitsPerOne)
    (d := (F64.ofNat 6).mag) (c := 2043 * 2 ^ 52) pf.pos (by norm_num) (by
      rw [window_magOf.2.2.2.2.2, pm]
      calc _ ≤ 6 * (2 ^ 1020 * 2 ^ 1074) * F64.unitsPerOne := Nat.mul_le_mul_right _ sm
        _ = _ := by ring)
  rw [window_magOf.2.2.2.2.2] at this
  exact ⟨this.2, this.1⟩

/-- The mid-range estimate is finite (42_estimate.md R155). -/
theorem midRange_finite (rom : BiasRom) {raw : F64} (hr : PosFinite raw) (hm : raw.mag ≤ 2 ^ 1233) :
    (F64.sub raw (windowAvg rom raw)).isFinite = true := by
  obtain ⟨af, am⟩ := windowAvg_facts rom raw
  unfold F64.sub
  refine (F64.add_bound (c := 2044 * 2 ^ 52) hr.finite ((F64.neg_isFinite _).trans af) (by norm_num) ?_).2
  rw [window_magOf.1, F64.neg_mag]
  have : (2 : Nat) ^ 1233 ≤ 2 ^ 1020 * 2 ^ 1074 := by
    rw [← pow_add]; exact Nat.pow_le_pow_right (by norm_num) (by norm_num)
  omega

/-! ### The large range -/

theorem two64_facts : PosFinite two64 ∧ two64.mag = 2 ^ 1138 := by
  have h : two64.isFinite = true ∧ two64.sign = false ∧ 0 < two64.mag ∧ two64.mag = 2 ^ 1138 := by decide +kernel
  exact ⟨⟨h.1, h.2.1, h.2.2.1⟩, h.2.2.2⟩

theorem tlr_facts : PosFinite tlr ∧ 2 ^ 1133 ≤ tlr.mag := by
  have h : tlr.isFinite = true ∧ tlr.sign = false ∧ 0 < tlr.mag ∧ 2 ^ 1133 ≤ tlr.mag := by decide +kernel
  exact ⟨⟨h.1, h.2.1, h.2.2.1⟩, h.2.2.2⟩

/-- For a finite e above TLR, `d = 1 ⊖ e ⊘ 2^64` is a finite number below 1 (42_estimate.md R151). -/
theorem saturation_facts {e : F64} (he : PosFinite e) (h : 2 ^ 1133 ≤ e.mag) :
    (F64.sub F64.one (F64.div e two64)).isFinite = true ∧
    (F64.sub F64.one (F64.div e two64)).units < 2 ^ 1074 := by
  obtain ⟨pt, mt⟩ := two64_facts
  have hq : PosFinite (F64.div e two64) ∧ 2 ^ 1069 ≤ (F64.div e two64).mag ∧
      (F64.div e two64).mag ≤ F64.magOf (1983 * 2 ^ 52) := by
    rw [F64.div_of_finite he.finite pt.finite pt.pos.ne']
    have lo := F64.le_rne_mag (neg := e.sign != two64.sign) (n := e.mag * F64.unitsPerOne) (d := two64.mag)
      (c := 1018 * 2 ^ 52) pt.pos (by norm_num) (by
        rw [magOf_two_pow (by norm_num), mt]
        calc 2 ^ (1018 + 51) * 2 ^ 1138 = 2 ^ 1133 * F64.unitsPerOne := by rw [← pow_add, ← pow_add]
          _ ≤ _ := Nat.mul_le_mul_right _ h)
    have up := F64.rne_mag_le (neg := e.sign != two64.sign) (n := e.mag * F64.unitsPerOne) (d := two64.mag)
      (c := 1983 * 2 ^ 52) pt.pos (by norm_num) (by
        have hb := F64.mag_lt_of_isFinite he.finite
        rw [magOf_two_pow (by norm_num)] at hb
        rw [magOf_two_pow (by norm_num), mt]
        calc e.mag * F64.unitsPerOne ≤ 2 ^ (2047 + 51) * F64.unitsPerOne := Nat.mul_le_mul_right _ hb.le
          _ = 2 ^ (1983 + 51) * 2 ^ 1138 := by rw [← pow_add, ← pow_add])
    rw [magOf_two_pow (by norm_num)] at lo
    refine ⟨⟨up.2, ?_, lt_of_lt_of_le (Nat.two_pow_pos _) lo⟩, lo, up.1⟩
    rw [F64.rne_sign, he.sign, pt.sign]; rfl
  obtain ⟨hq, qlo, qhi⟩ := hq
  set q := F64.div e two64 with hqd
  have hnf : q.neg.isFinite = true := (F64.neg_isFinite _).trans hq.finite
  have hu : q.neg.units = -(q.mag : Int) := by rw [F64.neg_units, hq.units]
  have hqlo : ((2 : Int) ^ 1069) ≤ q.mag := by exact_mod_cast qlo
  unfold F64.sub
  constructor
  · refine (F64.add_bound (c := 1984 * 2 ^ 52) one_facts.1 hnf (by norm_num) ?_).2
    rw [F64.neg_mag]
    have h1 : F64.one.mag = 2 ^ 1074 := by decide +kernel
    rw [h1, magOf_two_pow (by norm_num)]
    rw [magOf_two_pow (by norm_num)] at qhi
    have h2 : (2 : Nat) ^ 1074 ≤ 2 ^ (1983 + 51) := Nat.pow_le_pow_right (by norm_num) (by norm_num)
    have h3 : (2 : Nat) ^ (1984 + 51) = 2 ^ (1983 + 51) + 2 ^ (1983 + 51) := by
      rw [← two_mul, ← pow_succ']
    omega
  · rw [F64.add_of_finite one_facts.1 hnf, one_facts.2, hu]
    split
    · have : (if (F64.one.sign && q.neg.sign) = true then F64.negZero else F64.posZero).units = 0 := by
        split <;> decide +kernel
      rw [this]; positivity
    · rename_i hne
      by_cases hneg : (2 : Int) ^ 1074 + -(q.mag : Int) < 0
      · rw [decide_eq_true hneg]
        unfold F64.units
        rw [F64.rne_sign]
        simp only [if_true]
        have : (0 : Int) < 2 ^ 1074 := by positivity
        omega
      · rw [decide_eq_false hneg]
        unfold F64.units
        rw [F64.rne_sign]
        simp only [Bool.false_eq_true, if_false]
        have hb := F64.rne_mag_le (neg := false) (n := ((2 : Int) ^ 1074 + -(q.mag : Int)).natAbs) (d := 1)
          (c := 1023 * 2 ^ 52 - 1) (by norm_num) (by norm_num) (by
            have hv : F64.magOf (1023 * 2 ^ 52 - 1) = 2 ^ 1074 - 2 ^ 1021 := by decide +kernel
            rw [hv]
            have hp : (2 : Int) ^ 1074 = ((2 ^ 1074 : Nat) : Int) := by push_cast; rfl
            have h69 : (2 : Nat) ^ 1021 ≤ 2 ^ 1069 := Nat.pow_le_pow_right (by norm_num) (by norm_num)
            omega)
        have hv : F64.magOf (1023 * 2 ^ 52 - 1) < 2 ^ 1074 := by decide +kernel
        have := lt_of_le_of_lt hb.1 hv
        exact_mod_cast this

/-- A value below 2^59 is not above TLR (42_estimate.md R150). -/
theorem lt_tlr_of_small {x : F64} (h : PosFinite x) (hm : x.mag < 2 ^ 1133) : F64.lt tlr x = false := by
  obtain ⟨ht, htm⟩ := tlr_facts
  rw [Bool.eq_false_iff]
  intro hc
  have := (lt_iff_of_finite ht.finite h.finite).1 hc
  rw [ht.units, h.units] at this
  omega

/-- A negative value is not above TLR. -/
theorem lt_tlr_of_neg {x : F64} (h : x.isFinite = true) (hs : x.sign = true) : F64.lt tlr x = false := by
  obtain ⟨ht, htm⟩ := tlr_facts
  rw [Bool.eq_false_iff]
  intro hc
  have := (lt_iff_of_finite ht.finite h).1 hc
  have hu : x.units ≤ 0 := by unfold F64.units; rw [hs]; simp
  rw [ht.units] at this
  omega

/-- A finite value above TLR is positive. -/
theorem posFinite_of_lt_tlr {x : F64} (h : x.isFinite = true) (hc : F64.lt tlr x = true) :
    PosFinite x ∧ 2 ^ 1133 ≤ x.mag := by
  obtain ⟨ht, htm⟩ := tlr_facts
  have := (lt_iff_of_finite ht.finite h).1 hc
  rw [ht.units] at this
  have hs := sign_of_units_pos (x := x) (by omega)
  have hm := F64.units_natAbs x
  refine ⟨⟨h, hs, by omega⟩, by omega⟩

/-- The corrected estimate is no negative value and no NaN, for every LN unit (42_estimate.md R151). -/
theorem saturated_sign (L : LnUnit) {x : F64} (h : PosFinite x) (hm : 2 ^ 1133 ≤ x.mag)
    (hd : F64.le (F64.sub F64.one (F64.div x two64)) F64.posZero = false) :
    (F64.neg (F64.mul two64 (L.ln (F64.sub F64.one (F64.div x two64))))).sign = false ∧
    (F64.neg (F64.mul two64 (L.ln (F64.sub F64.one (F64.div x two64))))).isNaN = false := by
  obtain ⟨df, du⟩ := saturation_facts h hm
  set d := F64.sub F64.one (F64.div x two64)
  have h0 : 0 < d.units := by
    by_contra hc
    have := (le_iff_of_finite df posZero_facts.1).2 (by rw [posZero_facts.2]; omega)
    rw [this] at hd; cases hd
  have hs := sign_of_units_pos h0
  have hda := F64.units_natAbs d
  have pd : PosFinite d := ⟨df, hs, by omega⟩
  have hlt : d.mag < 2 ^ 1074 := by
    rw [pd.units] at du; exact_mod_cast du
  obtain ⟨lf, ls, lm⟩ := ln_below_one L pd hlt
  obtain ⟨pt, mt⟩ := two64_facts
  rw [F64.neg_sign, F64.neg_isNaN, F64.mul_of_finite pt.finite lf, F64.rne_sign, F64.rne_isNaN, pt.sign, ls]
  exact ⟨rfl, rfl⟩

/-! ### The regimes, one lemma per branch (R144 to R152) -/

theorem legal_p {c : Cfg} (h : c.legal = true) : 4 ≤ c.p.toNat ∧ c.p.toNat ≤ 16 := by
  simp only [Cfg.legal, Bool.and_eq_true, decide_eq_true_eq] at h
  exact h.1

theorem mode_bit {m : Mode} : (m.bit = true ↔ m = .biasCorrected) ∧ (m.bit = false ↔ m = .baseline) := by
  cases m <;> simp

/-- The small-range condition on the exact rational values (42_estimate.md R144). -/
theorem smallRange_iff {c : Cfg} (regs : RegFile) (h : c.legal = true) :
    smallRange c.m (rawEstimate c.p.toNat regs) = true ↔
      (rawEstimate c.p.toNat regs).toRat ≤ 5 / 2 * (2 ^ c.p.toNat : ℕ) := by
  obtain ⟨h1, h2⟩ := legal_p h
  obtain ⟨hr, _⟩ := rawEstimate_facts regs h1 h2
  obtain ⟨hu, hf⟩ := smallThreshold_units h1 h2
  unfold smallRange Cfg.m
  rw [le_iff_of_finite hr.finite hf, hu]
  unfold F64.toRat F64.unitsPerOne
  rw [div_le_iff₀ (by positivity)]
  have : (5 / 2 * ((2 ^ c.p.toNat : ℕ) : ℚ) * ((2 ^ 1074 : ℕ) : ℚ)) = ((5 * 2 ^ c.p.toNat * 2 ^ 1073 : ℤ) : ℚ) := by
    push_cast
    rw [show (1074) = 1073 + 1 from rfl, pow_succ]; ring
  rw [this]
  exact Int.cast_le.symm

/-- The upper mid-range condition on the exact rational values (42_estimate.md R146). -/
theorem belowMid_iff {c : Cfg} (regs : RegFile) (h : c.legal = true) :
    belowMidRangeTop c.m (rawEstimate c.p.toNat regs) = true ↔
      (rawEstimate c.p.toNat regs).toRat < 5 * (2 ^ c.p.toNat : ℕ) := by
  obtain ⟨h1, h2⟩ := legal_p h
  obtain ⟨hr, _⟩ := rawEstimate_facts regs h1 h2
  obtain ⟨hu, hf⟩ := midThreshold_units h1 h2
  unfold belowMidRangeTop Cfg.m
  rw [lt_iff_of_finite hr.finite hf, hu]
  unfold F64.toRat F64.unitsPerOne
  rw [div_lt_iff₀ (by positivity)]
  have : (5 * ((2 ^ c.p.toNat : ℕ) : ℚ) * ((2 ^ 1074 : ℕ) : ℚ)) = ((5 * 2 ^ c.p.toNat * 2 ^ 1074 : ℤ) : ℚ) := by
    push_cast; ring
  rw [this]
  exact Int.cast_lt.symm

/-- In the small range the raw estimate is below 2^59. -/
theorem rawEstimate_lt_of_smallRange (c : Cfg) (regs : RegFile) (h : c.legal = true) (hs : smallRange c.m (rawEstimate c.p.toNat regs) = true) :
    (rawEstimate c.p.toNat regs).mag < 2 ^ 1133 := by
  obtain ⟨h1, h2⟩ := legal_p h
  obtain ⟨hr, _⟩ := rawEstimate_facts regs h1 h2
  obtain ⟨hu, hf⟩ := smallThreshold_units h1 h2
  unfold smallRange Cfg.m at hs
  rw [le_iff_of_finite hr.finite hf, hu, hr.units] at hs
  have : (5:ℤ) * 2 ^ c.p.toNat * 2 ^ 1073 < 2 ^ 1133 := by
    have : (2:ℤ) ^ c.p.toNat ≤ 2 ^ 16 := pow_le_pow_right₀ (by norm_num) h2
    calc (5:ℤ) * 2 ^ c.p.toNat * 2 ^ 1073 ≤ 5 * 2^16 * 2^1073 := by gcongr
     _ < 2 ^ 60 * 2 ^ 1073 := by gcongr; norm_num
     _ = 2 ^ 1133 := by rw [← pow_add]
  have := lt_of_le_of_lt hs this
  exact_mod_cast this

theorem smallOrMidRange_linear {ln : F64 → F64} {rom : BiasRom} {c : Cfg} {regs : RegFile} {raw : F64}
    (hs : smallRange c.m raw = true) (hz : 0 < zeroCount regs c.m) :
    smallOrMidRange ln rom c regs raw =
      ⟨linearCounting ln c.m (zeroCount regs c.m), ⟨true, false, false, false⟩⟩ := by
  unfold smallOrMidRange
  rw [if_pos hs, if_pos hz]

theorem smallOrMidRange_full {ln : F64 → F64} {rom : BiasRom} {c : Cfg} {regs : RegFile} {raw : F64}
    (hs : smallRange c.m raw = true) (hz : zeroCount regs c.m = 0) :
    smallOrMidRange ln rom c regs raw = ⟨raw, RegimeFlags.none⟩ := by
  unfold smallOrMidRange
  rw [if_pos hs, if_neg (by omega)]

theorem smallOrMidRange_mid {ln : F64 → F64} {rom : BiasRom} {c : Cfg} {regs : RegFile} {raw : F64}
    (hs : smallRange c.m raw = false) (hm : c.mode = .biasCorrected) (hb : belowMidRangeTop c.m raw = true) :
    smallOrMidRange ln rom c regs raw = ⟨F64.sub raw (windowAvg rom raw), ⟨false, true, false, false⟩⟩ := by
  unfold smallOrMidRange
  rw [if_neg (by rw [hs]; exact Bool.false_ne_true), if_pos (by rw [hb, mode_bit.1.2 hm]; rfl)]

theorem smallOrMidRange_none {ln : F64 → F64} {rom : BiasRom} {c : Cfg} {regs : RegFile} {raw : F64}
    (hs : smallRange c.m raw = false) (hm : c.mode = .baseline ∨ belowMidRangeTop c.m raw = false) :
    smallOrMidRange ln rom c regs raw = ⟨raw, RegimeFlags.none⟩ := by
  unfold smallOrMidRange
  rw [if_neg (by rw [hs]; exact Bool.false_ne_true), if_neg]
  rcases hm with h | h
  · rw [mode_bit.2.2 h]; simp
  · rw [h]; simp

theorem largeRange_off {ln : F64 → F64} {c : Cfg} {x : F64} {f : RegimeFlags}
    (h : c.mode = .baseline ∨ F64.lt tlr x = false) : largeRange ln c ⟨x, f⟩ = ⟨x, f⟩ := by
  unfold largeRange
  rcases h with h | h
  · rw [mode_bit.2.2 h, Bool.false_and]; rfl
  · simp only [h, Bool.and_false, Bool.false_eq_true, if_false]

theorem largeRange_infinity {ln : F64 → F64} {c : Cfg} {x : F64} {f : RegimeFlags} (h : c.mode = .biasCorrected)
    (hl : F64.lt tlr x = true) (hd : F64.le (F64.sub F64.one (F64.div x two64)) F64.posZero = true) :
    largeRange ln c ⟨x, f⟩ = ⟨F64.posInf, { f with lr := true, cl := true }⟩ := by
  unfold largeRange
  simp only [mode_bit.1.2 h, hl, hd, Bool.and_self, if_true]

theorem largeRange_corrected {ln : F64 → F64} {c : Cfg} {x : F64} {f : RegimeFlags} (h : c.mode = .biasCorrected)
    (hl : F64.lt tlr x = true) (hd : F64.le (F64.sub F64.one (F64.div x two64)) F64.posZero = false) :
    largeRange ln c ⟨x, f⟩ =
      ⟨F64.neg (F64.mul two64 (ln (F64.sub F64.one (F64.div x two64)))), { f with lr := true }⟩ := by
  unfold largeRange
  simp only [mode_bit.1.2 h, hl, hd, Bool.and_self, if_true, Bool.false_eq_true, if_false]

theorem outputRule_id {v : F64} {f : RegimeFlags} (h : v.sign = false) : outputRule ⟨v, f⟩ = ⟨v, f⟩ := by
  simp [outputRule, F64.negativeOrNegZero, h]

theorem outputRule_clamp {v : F64} {f : RegimeFlags} (h : v.sign = true) (hn : v.isNaN = false) :
    outputRule ⟨v, f⟩ = ⟨F64.posZero, { f with cl := true }⟩ := by
  simp [outputRule, F64.negativeOrNegZero, h, hn]

/-- EST on a configured block appends one response and changes nothing else (42_estimate.md R140). -/
theorem exec_est (s : State) (h : s.cfg.configured = true) {v : F64} {f : RegimeFlags} {st : Status}
    (he : estimate Config.ln s.rom s.cfg s.regs = ⟨v, f⟩) (hf : flagStatus f = st) :
    execEst s = .next { s with rq := s.rq ++ [⟨st, v⟩] } := by
  simp [execEst, h, State.respond, he, hf]

end Sys2Proof.Machine
end

