-- ==== Sys2Proof/Laws/RegFile.lean ====
section
/-! SUPPORT. The laws of the register array: reading after writing, and that every operation keeps the canonical
form, in which equal contents are equal data. -/

namespace Sys2Proof.Machine

/-- The indices of the entries, in order. -/
abbrev slotKeys (l : List (Nat × RegVal)) : List Nat := l.map Prod.fst

theorem slotsRise_iff (l : List (Nat × RegVal)) : slotsRise l = true ↔ (slotKeys l).Pairwise (· < ·) := by
  induction l with
  | nil => simp [slotsRise]
  | cons a l ih =>
    cases l with
    | nil => simp [slotsRise]
    | cons b l =>
      simp only [slotsRise, Bool.and_eq_true, decide_eq_true_eq, ih]
      constructor
      · rintro ⟨hab, hp⟩
        refine List.pairwise_cons.2 ⟨?_, hp⟩
        intro k hk
        rcases List.mem_cons.1 hk with rfl | hk
        · exact hab
        · exact lt_trans hab ((List.pairwise_cons.1 hp).1 k hk)
      · intro hp
        have := List.pairwise_cons.1 hp
        exact ⟨this.1 _ (List.mem_cons_self ..), this.2⟩

theorem slotLookup_none {i : Nat} {l : List (Nat × RegVal)} (h : i ∉ slotKeys l) : slotLookup i l = none := by
  induction l with
  | nil => rfl
  | cons a l ih =>
    obtain ⟨j, v⟩ := a
    simp only [slotKeys, List.map_cons, List.mem_cons, not_or] at h
    simp only [slotLookup]
    rw [if_neg (fun hc => h.1 hc.symm)]
    exact ih h.2

theorem slotLookup_mem {i : Nat} {v : RegVal} {l : List (Nat × RegVal)} (h : slotLookup i l = some v) :
    (i, v) ∈ l := by
  induction l with
  | nil => simp [slotLookup] at h
  | cons a l ih =>
    obtain ⟨j, w⟩ := a
    simp only [slotLookup] at h
    split at h
    · rename_i hj; subst hj; simp_all
    · exact List.mem_cons_of_mem _ (ih h)

theorem slotLookup_insert (i k : Nat) (v : RegVal) (l : List (Nat × RegVal))
    (hl : (slotKeys l).Pairwise (· < ·)) :
    slotLookup k (slotInsert i v l) = if k = i then some v else slotLookup k l := by
  induction l with
  | nil => simp [slotInsert, slotLookup, eq_comm]
  | cons a l ih =>
    obtain ⟨j, w⟩ := a
    have hp := List.pairwise_cons.1 hl
    simp only [slotInsert]
    by_cases h1 : i < j
    · simp only [h1, if_true, slotLookup]
      by_cases hk : k = i
      · simp [hk]
      · have hki : ¬ i = k := fun h => hk h.symm
        simp [hk, hki]
    · by_cases h2 : i = j
      · subst h2
        simp only [lt_irrefl, if_false, if_true, slotLookup]
        by_cases hk : k = i
        · simp [hk]
        · have : ¬ i = k := fun h => hk h.symm
          simp [hk, this]
      · simp only [h1, h2, if_false, slotLookup, ih hp.2]
        by_cases hj : j = k
        · have : ¬ k = i := by omega
          simp [hj, this]
        · simp [hj]

theorem slotLookup_erase (i k : Nat) (l : List (Nat × RegVal)) (hl : (slotKeys l).Pairwise (· < ·)) :
    slotLookup k (slotErase i l) = if k = i then none else slotLookup k l := by
  induction l with
  | nil => simp [slotErase, slotLookup]
  | cons a l ih =>
    obtain ⟨j, w⟩ := a
    have hp := List.pairwise_cons.1 hl
    simp only [slotErase]
    by_cases h : j = i
    · subst h
      simp only [if_true, slotLookup]
      by_cases hk : k = j
      · subst hk
        simp only [if_true]
        exact slotLookup_none (fun hm => lt_irrefl _ (hp.1 _ hm))
      · have : ¬ j = k := fun h => hk h.symm
        simp [hk, this]
    · simp only [h, if_false, slotLookup, ih hp.2]
      by_cases hj : j = k
      · have : ¬ k = i := by omega
        simp [hj, this]
      · simp [hj]

theorem slotKeys_insert (i : Nat) (v : RegVal) (l : List (Nat × RegVal)) (k : Nat) :
    k ∈ slotKeys (slotInsert i v l) → k = i ∨ k ∈ slotKeys l := by
  induction l with
  | nil => simp [slotInsert]
  | cons a l ih =>
    obtain ⟨j, w⟩ := a
    simp only [slotInsert]
    split
    · simp
    · split
      · rename_i h; subst h; simp
      · simp only [slotKeys, List.map_cons, List.mem_cons] at ih ⊢
        tauto

theorem slotsRise_insert (i : Nat) (v : RegVal) (l : List (Nat × RegVal))
    (hl : (slotKeys l).Pairwise (· < ·)) : (slotKeys (slotInsert i v l)).Pairwise (· < ·) := by
  induction l with
  | nil => simp [slotInsert]
  | cons a l ih =>
    obtain ⟨j, w⟩ := a
    have hp := List.pairwise_cons.1 hl
    simp only [slotInsert]
    split
    · rename_i h
      refine List.pairwise_cons.2 ⟨?_, hl⟩
      intro k hk
      rcases List.mem_cons.1 hk with rfl | hk
      · exact h
      · exact lt_trans h (hp.1 k hk)
    · split
      · rename_i h; subst h; exact List.pairwise_cons.2 ⟨hp.1, hp.2⟩
      · refine List.pairwise_cons.2 ⟨?_, ih hp.2⟩
        intro k hk
        rcases slotKeys_insert _ _ _ _ hk with rfl | hk
        · show j < k; omega
        · exact hp.1 k hk

theorem slotErase_sublist (i : Nat) (l : List (Nat × RegVal)) : (slotErase i l).Sublist l := by
  induction l with
  | nil => simp [slotErase]
  | cons a l ih =>
    obtain ⟨j, w⟩ := a
    simp only [slotErase]
    split
    · exact List.sublist_cons_self ..
    · exact ih.cons_cons _

theorem slotInsert_mem {i : Nat} {v : RegVal} {l : List (Nat × RegVal)} {e : Nat × RegVal}
    (h : e ∈ slotInsert i v l) : e = (i, v) ∨ e ∈ l := by
  induction l with
  | nil => simpa [slotInsert] using h
  | cons a l ih =>
    obtain ⟨j, w⟩ := a
    simp only [slotInsert] at h
    split at h
    · simpa using h
    · split at h
      · rcases List.mem_cons.1 h with h | h
        · exact .inl h
        · exact .inr (List.mem_cons_of_mem _ h)
      · rcases List.mem_cons.1 h with h | h
        · exact .inr (h ▸ List.mem_cons_self ..)
        · rcases ih h with h | h
          · exact .inl h
          · exact .inr (List.mem_cons_of_mem _ h)

theorem RegFile.wf_iff (r : RegFile) :
    r.wf = true ↔ (slotKeys r.slots).Pairwise (· < ·) ∧ ∀ e ∈ r.slots, e.1 < nreg ∧ e.2 ≠ r.fill.value e.1 := by
  simp [RegFile.wf, slotsRise_iff, List.all_eq_true]

/-- A write to a slot is what a read of it gives. -/
theorem RegFile.read_write_same (r : RegFile) (i : Nat) (v : RegVal) (h : r.wf = true) :
    (r.write i v).read i = v := by
  have hp := (r.wf_iff.1 h).1
  unfold RegFile.write
  split
  · rename_i hv
    simp [RegFile.read, slotLookup_erase _ _ _ hp, hv]
  · simp [RegFile.read, slotLookup_insert _ _ _ _ hp]

/-- A write to a slot leaves every other slot alone. -/
theorem RegFile.read_write_other (r : RegFile) (i k : Nat) (v : RegVal) (h : r.wf = true) (hk : k ≠ i) :
    (r.write i v).read k = r.read k := by
  have hp := (r.wf_iff.1 h).1
  unfold RegFile.write
  split
  · simp [RegFile.read, slotLookup_erase _ _ _ hp, hk]
  · simp [RegFile.read, slotLookup_insert _ _ _ _ hp, hk]

/-- A write does not change what unnamed slots hold. -/
@[simp] theorem RegFile.write_fill (r : RegFile) (i : Nat) (v : RegVal) : (r.write i v).fill = r.fill := by
  unfold RegFile.write; split <;> rfl

/-- A write to a slot below 65536 keeps the canonical form. -/
theorem RegFile.wf_write (r : RegFile) (i : Nat) (v : RegVal) (h : r.wf = true) (hi : i < nreg) :
    (r.write i v).wf = true := by
  obtain ⟨hp, hm⟩ := r.wf_iff.1 h
  rw [RegFile.wf_iff]
  unfold RegFile.write
  split
  · refine ⟨hp.sublist ((slotErase_sublist i r.slots).map _), fun e he => ?_⟩
    exact hm e ((slotErase_sublist i r.slots).subset he)
  · rename_i hv
    refine ⟨slotsRise_insert _ _ _ hp, fun e he => ?_⟩
    rcases slotInsert_mem he with rfl | he
    · exact ⟨hi, hv⟩
    · exact hm e he

/-- Every slot of a cleared array is 0. -/
@[simp] theorem RegFile.read_cleared (i : Nat) : RegFile.cleared.read i = 0#7 := rfl

/-- A cleared array is in canonical form. -/
@[simp] theorem RegFile.wf_cleared : RegFile.cleared.wf = true := rfl

/-- An array that no slot has been written in since reset is in canonical form. -/
@[simp] theorem RegFile.wf_unwritten (n : Nat) : (RegFile.mk (.unspecified n) []).wf = true := rfl

theorem slots_eq_of_lookup {l₁ l₂ : List (Nat × RegVal)} (h₁ : (slotKeys l₁).Pairwise (· < ·))
    (h₂ : (slotKeys l₂).Pairwise (· < ·)) (h : ∀ i, slotLookup i l₁ = slotLookup i l₂) : l₁ = l₂ := by
  induction l₁ generalizing l₂ with
  | nil =>
    cases l₂ with
    | nil => rfl
    | cons b l => have := h b.1; simp [slotLookup] at this
  | cons a l₁ ih =>
    cases l₂ with
    | nil => have := h a.1; simp [slotLookup] at this
    | cons b l₂ =>
      have p1 := List.pairwise_cons.1 h₁
      have p2 := List.pairwise_cons.1 h₂
      have key : a.1 = b.1 := by
        rcases lt_trichotomy a.1 b.1 with hlt | heq | hgt
        · exfalso
          have hb : slotLookup a.1 (b :: l₂) = none := by
            apply slotLookup_none
            simp only [slotKeys, List.map_cons, List.mem_cons, not_or]
            exact ⟨by omega, fun hm => by have := p2.1 _ hm; omega⟩
          have := h a.1
          rw [hb] at this
          simp [slotLookup] at this
        · exact heq
        · exfalso
          have hb : slotLookup b.1 (a :: l₁) = none := by
            apply slotLookup_none
            simp only [slotKeys, List.map_cons, List.mem_cons, not_or]
            exact ⟨by omega, fun hm => by have := p1.1 _ hm; omega⟩
          have := h b.1
          rw [hb] at this
          simp [slotLookup] at this
      have hval : a = b := by
        have := h a.1
        simp only [slotLookup, key, if_true, Option.some.injEq] at this
        exact Prod.ext key this
      subst hval
      congr 1
      apply ih p1.2 p2.2
      intro i
      by_cases hi : a.1 = i
      · subst hi
        rw [slotLookup_none (fun hm => lt_irrefl _ (p1.1 _ hm)), slotLookup_none (fun hm => lt_irrefl _ (p2.1 _ hm))]
      · have := h i
        simpa [slotLookup, hi] using this

/-- Two arrays in canonical form with the same fill and the same contents are the same data. -/
theorem RegFile.eq_of_read {r₁ r₂ : RegFile} (h₁ : r₁.wf = true) (h₂ : r₂.wf = true) (hf : r₁.fill = r₂.fill)
    (h : ∀ i, r₁.read i = r₂.read i) : r₁ = r₂ := by
  obtain ⟨p1, m1⟩ := r₁.wf_iff.1 h₁
  obtain ⟨p2, m2⟩ := r₂.wf_iff.1 h₂
  have : r₁.slots = r₂.slots := by
    apply slots_eq_of_lookup p1 p2
    intro i
    have hi := h i
    unfold RegFile.read at hi
    cases e1 : slotLookup i r₁.slots with
    | none =>
      cases e2 : slotLookup i r₂.slots with
      | none => rfl
      | some v =>
        rw [e1, e2] at hi
        exact absurd hi.symm (by rw [hf]; exact (m2 _ (slotLookup_mem e2)).2)
    | some v =>
      cases e2 : slotLookup i r₂.slots with
      | none =>
        rw [e1, e2] at hi
        exact absurd hi (by rw [← hf]; exact (m1 _ (slotLookup_mem e1)).2)
      | some w => rw [e1, e2] at hi; exact congrArg some hi
  cases r₁; cases r₂; simp_all

end Sys2Proof.Machine
end

