-- ==== Sys2Proof/Laws/State.lean ====
section
/-! SUPPORT. One lemma per field per update of the state, each true by rfl, so that no proof unfolds a record
update. -/

namespace Sys2Proof.Machine

variable (s : State) (st : Status) (d : Data64) (e : ErrorCode) (w : Bool) (m : Mode) (p : BitVec 5) (x : Edge)

@[simp] theorem State.respond_cfg : (s.respond st d).cfg = s.cfg := rfl
@[simp] theorem State.respond_seed : (s.respond st d).seed = s.seed := rfl
@[simp] theorem State.respond_regs : (s.respond st d).regs = s.regs := rfl
@[simp] theorem State.respond_rq : (s.respond st d).rq = s.rq ++ [⟨st, d⟩] := rfl
@[simp] theorem State.respond_rom : (s.respond st d).rom = s.rom := rfl
@[simp] theorem State.respond_pending : (s.respond st d).pending = s.pending := rfl
@[simp] theorem State.respond_edges : (s.respond st d).edges = s.edges := rfl
@[simp] theorem State.respond_taken : (s.respond st d).taken = s.taken := rfl
@[simp] theorem State.respond_takenBefore : (s.respond st d).takenBefore = s.takenBefore := rfl
@[simp] theorem State.respond_resets : (s.respond st d).resets = s.resets := rfl

@[simp] theorem State.raiseError_cfg : (s.raiseError e).cfg = s.cfg := rfl
@[simp] theorem State.raiseError_seed : (s.raiseError e).seed = s.seed := rfl
@[simp] theorem State.raiseError_regs : (s.raiseError e).regs = s.regs := rfl
@[simp] theorem State.raiseError_rq : (s.raiseError e).rq = s.rq ++ [⟨errorStatus e, 0#64⟩] := rfl
@[simp] theorem State.raiseError_rom : (s.raiseError e).rom = s.rom := rfl
@[simp] theorem State.raiseError_pending : (s.raiseError e).pending = s.pending := rfl
@[simp] theorem State.raiseError_edges : (s.raiseError e).edges = s.edges := rfl
@[simp] theorem State.raiseError_taken : (s.raiseError e).taken = s.taken := rfl
@[simp] theorem State.raiseError_takenBefore : (s.raiseError e).takenBefore = s.takenBefore := rfl
@[simp] theorem State.raiseError_resets : (s.raiseError e).resets = s.resets := rfl

@[simp] theorem State.configure_cfg : (s.configure w m p d).cfg = ⟨p, m, w, true⟩ := rfl
@[simp] theorem State.configure_seed : (s.configure w m p d).seed = d := rfl
@[simp] theorem State.configure_regs : (s.configure w m p d).regs = RegFile.cleared := rfl
@[simp] theorem State.configure_rq : (s.configure w m p d).rq = s.rq := rfl
@[simp] theorem State.configure_rom : (s.configure w m p d).rom = s.rom := rfl
@[simp] theorem State.configure_pending : (s.configure w m p d).pending = s.pending := rfl
@[simp] theorem State.configure_edges : (s.configure w m p d).edges = s.edges := rfl
@[simp] theorem State.configure_taken : (s.configure w m p d).taken = s.taken := rfl
@[simp] theorem State.configure_takenBefore : (s.configure w m p d).takenBefore = s.takenBefore := rfl
@[simp] theorem State.configure_resets : (s.configure w m p d).resets = s.resets := rfl

@[simp] theorem State.acceptCommand_cfg : (s.acceptCommand x).cfg = s.cfg := rfl
@[simp] theorem State.acceptCommand_seed : (s.acceptCommand x).seed = s.seed := rfl
@[simp] theorem State.acceptCommand_regs : (s.acceptCommand x).regs = s.regs := rfl
@[simp] theorem State.acceptCommand_rq : (s.acceptCommand x).rq = s.rq := rfl
@[simp] theorem State.acceptCommand_rom : (s.acceptCommand x).rom = s.rom := rfl
@[simp] theorem State.acceptCommand_pending : (s.acceptCommand x).pending = s.pending ++ [⟨x.cmdWord, x.cmdData⟩] := rfl
@[simp] theorem State.acceptCommand_edges : (s.acceptCommand x).edges = s.edges := rfl
@[simp] theorem State.acceptCommand_taken : (s.acceptCommand x).taken = s.taken := rfl
@[simp] theorem State.acceptCommand_takenBefore : (s.acceptCommand x).takenBefore = s.takenBefore := rfl
@[simp] theorem State.acceptCommand_resets : (s.acceptCommand x).resets = s.resets := rfl

@[simp] theorem State.resetEdge_cfg : (s.resetEdge).cfg = Cfg.unconfigured := rfl
@[simp] theorem State.resetEdge_seed : (s.resetEdge).seed = 0#64 := rfl
@[simp] theorem State.resetEdge_regs : (s.resetEdge).regs = ⟨.unspecified s.resets, []⟩ := rfl
@[simp] theorem State.resetEdge_rq : (s.resetEdge).rq = [] := rfl
@[simp] theorem State.resetEdge_rom : (s.resetEdge).rom = s.rom := rfl
@[simp] theorem State.resetEdge_pending : (s.resetEdge).pending = [] := rfl
@[simp] theorem State.resetEdge_edges : (s.resetEdge).edges = s.edges := rfl
@[simp] theorem State.resetEdge_taken : (s.resetEdge).taken = [] := rfl
@[simp] theorem State.resetEdge_takenBefore : (s.resetEdge).takenBefore = s.takenBefore ++ s.taken := rfl
@[simp] theorem State.resetEdge_resets : (s.resetEdge).resets = s.resets + 1 := rfl

@[simp] theorem State.drainResponses_cfg : (s.drainResponses).cfg = s.cfg := rfl
@[simp] theorem State.drainResponses_seed : (s.drainResponses).seed = s.seed := rfl
@[simp] theorem State.drainResponses_regs : (s.drainResponses).regs = s.regs := rfl
@[simp] theorem State.drainResponses_rq : (s.drainResponses).rq = [] := rfl
@[simp] theorem State.drainResponses_rom : (s.drainResponses).rom = s.rom := rfl
@[simp] theorem State.drainResponses_pending : (s.drainResponses).pending = s.pending := rfl
@[simp] theorem State.drainResponses_edges : (s.drainResponses).edges = s.edges := rfl
@[simp] theorem State.drainResponses_taken : (s.drainResponses).taken = s.taken ++ s.rq := rfl
@[simp] theorem State.drainResponses_takenBefore : (s.drainResponses).takenBefore = s.takenBefore := rfl
@[simp] theorem State.drainResponses_resets : (s.drainResponses).resets = s.resets := rfl

@[simp] theorem State.takeResponse_cfg : s.takeResponse.cfg = s.cfg := by
  unfold State.takeResponse; split <;> rfl
@[simp] theorem State.takeResponse_seed : s.takeResponse.seed = s.seed := by
  unfold State.takeResponse; split <;> rfl
@[simp] theorem State.takeResponse_regs : s.takeResponse.regs = s.regs := by
  unfold State.takeResponse; split <;> rfl
@[simp] theorem State.takeResponse_rom : s.takeResponse.rom = s.rom := by
  unfold State.takeResponse; split <;> rfl
@[simp] theorem State.takeResponse_pending : s.takeResponse.pending = s.pending := by
  unfold State.takeResponse; split <;> rfl
@[simp] theorem State.takeResponse_edges : s.takeResponse.edges = s.edges := by
  unfold State.takeResponse; split <;> rfl
@[simp] theorem State.takeResponse_takenBefore : s.takeResponse.takenBefore = s.takenBefore := by
  unfold State.takeResponse; split <;> rfl
@[simp] theorem State.takeResponse_resets : s.takeResponse.resets = s.resets := by
  unfold State.takeResponse; split <;> rfl
@[simp] theorem State.takeResponse_rq : s.takeResponse.rq = s.rq.tail := by
  unfold State.takeResponse; split <;> simp_all
/-- No response is lost or repeated by a response transfer. -/
@[simp] theorem State.takeResponse_log : s.takeResponse.taken ++ s.takeResponse.rq = s.taken ++ s.rq := by
  unfold State.takeResponse; split <;> simp_all

@[simp] theorem transfers_cfg : (transfers x s).cfg = s.cfg := by
  unfold transfers; dsimp only; split <;> split <;> simp
@[simp] theorem transfers_seed : (transfers x s).seed = s.seed := by
  unfold transfers; dsimp only; split <;> split <;> simp
@[simp] theorem transfers_regs : (transfers x s).regs = s.regs := by
  unfold transfers; dsimp only; split <;> split <;> simp
@[simp] theorem transfers_rom : (transfers x s).rom = s.rom := by
  unfold transfers; dsimp only; split <;> split <;> simp
@[simp] theorem transfers_edges : (transfers x s).edges = s.edges := by
  unfold transfers; dsimp only; split <;> split <;> simp
@[simp] theorem transfers_takenBefore : (transfers x s).takenBefore = s.takenBefore := by
  unfold transfers; dsimp only; split <;> split <;> simp
@[simp] theorem transfers_resets : (transfers x s).resets = s.resets := by
  unfold transfers; dsimp only; split <;> split <;> simp
@[simp] theorem transfers_pending :
    (transfers x s).pending = s.pending ++ (if s.accepts x then [⟨x.cmdWord, x.cmdData⟩] else []) := by
  unfold transfers; dsimp only; split <;> split <;> simp
/-- The responses taken and waiting, in order, are the same before and after the transfers of an edge. -/
@[simp] theorem transfers_log : (transfers x s).taken ++ (transfers x s).rq = s.taken ++ s.rq := by
  have h := s.takeResponse_log
  unfold transfers; dsimp only; split <;> split <;> simp [-State.takeResponse_rq, h]
theorem transfers_rq : (transfers x s).rq = if s.delivers x then s.rq.tail else s.rq := by
  unfold transfers; dsimp only; split <;> split <;> simp
/-- A transfer never lengthens the response queue. -/
theorem transfers_rq_length : (transfers x s).rq.length ≤ s.rq.length := by
  rw [transfers_rq]; split <;> simp

end Sys2Proof.Machine
end

