-- ==== Sys2Proof/Laws/Exec.lean ====
section
/-! SUPPORT. What executing a command can do, said once: it reads CFG, SEED, REG and the ROM only, writes CFG, SEED
and REG only, appends exactly one response, and never stops. -/

namespace Sys2Proof.Machine

/-- The state with other values of CFG, SEED and REG and one more response. -/
abbrev State.afterEffect (s : State) (c : Cfg) (sd : Data64) (rg : RegFile) (r : Response) : State :=
  { s with cfg := c, seed := sd, regs := rg, rq := s.rq ++ [r] }

/-- A response alone, on any state that agrees with `s` on CFG, SEED and REG. -/
theorem respond_local {s s' : State} (st : Status) (d : Data64) (h1 : s'.cfg = s.cfg) (h2 : s'.seed = s.seed)
    (h3 : s'.regs = s.regs) : s'.respond st d = s'.afterEffect s.cfg s.seed s.regs ⟨st, d⟩ := by
  simp only [State.respond, State.afterEffect, ← h1, ← h2, ← h3]

/-- An error response alone, on any state that agrees with `s` on CFG, SEED and REG. -/
theorem raiseError_local {s s' : State} (e : ErrorCode) (h1 : s'.cfg = s.cfg) (h2 : s'.seed = s.seed)
    (h3 : s'.regs = s.regs) :
    s'.raiseError e = s'.afterEffect s.cfg s.seed s.regs ⟨errorStatus e, 0#64⟩ :=
  respond_local _ _ h1 h2 h3

/-- One command's effect is a function of CFG, SEED, REG and the ROM: in every state that agrees on these, it
writes the same values and appends the same response, and leaves the rest alone. -/
theorem exec_local (i : Instr) (s : State) : ∃ c sd rg r, ∀ s' : State,
    s'.cfg = s.cfg → s'.seed = s.seed → s'.regs = s.regs → s'.rom = s.rom →
    exec i s' = .next (s'.afterEffect c sd rg r) := by
  cases i with
  | nop => exact ⟨_, _, _, _, fun s' h1 h2 h3 _ => congrArg Host.Outcome.next (respond_local _ _ h1 h2 h3)⟩
  | config w64 mode p seed =>
    by_cases hc : s.cfg.configured = true
    · refine ⟨s.cfg, s.seed, s.regs, ⟨errorStatus .alreadyConfigured, 0#64⟩, fun s' h1 h2 h3 _ => ?_⟩
      simp only [exec, execConfig, h1, hc, if_true]
      exact congrArg Host.Outcome.next (raiseError_local _ h1 h2 h3)
    · by_cases hp : (indexBitsOutOfRange p || modeNeedsWideHash mode w64) = true
      · refine ⟨s.cfg, s.seed, s.regs, ⟨errorStatus .badConfig, 0#64⟩, fun s' h1 h2 h3 _ => ?_⟩
        have : exec (.config w64 mode p seed) s' = .next (s'.raiseError .badConfig) := by
          simp only [exec, execConfig, h1, hc]
          rcases Bool.or_eq_true_iff.1 hp with h | h <;> simp [h]
        rw [this]
        exact congrArg Host.Outcome.next (raiseError_local _ h1 h2 h3)
      · simp only [Bool.or_eq_true, not_or, Bool.not_eq_true] at hp hc
        refine ⟨⟨p, mode, w64, true⟩, seed, RegFile.cleared, ⟨okStatus, 0#64⟩, fun s' h1 _ _ _ => ?_⟩
        simp only [exec, execConfig, h1, hc, hp.1, hp.2]
        rfl
  | add data =>
    by_cases hc : s.cfg.configured = true
    · refine ⟨s.cfg, s.seed, s.regs.write (hashIndex s.cfg (hashWord s.cfg data)) (BitVec.ofNat 7 (max
        (s.regs.read (hashIndex s.cfg (hashWord s.cfg data))).toNat (hashRho s.cfg (hashWord s.cfg data)))),
        ⟨okStatus, addResponseData (hashIndex s.cfg (hashWord s.cfg data))
          (decide ((s.regs.read (hashIndex s.cfg (hashWord s.cfg data))).toNat < hashRho s.cfg (hashWord s.cfg data)))
          (hashRho s.cfg (hashWord s.cfg data))⟩, fun s' h1 h2 h3 _ => ?_⟩
      simp [exec, execAdd, State.respond, State.afterEffect, h1, h2, h3, hc]
    · refine ⟨s.cfg, s.seed, s.regs, ⟨errorStatus .notConfigured, 0#64⟩, fun s' h1 h2 h3 _ => ?_⟩
      simp only [exec, execAdd, h1, hc]
      exact congrArg Host.Outcome.next (raiseError_local _ h1 h2 h3)
  | est =>
    by_cases hc : s.cfg.configured = true
    · refine ⟨s.cfg, s.seed, s.regs, ⟨flagStatus (estimate Config.ln s.rom s.cfg s.regs).flags,
        (estimate Config.ln s.rom s.cfg s.regs).value⟩, fun s' h1 h2 h3 h4 => ?_⟩
      simp only [exec, execEst, h1, h3, h4, hc]
      exact congrArg Host.Outcome.next (respond_local _ _ h1 h2 h3)
    · refine ⟨s.cfg, s.seed, s.regs, ⟨errorStatus .notConfigured, 0#64⟩, fun s' h1 h2 h3 _ => ?_⟩
      simp only [exec, execEst, h1, hc]
      exact congrArg Host.Outcome.next (raiseError_local _ h1 h2 h3)
  | rdreg index =>
    by_cases hc : s.cfg.configured = true
    · by_cases hi : s.cfg.m ≤ index.toNat
      · refine ⟨s.cfg, s.seed, s.regs, ⟨errorStatus .indexRange, 0#64⟩, fun s' h1 h2 h3 _ => ?_⟩
        simp only [exec, execRdreg, h1, hc, hi, Bool.not_true, Bool.false_eq_true, if_false, if_true]
        exact congrArg Host.Outcome.next (raiseError_local _ h1 h2 h3)
      · refine ⟨s.cfg, s.seed, s.regs, ⟨okStatus, (s.regs.read index.toNat).zeroExtend 64⟩, fun s' h1 h2 h3 _ => ?_⟩
        simp only [exec, execRdreg, h1, h3, hc, hi, Bool.not_true, Bool.false_eq_true, if_false]
        exact congrArg Host.Outcome.next (respond_local _ _ h1 h2 h3)
    · refine ⟨s.cfg, s.seed, s.regs, ⟨errorStatus .notConfigured, 0#64⟩, fun s' h1 h2 h3 _ => ?_⟩
      simp only [exec, execRdreg, h1, hc]
      exact congrArg Host.Outcome.next (raiseError_local _ h1 h2 h3)
  | rdstat =>
    refine ⟨s.cfg, s.seed, s.regs, ⟨okStatus, s.cfg.image.zeroExtend 64⟩, fun s' h1 h2 h3 _ => ?_⟩
    simp only [exec, execRdstat, h1]
    exact congrArg Host.Outcome.next (respond_local _ _ h1 h2 h3)
  | rdseed =>
    by_cases hc : s.cfg.configured = true
    · refine ⟨s.cfg, s.seed, s.regs, ⟨okStatus, s.seed⟩, fun s' h1 h2 h3 _ => ?_⟩
      simp only [exec, execRdseed, h1, h2, hc]
      exact congrArg Host.Outcome.next (respond_local _ _ h1 h2 h3)
    · refine ⟨s.cfg, s.seed, s.regs, ⟨errorStatus .notConfigured, 0#64⟩, fun s' h1 h2 h3 _ => ?_⟩
      simp only [exec, execRdseed, h1, hc]
      exact congrArg Host.Outcome.next (raiseError_local _ h1 h2 h3)
  | release =>
    refine ⟨Cfg.unconfigured, 0#64, s.regs, ⟨okStatus, 0#64⟩, fun s' _ _ h3 _ => ?_⟩
    simp [exec, execRelease, State.respond, State.afterEffect, h3]
  | illegal op rest => exact ⟨_, _, _, _, fun s' h1 h2 h3 _ => congrArg Host.Outcome.next (raiseError_local _ h1 h2 h3)⟩

/-- The same of an accepted command, decoded or refused by the decoder. -/
theorem runCommand_local (cmd : Command) (s : State) : ∃ c sd rg r, ∀ s' : State,
    s'.cfg = s.cfg → s'.seed = s.seed → s'.regs = s.regs → s'.rom = s.rom →
    runCommand cmd s' = .next (s'.afterEffect c sd rg r) := by
  unfold runCommand
  cases decodeCommand cmd with
  | ok i => exact exec_local i s
  | error e =>
    exact ⟨_, _, _, _, fun s' h1 h2 h3 _ => congrArg Host.Outcome.next (raiseError_local _ h1 h2 h3)⟩

/-- Executing a command always gives a next state, with one more response. -/
theorem exec_next (i : Instr) (s : State) : ∃ c sd rg r, exec i s = .next (s.afterEffect c sd rg r) := by
  obtain ⟨c, sd, rg, r, h⟩ := exec_local i s
  exact ⟨c, sd, rg, r, h s rfl rfl rfl rfl⟩

/-- The same of an accepted command. -/
theorem runCommand_next (cmd : Command) (s : State) :
    ∃ c sd rg r, runCommand cmd s = .next (s.afterEffect c sd rg r) := by
  obtain ⟨c, sd, rg, r, h⟩ := runCommand_local cmd s
  exact ⟨c, sd, rg, r, h s rfl rfl rfl rfl⟩

/-- Everything one clock edge can do: reset; or the two transfers alone; or the transfers and then the oldest
command, run on the state they left. -/
theorem clockEdge_cases {e : Edge} {s t : State} (h : clockEdge e s = .next t) :
    (e.rst = true ∧ t = s.resetEdge) ∨
    (e.rst = false ∧ t = transfers e s) ∨
    (e.rst = false ∧ e.executes = true ∧ ∃ c rest, (transfers e s).pending = c :: rest ∧
      rqFull (transfers e s).rq = false ∧ runCommand c { transfers e s with pending := rest } = .next t) := by
  unfold clockEdge at h
  split at h
  · cases h; exact .inl ⟨‹_›, rfl⟩
  · rename_i hr
    have hr : e.rst = false := by simpa using hr
    split at h
    · rename_i hx
      unfold executeOldest at h
      split at h
      · cases h; exact .inr (.inl ⟨hr, rfl⟩)
      · rename_i c rest hp
        split at h
        · cases h; exact .inr (.inl ⟨hr, rfl⟩)
        · rename_i hf
          exact .inr (.inr ⟨hr, hx, c, rest, hp, by simpa using hf, h⟩)
    · cases h; exact .inr (.inl ⟨hr, rfl⟩)

/-- Everything one step can do: stay idle while the host drives no edge, or take the host's next edge. -/
theorem step_cases {s t : State} (h : step s = .next t) :
    (s.edges = [] ∧ t = s) ∨
    ∃ e rest, s.edges = e :: rest ∧ clockEdge e { s with edges := rest } = .next t := by
  unfold step at h
  split at h
  · cases h; exact .inl ⟨‹_›, rfl⟩
  · exact .inr ⟨_, _, ‹_›, h⟩

end Sys2Proof.Machine
end

