-- ==== Sys2Proof/Laws/Operands.lean ====
section
/-! SUPPORT. The laws of the update pipeline: the partition, the leading-zero count, rho and ADD's response data. -/

namespace Sys2Proof.Machine

theorem clz_zero (n : Nat) : clz n 0 = n := by
  induction n with
  | zero => rfl
  | succ n ih => simp [clz, ih]

/-- The leading zeros, the most significant one and the bits below it make up the n bits (00_scope.md R12). -/
theorem clz_add_log2 (n : Nat) {v : Nat} (h0 : v ≠ 0) (h : v < 2 ^ n) : clz n v + (Nat.log2 v + 1) = n := by
  induction n with
  | zero => omega
  | succ n ih =>
    have hl : Nat.log2 v < n + 1 := (Nat.log2_lt h0).2 h
    by_cases hv : v < 2 ^ n
    · have hb : v.testBit n = false := Nat.testBit_lt_two_pow hv
      simp only [clz, hb, Bool.false_eq_true, if_false]
      have := ih hv
      omega
    · have hb : v.testBit n = true := by
        rw [Nat.testBit_eq_decide_div_mod_eq, decide_eq_true_eq,
          Nat.div_eq_of_lt_le (k := 1) (by omega) (by rw [pow_succ] at h; omega)]
      simp only [clz, hb, if_true]
      have : n ≤ Nat.log2 v := (Nat.le_log2 h0).2 (by omega)
      omega

/-- Rho of a remainder that is not 0: the position of its first one bit from the left (41_update.md R124, R125 (c)). -/
theorem rho_of_ne_zero {rem n : Nat} (h0 : rem ≠ 0) (h : rem < 2 ^ n) : rho rem n = n - Nat.log2 rem := by
  have hc := clz_add_log2 n h0 h
  have hn : n ≠ 0 := by omega
  unfold rho
  rw [if_neg hn, if_neg h0, min_eq_left (by omega)]
  omega

/-- Rho of the remainder 0 (41_update.md R125 (b)). -/
theorem rho_zero {n : Nat} : rho 0 n = n + 1 := by
  unfold rho
  split
  · omega
  · rfl

/-- The range of rho (41_update.md R125 (a)). -/
theorem rho_range (rem n : Nat) : 1 ≤ rho rem n ∧ rho rem n ≤ n + 1 := by
  unfold rho
  split
  · omega
  · split
    · omega
    · exact ⟨le_min (by omega) (by omega), min_le_right _ _⟩

/-- The index is below m (41_update.md R122). -/
theorem hashIndex_lt (c : Cfg) (h : Nat) : hashIndex c h < c.m := Nat.mod_lt _ (Nat.two_pow_pos _)

/-- The remainder fits its field (41_update.md R122). -/
theorem hashRem_lt (c : Cfg) {h : Nat} (hc : c.p.toNat ≤ c.width) (hh : h < 2 ^ c.width) :
    hashRem c h < 2 ^ c.remWidth := by
  unfold hashRem Cfg.remWidth
  rw [Nat.shiftRight_eq_div_pow, Nat.div_lt_iff_lt_mul (Nat.two_pow_pos _), ← pow_add, Nat.sub_add_cancel hc]
  exact hh

/-- Under a legal configuration m and the remainder's width are as 00_scope.md R9 and R10 say. -/
theorem legal_widths {c : Cfg} (h : c.legal = true) :
    c.m ≤ nreg ∧ 16 ≤ c.remWidth ∧ c.remWidth ≤ 60 ∧ c.p.toNat ≤ c.width := by
  simp only [Cfg.legal, Bool.and_eq_true, decide_eq_true_eq] at h
  have hp : 2 ^ c.p.toNat ≤ 2 ^ 16 := Nat.pow_le_pow_right (by norm_num) h.1.2
  have hw : c.width = 32 ∨ c.width = 64 := by unfold Cfg.width; split <;> simp
  unfold Cfg.m nreg Cfg.remWidth
  omega

/-- Under a legal configuration every rho is 1 to 61, so it fits a slot (41_update.md R125). -/
theorem hashRho_range {c : Cfg} (hc : c.legal = true) (h : Nat) :
    1 ≤ hashRho c h ∧ hashRho c h ≤ c.remWidth + 1 ∧ hashRho c h ≤ 61 := by
  have := rho_range (hashRem c h) c.remWidth
  have := legal_widths hc
  unfold hashRho
  omega

/-- The fields of ADD's response data as a number (30_encoding.md R90). -/
theorem addResponseData_toNat {i r : Nat} (upd : Bool) (hi : i < 2 ^ 16) (hr : r < 2 ^ 7) :
    (addResponseData i upd r).toNat = i * 2 ^ 16 + upd.toNat * 2 ^ 7 + r := by
  unfold addResponseData
  rw [BitVec.toNat_setWidth, Nat.mod_eq_of_lt (lt_of_lt_of_le (BitVec.isLt _) (by norm_num))]
  simp only [BitVec.toNat_append, BitVec.toNat_ofNat, BitVec.toNat_ofBool]
  rw [Nat.mod_eq_of_lt hi, Nat.mod_eq_of_lt hr]
  rw [← Nat.shiftLeft_add_eq_or_of_lt hr, ← Nat.shiftLeft_add_eq_or_of_lt (by cases upd <;> norm_num),
    Nat.zero_mod, Nat.or_zero]
  simp only [Nat.shiftLeft_eq]
  omega

end Sys2Proof.Machine
end

