-- ==== Sys2Proof/Laws/PerInstr.lean ====
section
/-! SUPPORT. Statements about every command, one lemma per constructor. -/

namespace Sys2Proof.Laws

/-- The command word that stands for a command matches the row of the opcode map that has its name
(spec 30_encoding.md R91). -/
def WordHitsItsRow.Statement (i : Instr) : Prop :=
  i.wellFormed = true → ∃ r ∈ opcodeMap, r.mnemonic = i.mnemonic ∧ r.hits (encode i).word = true

theorem WordHitsItsRow.nop : WordHitsItsRow.Statement .nop :=
  fun _ => ⟨⟨"NOP", 0x00000000#32, 0xFFFFFFFF#32⟩, by simp [opcodeMap], rfl, rfl⟩

theorem WordHitsItsRow.config (w64 : Bool) (mode : Mode) (p : BitVec 5) (seed : Data64) :
    WordHitsItsRow.Statement (.config w64 mode p seed) := by
  refine fun _ => ⟨⟨"CONFIG", 0x00000001#32, 0xFFFF80FF#32⟩, by simp [opcodeMap], rfl, ?_⟩
  have h : ∀ (w m : Bool) (p : BitVec 5),
      ((0#17 ++ BitVec.ofBool w ++ BitVec.ofBool m ++ p ++ 0#4 : BitVec 28) ++ 0x1#4 : BitVec 32) &&& 0xFFFF80FF#32
        = 0x00000001#32 := by decide +kernel
  exact beq_iff_eq.2 (h w64 mode.bit p)

theorem WordHitsItsRow.add (data : Data64) : WordHitsItsRow.Statement (.add data) :=
  fun _ => ⟨⟨"ADD", 0x00000002#32, 0xFFFFFFFF#32⟩, by simp [opcodeMap], rfl, by
    show OpcodeRow.hits _ (encode (.add 0#64)).word = true
    decide⟩

theorem WordHitsItsRow.est : WordHitsItsRow.Statement .est :=
  fun _ => ⟨⟨"EST", 0x00000003#32, 0xFFFFFFFF#32⟩, by simp [opcodeMap], rfl, rfl⟩

theorem WordHitsItsRow.rdreg (index : BitVec 16) : WordHitsItsRow.Statement (.rdreg index) := by
  refine fun _ => ⟨⟨"RDREG", 0x00000004#32, 0x0000FFFF#32⟩, by simp [opcodeMap], rfl, ?_⟩
  refine beq_iff_eq.2 (BitVec.eq_of_getLsbD_eq fun j hj => ?_)
  show BitVec.getLsbD (((index ++ 0#12 : BitVec 28) ++ 0x4#4 : BitVec 32) &&& 0x0000FFFF#32) j = _
  rw [BitVec.getLsbD_and, getLsbD_word, getLsbD_indexBits]
  have hm : ∀ k : Fin 32, (0x0000FFFF#32).getLsbD k.val = decide (k.val < 16) ∧
      (0x00000004#32).getLsbD k.val = (decide (k.val < 4) && (0x4#4).getLsbD k.val) := by decide
  obtain ⟨h1, h2⟩ := hm ⟨j, hj⟩
  simp only at h1 h2
  rw [h1, h2]
  by_cases h4 : j < 4
  · have : j < 16 := by omega
    simp [h4, this]
  · by_cases h16 : j < 16
    · have : j - 4 < 12 := by omega
      simp [h4, this]
    · simp [h4, h16]

theorem WordHitsItsRow.rdstat : WordHitsItsRow.Statement .rdstat :=
  fun _ => ⟨⟨"RDSTAT", 0x00000005#32, 0xFFFFFFFF#32⟩, by simp [opcodeMap], rfl, rfl⟩

theorem WordHitsItsRow.rdseed : WordHitsItsRow.Statement .rdseed :=
  fun _ => ⟨⟨"RDSEED", 0x00000006#32, 0xFFFFFFFF#32⟩, by simp [opcodeMap], rfl, rfl⟩

theorem WordHitsItsRow.release : WordHitsItsRow.Statement .release :=
  fun _ => ⟨⟨"RELEASE", 0x00000007#32, 0xFFFFFFFF#32⟩, by simp [opcodeMap], rfl, rfl⟩

theorem WordHitsItsRow.illegal (op : BitVec 4) (rest : BitVec 28) : WordHitsItsRow.Statement (.illegal op rest) := by
  refine fun hw => ⟨⟨"ILLEGAL", 0x00000008#32, 0x00000008#32⟩, by simp [opcodeMap], rfl, ?_⟩
  refine beq_iff_eq.2 (BitVec.eq_of_getLsbD_eq fun j hj => ?_)
  show BitVec.getLsbD ((rest ++ op : BitVec 32) &&& 0x00000008#32) j = _
  rw [BitVec.getLsbD_and, getLsbD_word]
  have hm : ∀ k : Fin 32, (0x00000008#32).getLsbD k.val = decide (k.val = 3) := by decide
  have h1 := hm ⟨j, hj⟩
  simp only at h1
  rw [h1]
  by_cases h3 : j = 3
  · subst h3
    have hw : op.getLsbD 3 = true := hw
    simp [hw]
  · simp [h3]

end Sys2Proof.Laws
end

