-- ==== Sys2Proof/Tests/Slice0.lean ====
section
/-! SUPPORT. Small tests against the spec's own vectors (95_test_vectors.md), and for every obligation with
hypotheses a concrete state and operands that meet them. -/

namespace Sys2Proof.Tests

open Sys2Proof Sys2Proof.Machine

/-! ### Small states -/

/-- A fresh sketch: the state a CONFIG leaves after reset, with the sample ROM. -/
def fresh (p : BitVec 5) (mode : Mode) (w64 : Bool) (seed : Data64) : State :=
  { State.reset with cfg := ⟨p, mode, w64, true⟩, seed := seed, regs := RegFile.cleared, rom := BiasRom.sample }

/-- An unconfigured block whose slots an earlier sketch left at 0. -/
def released : State := { State.reset with regs := RegFile.cleared }

/-- Registers with the given values from slot 0 on, the other slots 0. -/
def regsOf (vs : List RegVal) : RegFile :=
  ⟨.zero, (vs.zipIdx.map fun e => (e.2, e.1)).filter fun e => decide (e.2 ≠ 0#7)⟩

/-- Sixteen registers that hold `v`. -/
def all16 (v : RegVal) : RegFile := regsOf (List.replicate 16 v)

/-- The response an outcome appended last. -/
def answer (o : Host.Outcome State Fault Refusal) : Option Response :=
  match o with
  | .next t => t.rq.getLast?
  | .fault _ => none
  | .refused _ => none

/-- The answer of a command word in a state. -/
def answerTo (w : CmdWord) (d : Data64) (s : State) : Option Response := answer (runCommand ⟨w, d⟩ s)

/-- `n · 2^e` for `0 < n < 2^53`, and +0.0 for `n = 0`, straight from the layout of 00_scope.md R13. -/
def scaled (n : Nat) (e : Int) : F64 :=
  if n = 0 then 0#64
  else BitVec.ofNat 64 ((1022 + e + n.log2).toNat * 2 ^ 52 + n * 2 ^ (52 - n.log2))

/-- Table A of 95_test_vectors.md section 0. -/
def tableA : BiasRom :=
  ⟨(List.range 200).map fun i => ⟨scaled (10 * (i + 1)) 0, scaled i (-1)⟩, by decide +kernel⟩

theorem biasIncreasing_flat (b : F64) (l : List BiasEntry) :
    biasIncreasing (l.map fun e => { e with val := b }) = biasIncreasing l := by
  induction l with
  | nil => rfl
  | cons x l ih =>
    cases l with
    | nil => rfl
    | cons y l => simpa [biasIncreasing] using congrArg (F64.lt x.raw y.raw && ·) ih

/-- The sample ROM's raw estimates with one bias everywhere. -/
def flat (b : F64) (h : biasEntryOk ⟨F64.one, b⟩ = true) : BiasRom where
  entries := BiasRom.sample.entries.map fun e => { e with val := b }
  ok := by
    have h0 := BiasRom.sample.ok
    simp only [biasRomOk, Bool.and_eq_true, decide_eq_true_eq, List.all_eq_true] at h0 ⊢
    refine ⟨⟨by rw [List.length_map]; exact h0.1.1, fun e he => ?_⟩, by rw [biasIncreasing_flat]; exact h0.2⟩
    obtain ⟨x, hx, rfl⟩ := List.mem_map.1 he
    have := h0.1.2 x hx
    simp only [biasEntryOk, Bool.and_eq_true] at this h ⊢
    exact ⟨⟨this.1.1, h.1.2⟩, h.2⟩

/-- Every bias is 100.0, as in table C. -/
def tableC : BiasRom := flat (scaled 100 0) (by decide +kernel)

/-- Every bias is −10^18, as in table D (10^18 = 5^18 · 2^18). -/
def tableD : BiasRom := flat (scaled (5 ^ 18) 18).neg (by decide +kernel)

/-- Every bias is −10^20, as in table E (10^20 = 5^20 · 2^20). -/
def tableE : BiasRom := flat (scaled (5 ^ 20) 20).neg (by decide +kernel)

/-! ### Well-formedness: the ill-formed term of the one check (30_encoding.md R91) -/

theorem test_illegal_with_legal_opcode_refused : (Instr.illegal 0x7#4 0#28).wellFormed = false := by decide

/-! ### Decoding: words written out from 30_encoding.md R85 and 95_test_vectors.md -/

theorem test_decode_nop : decode 0b00000000000000000000000000000000#32 0#64 = .ok .nop := by decide

/-- 95_test_vectors.md C-19 and Program 2: P = 12, MODE = 1, W64 = 1. -/
theorem test_decode_config : decode 0b00000000000000000110110000000001#32 0x5EED#64 =
    .ok (.config true .biasCorrected 12#5 0x5EED#64) := by decide

/-- C-7: W64 = 1 and MODE = 0, which swapped bits would confuse with C-6. -/
theorem test_decode_config_w64 : decode 0b00000000000000000100010000000001#32 7#64 =
    .ok (.config true .baseline 4#5 7#64) := by decide

theorem test_decode_add : decode 0b00000000000000000000000000000010#32 0x13#64 = .ok (.add 0x13#64) := by decide

theorem test_decode_est : decode 0b00000000000000000000000000000011#32 0#64 = .ok .est := by decide

/-- R-2: `rdreg 15`. -/
theorem test_decode_rdreg : decode 0b00000000000011110000000000000100#32 0#64 = .ok (.rdreg 15#16) := by decide

theorem test_decode_rdstat : decode 0b00000000000000000000000000000101#32 0#64 = .ok .rdstat := by decide

theorem test_decode_rdseed : decode 0b00000000000000000000000000000110#32 0#64 = .ok .rdseed := by decide

theorem test_decode_release : decode 0b00000000000000000000000000000111#32 0#64 = .ok .release := by decide

/-- D-6: opcode 15 with every bit set. -/
theorem test_decode_illegal : decode 0b11111111111111111111111111111111#32 0#64 =
    .ok (.illegal 0xF#4 0xFFFFFFF#28) := by decide

/-- C-11, C-12, C-13, D-16: one reserved bit of each kind. -/
theorem test_decode_reserved :
    decode 0x00008401#32 7#64 = .error .reservedField ∧ decode 0x00010401#32 7#64 = .error .reservedField ∧
    decode 0x000004C1#32 7#64 = .error .reservedField ∧ decode 0x00008004#32 0#64 = .error .reservedField := by
  decide

/-- The seed of a CONFIG stands above the command word in the numbering of spec/opcode_table.json. -/
theorem test_decodeTableWord :
    decodeTableWord 96 (0x2A * 2 ^ 32 + 0x00000401) = some (.config false .baseline 4#5 0x2A#64) ∧
    decodeTableWord 32 0x00000010 = none := by decide

/-! ### The commands: 95_test_vectors.md sections 2.1 to 2.3 -/

/-- D-1, D-2. -/
theorem test_nop : answerTo 0x00000000#32 9#64 State.reset = some ⟨0x00#8, 0#64⟩ ∧
    answerTo 0x00000010#32 0#64 State.reset = some ⟨0x82#8, 0#64⟩ := by decide

/-- C-1, C-2, C-8, C-3, C-4, C-6. -/
theorem test_config_checks :
    answerTo 0x00000401#32 7#64 State.reset = some ⟨0x00#8, 0#64⟩ ∧
    answerTo 0x00001001#32 7#64 State.reset = some ⟨0x00#8, 0#64⟩ ∧
    answerTo 0x00006401#32 7#64 State.reset = some ⟨0x00#8, 0#64⟩ ∧
    answerTo 0x00000301#32 7#64 State.reset = some ⟨0x85#8, 0#64⟩ ∧
    answerTo 0x00001101#32 7#64 State.reset = some ⟨0x85#8, 0#64⟩ ∧
    answerTo 0x00002401#32 7#64 State.reset = some ⟨0x85#8, 0#64⟩ := by decide

/-- C-16: a second CONFIG is refused. C-19: what the first one wrote. -/
theorem test_config_then_rdstat :
    answerTo 0x00000501#32 9#64 (atomically [⟨0x00000401#32, 7#64⟩] State.reset) = some ⟨0x84#8, 0#64⟩ ∧
    answerTo 0x00000005#32 0#64 (atomically [⟨0x00006C01#32, 7#64⟩] State.reset) = some ⟨0x00#8, 0xEC#64⟩ := by
  decide

/-- U-17, U-20: index from the low bits, rho from the high ones. -/
theorem test_add_partition :
    answer (execAdd 0x1234ABCD#64 (fresh 12#5 .baseline false 0#64)) = some ⟨0x00#8, 0xBCD0084#64⟩ ∧
    answer (execAdd 0x0123456789ABCDEF#64 (fresh 10#5 .baseline true 0#64)) = some ⟨0x00#8, 0x1EF0088#64⟩ := by
  decide

/-- Program 1, rows 2, 3 and 5, then U-25: the maximum, UPD, the ignored high half, and the register read back. -/
theorem test_add_keeps_maximum :
    (atomically [⟨0x2#32, 0x13#64⟩, ⟨0x2#32, 0x80000003#64⟩, ⟨0x2#32, 0xDEADBEEF00000013#64⟩,
      ⟨0x2#32, 0x3#64⟩, ⟨0x00030004#32, 0#64⟩] (fresh 4#5 .baseline false 0x2A#64)).rq =
    [⟨0x00#8, 0x3009C#64⟩, ⟨0x00#8, 0x30001#64⟩, ⟨0x00#8, 0x3001C#64⟩, ⟨0x00#8, 0x3009D#64⟩,
      ⟨0x00#8, 29#64⟩] := by decide

/-- R-2, R-3. -/
theorem test_rdreg_range :
    answerTo 0x000F0004#32 0#64 (fresh 4#5 .baseline false 0#64) = some ⟨0x00#8, 0#64⟩ ∧
    answerTo 0x00100004#32 0#64 (fresh 4#5 .baseline false 0#64) = some ⟨0x86#8, 0#64⟩ ∧
    answerTo 0xFFFF0004#32 0#64 (fresh 16#5 .baseline false 0#64) = some ⟨0x00#8, 0#64⟩ ∧
    answerTo 0xFFFF0004#32 0#64 State.reset = some ⟨0x83#8, 0#64⟩ := by decide

/-- D-10, and C-19's (16, 0, 1). -/
theorem test_rdstat : answerTo 0x00000005#32 0#64 State.reset = some ⟨0x00#8, 0#64⟩ ∧
    answerTo 0x00000005#32 0#64 (fresh 16#5 .baseline true 0xFFFF#64) = some ⟨0x00#8, 0xD0#64⟩ := by decide

/-- C-15, C-17. -/
theorem test_rdseed : answerTo 0x00000006#32 0#64 (fresh 4#5 .baseline false 7#64) = some ⟨0x00#8, 7#64⟩ ∧
    answerTo 0x00000006#32 0#64 State.reset = some ⟨0x83#8, 0#64⟩ := by decide

/-- C-17, C-20. -/
theorem test_release :
    let t := atomically [⟨0x00000007#32, 0#64⟩] (fresh 4#5 .baseline false 7#64)
    t.rq = [⟨0x00#8, 0#64⟩] ∧ t.cfg = Cfg.unconfigured ∧ t.seedO = 0#64 ∧ t.cfgO = false := by decide

/-- D-4, D-6, D-8: ILLEGAL before RESERVED before NOT_CONFIGURED. -/
theorem test_error_priority :
    answerTo 0x00000008#32 0#64 State.reset = some ⟨0x81#8, 0#64⟩ ∧
    answerTo 0xFFFFFFFF#32 0#64 (fresh 4#5 .baseline false 0#64) = some ⟨0x81#8, 0#64⟩ ∧
    answerTo 0x00000012#32 0#64 State.reset = some ⟨0x82#8, 0#64⟩ := by decide

/-- D-9 unconfigured. -/
theorem test_est_needs_sketch : answerTo 0x00000003#32 0#64 State.reset = some ⟨0x83#8, 0#64⟩ := by decide

/-! ### Rho at its ends: 95_test_vectors.md S3, U-9, U-16 -/

theorem test_rho_ends : rho 0 28 = 29 ∧ rho 1 60 = 60 ∧ rho 0x8000 16 = 1 ∧ rho 0 0 = 1 := by decide

/-! ### The estimator: 95_test_vectors.md sections 1 and 2.4, the vectors that do not rest on LN -/

/-- S2 and the table of 10_state.md R36. -/
theorem test_alpha : alpha64 4 = 0x3FE589374BC6A7F0#64 ∧ alpha64 7 = 0x3FE6E37EF20B947A#64 ∧
    alpha64 12 = 0x3FE713555C9EFABF#64 ∧ alpha64 16 = 0x3FE714CAD53D1AD7#64 := by decide +kernel

/-- S4: both ends of the window and its two middle edges. -/
theorem test_window : [0, 3, 4, 100, 197, 200].map (fun i => (windowLeft i, windowRight i)) =
    [(0, 6), (0, 6), (1, 7), (97, 103), (194, 200), (194, 200)] := by decide

/-- The configuration P = 4, W64 = 1 in either mode. -/
def cfg4 (mode : Mode) : Cfg := ⟨4#5, mode, true, true⟩

/-- The estimate of sixteen registers, with the sample LN unit. -/
def est4 (mode : Mode) (rom : BiasRom) (regs : RegFile) : F64 × RegimeFlags :=
  let e := estimate LnUnit.sample.ln rom (cfg4 mode) regs
  (e.value, e.flags)

/-- S1, E5: an empty sketch, and a full one in the small range. -/
theorem test_est_small : est4 .biasCorrected tableA RegFile.cleared = (0#64, ⟨true, false, false, false⟩) ∧
    est4 .biasCorrected tableA (all16 1#7) = (0x403589374BC6A7F0#64, ⟨false, false, false, false⟩) := by
  decide +kernel

/-- E8, E15, E7: the mid range, its clamp, and MODE 0. -/
theorem test_est_mid :
    est4 .biasCorrected tableA (all16 2#7) = (0x4044A9374BC6A7F0#64, ⟨false, true, false, false⟩) ∧
    est4 .biasCorrected tableC (all16 2#7) = (0#64, ⟨false, true, false, true⟩) ∧
    est4 .baseline tableA (all16 2#7) = (0x404589374BC6A7F0#64, ⟨false, false, false, false⟩) := by
  decide +kernel

/-- E9, E13, E17, E18: above 5m, the domain clamp with and without MR, and MODE 0. -/
theorem test_est_large :
    est4 .biasCorrected tableA (all16 3#7) = (0x405589374BC6A7F0#64, ⟨false, false, false, false⟩) ∧
    est4 .biasCorrected tableA (all16 61#7) = (0x7FF0000000000000#64, ⟨false, false, true, true⟩) ∧
    est4 .biasCorrected tableE (all16 2#7) = (0x7FF0000000000000#64, ⟨false, true, true, true⟩) ∧
    est4 .baseline tableA (all16 61#7) = (0x43F589374BC6A7F0#64, ⟨false, false, false, false⟩) := by
  decide +kernel

/-- E16: the mid-range result above TLR, before the correction; and S5: TLR is strict, and d for the least e above
it. -/
theorem test_tlr : F64.lt tlr tlr = false ∧ F64.lt tlr 0x43A1111111111112#64 = true ∧
    F64.sub F64.one (F64.div 0x43A1111111111112#64 two64) = 0x3FEEEEEEEEEEEEEF#64 ∧
    (est4 .biasCorrected tableD (all16 2#7)).2 = ⟨false, true, true, false⟩ := by decide +kernel

/-! ### Assembly: 95_test_vectors.md Programs 1 and 3 -/

theorem test_assemble :
    assemble false 0#64 (.config 4 .baseline false 0x2A) = some [⟨0x00000401#32, 0x2A#64⟩] ∧
    assemble false 0#64 (.rdreg 65535) = some [⟨0xFFFF0004#32, 0#64⟩] ∧
    assemble false 0#64 (.illegal 9) = some [⟨0x00000009#32, 0#64⟩] := by decide

theorem test_readLine :
    readLine "config p=4, mode=ultra, w=64, seed=0x5EED".toList = some (.config 4 .biasCorrected true 0x5EED) ∧
    readLine "add 0x80000003".toList = some (.add 0x80000003) ∧ readLine "est".toList = some .est := by
  decide +kernel

/-! ### The step -/

/-- The word put on the port is the command the next step runs. -/
theorem test_withFetchWord : answer (step (State.reset.withFetchWord 32 0x00000005)) = some ⟨0x00#8, 0#64⟩ := by
  decide

/-- Program 5's start (R190, R199): a reset edge while a command is in execution answers nothing and ends the sketch;
the response taken before it stands and is no part of the run that starts. -/
theorem test_reset_edge :
    let t := advance { fresh 4#5 .biasCorrected true 5#64 with
      taken := [⟨0x0C#8, 0x7FF0000000000000#64⟩], pending := [⟨0x00000005#32, 0#64⟩],
      edges := [⟨true, true, 5#32, 0#64, true, true, true⟩] }
    t.cfg = Cfg.unconfigured ∧ t.seedO = 0#64 ∧ t.rq = [] ∧ t.pending = [] ∧
    t.takenBefore = [⟨0x0C#8, 0x7FF0000000000000#64⟩] ∧ t.observation = ⟨[], 0#64, false, false⟩ := by decide

/-! ### Witnesses: states and operands that meet the hypotheses of the obligations -/

/-- The reserved bits of NOP, RDSTAT, RDSEED and RELEASE, lowest and highest. -/
theorem witness_reserved_upper_bits : (0x0000001#28 ≠ 0) ∧ (0x8000000#28 ≠ 0) := by decide

/-- A CONFIG that the checks accept, as ConfigConstructsSketch writes it. -/
abbrev Accepted (p : BitVec 5) (mode : Mode) (w64 : Bool) : Prop :=
  4 ≤ p.toNat ∧ p.toNat ≤ 16 ∧ ¬(mode = .biasCorrected ∧ w64 = false)

/-- Every clause of ConfigConstructsSketch at the ends of its range. -/
theorem witness_ConfigConstructsSketch :
    (fresh 4#5 .baseline false 7#64).cfg.configured = true ∧ State.reset.cfg.configured = false ∧
    ¬Accepted 3#5 .baseline true ∧ ¬Accepted 17#5 .baseline true ∧ ¬Accepted 4#5 .biasCorrected false ∧
    Accepted 4#5 .baseline false ∧ Accepted 16#5 .baseline true ∧ Accepted 16#5 .biasCorrected true := by
  decide

/-- A fresh sketch of a legal configuration meets the invariant. -/
theorem fresh_inv (p : BitVec 5) (mode : Mode) (w64 : Bool) (seed : Data64)
    (h : (Cfg.mk p mode w64 true).legal = true) : (fresh p mode w64 seed).Inv where
  regs_canonical := rfl
  unconfigured_zero := fun hc => by cases hc
  configured_legal := fun _ => h
  registers_bounded := fun _ i _ => by rw [show (fresh p mode w64 seed).regs.read i = 0#7 from rfl]; simp
  upper_slots_zero := fun _ _ _ => rfl
  queue_bounded := Nat.zero_le _
  responses_legal := fun r hr => by simp [fresh, State.reset] at hr
  free_values_fresh := fun n hn => by cases hn

/-- A released block meets the invariant. -/
theorem released_inv : released.Inv where
  regs_canonical := rfl
  unconfigured_zero := fun _ => ⟨rfl, rfl⟩
  configured_legal := fun hc => by cases hc
  registers_bounded := fun hc => by cases hc
  upper_slots_zero := fun _ _ _ => rfl
  queue_bounded := Nat.zero_le _
  responses_legal := fun r hr => by simp [released, State.reset] at hr
  free_values_fresh := fun n hn => by cases hn

theorem witness_ReleaseEndsSketch : released.Inv ∧ released.cfg.configured = false := ⟨released_inv, rfl⟩

theorem witness_RdstatReadsConfiguration : released.Inv ∧ released.cfg.configured = false := ⟨released_inv, rfl⟩

theorem witness_RdseedReadsSeed :
    (fresh 4#5 .baseline false 7#64).cfg.configured = true ∧ released.cfg.configured = false ∧
    ∃ t, exec (.add 0x13#64) (fresh 4#5 .baseline false 7#64) = .next t ∧ t.cfg.configured = true :=
  ⟨rfl, rfl, _, rfl, rfl⟩

/-- No sketch; the smallest and the widest configuration. -/
theorem witness_AddRaisesRegisterToMaximum : released.cfg.configured = false ∧
    (let s := fresh 4#5 .baseline false 0#64
     s.regs.wf = true ∧ s.cfg.legal = true ∧ s.cfg.configured = true) ∧
    (let s := fresh 16#5 .biasCorrected true 0#64
     s.regs.wf = true ∧ s.cfg.legal = true ∧ s.cfg.configured = true) := by decide

theorem witness_RdregReadsRegister :
    released.cfg.configured = false ∧ (fresh 4#5 .baseline false 0#64).cfg.configured = true ∧
    2 ^ (fresh 4#5 .baseline false 0#64).cfg.p.toNat ≤ (16#16).toNat ∧
    (15#16).toNat < 2 ^ (fresh 4#5 .baseline false 0#64).cfg.p.toNat ∧
    (65535#16).toNat < 2 ^ (fresh 16#5 .baseline false 0#64).cfg.p.toNat := by decide

/-- A sketch of sixteen registers. -/
def sketch4 (mode : Mode) (rom : BiasRom) (regs : RegFile) : State :=
  { fresh 4#5 mode true 0#64 with regs := regs, rom := rom }

/-- The raw estimate of sixteen registers. -/
def raw4 (regs : RegFile) : F64 := rawEstimate 4 regs

/-- The number of zero registers among sixteen, counted as a set. -/
def zeros4 (regs : RegFile) : Nat := ((Finset.range 16).filter fun i => regs.read i = 0#7).card

/-- Registers with the least harmonic sum above 172.288/40, some of them 0: the raw estimate is just below 2.5m. -/
def justSmall : RegFile := regsOf ([0#7, 0#7, 0#7, 0#7] ++ List.replicate 8 5#7 ++ List.replicate 4 6#7)

/-- As justSmall, with no register at 0. -/
def justSmallFull : RegFile := regsOf ([1#7, 1#7] ++ List.replicate 13 2#7 ++ [4#7])

/-- The raw estimate is just above 2.5m. -/
def justMid : RegFile := regsOf ([1#7] ++ List.replicate 15 2#7)

/-- The raw estimate is just below 5m. -/
def justMidTop : RegFile := regsOf ([2#7, 2#7] ++ List.replicate 13 3#7 ++ [4#7])

/-- The raw estimate is just above 5m. -/
def justHigh : RegFile := regsOf ([2#7] ++ List.replicate 15 3#7)

/-- The states of EstFollowsRegimes are legal and configured, in both modes. -/
theorem witness_EstFollowsRegimes_states :
    (sketch4 .baseline tableA justSmall).cfg.configured = true ∧
    (sketch4 .baseline tableA justSmall).cfg.legal = true ∧
    (sketch4 .biasCorrected tableA justSmall).cfg.legal = true := by decide

/-- Clauses 1 and 2: small range, with and without a register at 0. -/
theorem witness_EstFollowsRegimes_small :
    (raw4 justSmall).toRat ≤ 5 / 2 * 16 ∧ 0 < zeros4 justSmall ∧
    (raw4 justSmallFull).toRat ≤ 5 / 2 * 16 ∧ zeros4 justSmallFull = 0 := by decide +kernel

/-- Clause 1 in MODE 1: an empty sketch, whose linear counting is +0.0. -/
theorem witness_EstFollowsRegimes_small_corrected :
    (raw4 RegFile.cleared).toRat ≤ 5 / 2 * 16 ∧ zeros4 RegFile.cleared = 16 ∧
    F64.lt 0x43A1111111111111#64
      (F64.mul (F64.ofNat 16) (Config.ln (F64.div (F64.ofNat 16) (F64.ofNat 16)))) = false := by
  refine ⟨by decide +kernel, by decide +kernel, ?_⟩
  rw [show F64.div (F64.ofNat 16) (F64.ofNat 16) = F64.one by decide +kernel,
    show Config.ln F64.one = F64.posZero from LnUnit.ln_one _]
  decide +kernel

/-- Clauses 3 and 4: above 2.5m, and between 2.5m and 5m, at both ends. -/
theorem witness_EstFollowsRegimes_mid :
    5 / 2 * 16 < (raw4 justMid).toRat ∧ (raw4 justMid).toRat < 5 * 16 ∧
    5 / 2 * 16 < (raw4 justMidTop).toRat ∧ (raw4 justMidTop).toRat < 5 * 16 := by decide +kernel

/-- The mid-range estimate of sixteen registers, the average written out as in EstFollowsRegimes. -/
def mid4 (rom : BiasRom) (regs : RegFile) : F64 :=
  let b := rom.val
  let l := windowLeft (lowerBound (raw4 regs) rom.entries)
  F64.sub (raw4 regs) (F64.div (F64.add (F64.add (F64.add (F64.add (F64.add (b l) (b (l + 1))) (b (l + 2)))
    (b (l + 3))) (b (l + 4))) (b (l + 5))) 0x4018000000000000#64)

/-- d of 42_estimate.md R151. -/
def dOf (e : F64) : F64 := F64.sub F64.one (F64.div e (F64.ofNat (2 ^ 64)))

/-- The four sub-clauses of clause 4. -/
theorem witness_EstFollowsRegimes_mid_results :
    (mid4 tableC justMid).sign = true ∧
    ((mid4 tableA justMidTop).sign = false ∧ F64.lt 0x43A1111111111111#64 (mid4 tableA justMidTop) = false) ∧
    (F64.lt 0x43A1111111111111#64 (mid4 tableE justMid) = true ∧ F64.le (dOf (mid4 tableE justMid)) 0#64 = true) ∧
    (F64.lt 0x43A1111111111111#64 (mid4 tableD justMid) = true ∧
      F64.le (dOf (mid4 tableD justMid)) 0#64 = false) := by decide +kernel

/-- Clause 5 and its three sub-clauses. -/
theorem witness_EstFollowsRegimes_high :
    (5 * 16 ≤ (raw4 justHigh).toRat ∧ F64.lt 0x43A1111111111111#64 (raw4 justHigh) = false) ∧
    (5 * 16 ≤ (raw4 (all16 61#7)).toRat ∧ F64.lt 0x43A1111111111111#64 (raw4 (all16 61#7)) = true ∧
      F64.le (dOf (raw4 (all16 61#7))) 0#64 = true) ∧
    (5 * 16 ≤ (raw4 (all16 56#7)).toRat ∧ F64.lt 0x43A1111111111111#64 (raw4 (all16 56#7)) = true ∧
      F64.le (dOf (raw4 (all16 56#7))) 0#64 = false) := by decide +kernel

theorem witness_IllegalOpcodesRefused :
    (0x00000008#32).getLsbD 3 = true ∧ (0xFFFFFFFF#32).getLsbD 3 = true ∧ 8 ≤ (8#4).toNat ∧ 8 ≤ (15#4).toNat := by
  decide

/-- One word for each format, its lowest or highest reserved bit set (C-11, C-14, D-15, D-3). -/
theorem witness_ReservedBitsRefused :
    (0x00008401#32).toNat % 16 = 1 ∧ (0x00008401#32 : CmdWord) &&& 0xFFFF80F0#32 ≠ 0#32 ∧
    (0x00000481#32 : CmdWord) &&& 0xFFFF80F0#32 ≠ 0#32 ∧
    (0x00000014#32).toNat % 16 = 4 ∧ (0x00000014#32 : CmdWord) &&& 0x0000FFF0#32 ≠ 0#32 ∧
    (0x80000000#32).toNat % 16 < 8 ∧ 16 ≤ (0x80000000#32).toNat ∧
    (0x00000017#32).toNat % 16 = 7 ∧ 16 ≤ (0x00000017#32).toNat := by decide

theorem witness_SketchCommandsNeedSketch : released.cfg.configured = false ∧
    ∃ t, exec .est released = .next t ∧ t.rq = released.rq ++ [⟨0x83#8, 0#64⟩] := ⟨rfl, _, rfl, rfl⟩

/-- One word for each clause of FirstErrorByPriority, with the state it needs (D-6, D-8, D-17, C-16, C-3, C-6, R-2). -/
theorem witness_FirstErrorByPriority :
    answerTo 0xFFFFFFFF#32 0#64 released = some ⟨0x81#8, 0#64⟩ ∧
    answerTo 0x00000012#32 0#64 released = some ⟨0x82#8, 0#64⟩ ∧
    answerTo 0xFFFF0004#32 0#64 released = some ⟨0x83#8, 0#64⟩ ∧
    answerTo 0x00000301#32 0#64 (fresh 4#5 .baseline false 0#64) = some ⟨0x84#8, 0#64⟩ ∧
    answerTo 0x00000301#32 0#64 released = some ⟨0x85#8, 0#64⟩ ∧
    answerTo 0x00002401#32 0#64 released = some ⟨0x85#8, 0#64⟩ ∧
    answerTo 0x00100004#32 0#64 (fresh 4#5 .baseline false 0#64) = some ⟨0x86#8, 0#64⟩ ∧
    answerTo 0x000F0004#32 0#64 (fresh 4#5 .baseline false 0#64) = some ⟨0x00#8, 0#64⟩ := by decide

theorem witness_RefusedCommandWritesNothing :
    ∃ t r, runCommand ⟨0x00000002#32, 1#64⟩ released = .next t ∧ t.rq = released.rq ++ [r] ∧ r.status.msb = true :=
  ⟨_, _, rfl, rfl, rfl⟩

theorem witness_DecodeOfEncode : (Instr.illegal 8#4 0#28).wellFormed = true ∧
    (Instr.illegal 15#4 0xFFFFFFF#28).wellFormed = true ∧
    (Instr.config true .biasCorrected 31#5 0xFFFFFFFFFFFFFFFF#64).wellFormed = true ∧
    (Instr.rdreg 0xFFFF#16).wellFormed = true := by decide

theorem witness_EncodeOfDecode : decode 0x00006C01#32 1#64 = .ok (.config true .biasCorrected 12#5 1#64) ∧
    decode 0x00000003#32 1#64 = .ok .est := by decide

/-- The numbers at the ends of their fields. -/
theorem witness_AssemblyStandsForCommands :
    31 ≤ 31 ∧ 2 ^ 64 - 1 < 2 ^ 64 ∧ 31 < 32 ∧ 2 ^ 64 ≤ 2 ^ 64 ∧ 65535 ≤ 65535 ∧ 65535 < 65536 ∧
    8 ≤ 8 ∧ 8 ≤ 15 ∧ 15 ≤ 15 ∧ 7 < 8 ∧ 15 < 16 := by decide

/-- An edge at which the host offers `c` and takes no response. -/
def offerEdge (c : Command) (willing executes : Bool) : Edge := ⟨false, true, c.word, c.data, false, willing, executes⟩

/-- An edge at which the host offers nothing. -/
def quietEdge (rspReady executes : Bool) : Edge := ⟨false, false, 0#32, 0#64, rspReady, false, executes⟩

/-- An edge with `rst = 1`. -/
def resetPulse : Edge := ⟨true, true, 3#32, 0#64, true, true, true⟩

/-- A command accepted and executed at one edge. -/
theorem witness_StepRunsDecodedCommand :
    let e := offerEdge ⟨0x3#32, 0#64⟩ true true
    let s := { released with edges := [e] }
    let u := transfers e { s with edges := [] }
    s.edges = e :: [] ∧ e.rst = false ∧ e.executes = true ∧ u.pending = [⟨0x3#32, 0#64⟩] ∧
    u.rq.length < Config.rqDepth ∧ decodeCommand ⟨0x3#32, 0#64⟩ = .ok .est ∧
    decodeTableWord 32 0x3 = some .est :=
  ⟨rfl, rfl, rfl, rfl, Nat.succ_pos _, rfl, rfl⟩

/-- An offered command at an edge that ends no execution, at one that ends its own, and a reset edge. -/
theorem witness_CommandTransferRule :
    let e := offerEdge ⟨0x3#32, 0#64⟩ true false
    let e' := offerEdge ⟨0x3#32, 0#64⟩ true true
    let r := resetPulse
    let s := { released with edges := [e] }
    let s' := { released with edges := [e'] }
    let s'' := { released with edges := [r] }
    (s.edges = e :: [] ∧ e.rst = false ∧ e.executes = false ∧ (∃ t, step s = .next t) ∧
      e.cmdValid = true ∧ e.willing = true ∧ s.rq.length < Config.rqDepth) ∧
    (s'.edges = e' :: [] ∧ e'.rst = false ∧ e'.executes = true ∧ ∃ t, step s' = .next t) ∧
    (s''.edges = r :: [] ∧ r.rst = true ∧ ∃ t, step s'' = .next t) :=
  ⟨⟨rfl, rfl, rfl, ⟨_, rfl⟩, rfl, rfl, Nat.succ_pos _⟩, ⟨rfl, rfl, rfl, _, rfl⟩, rfl, rfl, _, rfl⟩

/-- A response waits; the host takes it, or leaves it. -/
theorem witness_ResponseTransferRule :
    let s := { released with rq := [⟨0x00#8, 5#64⟩], edges := [quietEdge true false] }
    let s' := { released with rq := [⟨0x00#8, 5#64⟩], edges := [quietEdge false false] }
    (s.edges = quietEdge true false :: [] ∧ (quietEdge true false).rst = false ∧ ∃ t, step s = .next t) ∧
    (s'.rspValid = true ∧ (quietEdge false false).rspReady = false ∧ ∃ t, step s' = .next t) :=
  ⟨⟨rfl, rfl, _, rfl⟩, rfl, rfl, _, rfl⟩

theorem witness_ResetEdgeRule :
    let e := resetPulse
    let s := { fresh 4#5 .baseline false 7#64 with edges := [e] }
    s.edges = e :: [] ∧ e.rst = true := ⟨rfl, rfl⟩

theorem witness_ResetLeavesSlotsUnspecified :
    let e := resetPulse
    let s := { fresh 4#5 .baseline false 7#64 with edges := [e] }
    s.edges = e :: [] ∧ e.rst = true ∧ ∃ t, step s = .next t := ⟨rfl, rfl, _, rfl⟩

/-- Four edges without reset: accept, execute, take, nothing. -/
def fourEdges (c : Command) : List Edge :=
  [offerEdge c true false, quietEdge false true, quietEdge true false, quietEdge false false]

theorem witness_OneResponsePerCommand :
    let s := { fresh 4#5 .baseline false 7#64 with edges := fourEdges ⟨0x2#32, 0x13#64⟩ }
    (∀ e ∈ s.edges.take 4, e.rst = false) ∧ acceptedWithin 4 s = [⟨0x2#32, 0x13#64⟩] ∧
    (after 4 s).taken = [⟨0x00#8, 0x3009C#64⟩] := by decide

theorem witness_CommandsExecuteAtomicallyInOrder :
    let s := { fresh 4#5 .baseline false 7#64 with edges := fourEdges ⟨0x2#32, 0x13#64⟩ }
    ∀ e ∈ s.edges.take 4, e.rst = false := by decide

/-- A block that is willing at every edge. -/
theorem witness_OfferedCommandIsAccepted :
    let c : Command := ⟨0x3#32, 0#64⟩
    let s := { released with edges := List.replicate (Config.latency + 1) (offerEdge c true false) }
    s.pending = [] ∧ s.rq.length < Config.rqDepth ∧ fairTiming s.edges ∧ Config.latency < s.edges.length ∧
    ∀ e ∈ s.edges.take (Config.latency + 1),
      e.rst = false ∧ e.cmdValid = true ∧ e.cmdWord = c.word ∧ e.cmdData = c.data := by
  refine ⟨rfl, Nat.succ_pos _, fun k hk => ⟨0, Nat.zero_le _, offerEdge ⟨0x3#32, 0#64⟩ true false, ?_, rfl⟩,
    by simp, fun e he => ?_⟩
  · rw [List.length_replicate] at hk
    rw [List.getElem?_replicate, if_pos (by omega)]
  · obtain rfl := List.eq_of_mem_replicate (List.mem_of_mem_take he)
    exact ⟨rfl, rfl, rfl, rfl⟩

theorem witness_StepKeepsInvariant :
    let s := fresh 4#5 .baseline false 7#64
    s.Inv ∧ ∃ t, step s = .next t := ⟨fresh_inv _ _ _ _ rfl, _, rfl⟩

/-- An ADD that raises a register, offered and executed at one edge. -/
theorem witness_RegistersNeverDecrease :
    let s := { fresh 4#5 .baseline false 7#64 with edges := [offerEdge ⟨0x2#32, 0x13#64⟩ true true] }
    s.Inv ∧ s.cfg.configured = true ∧ ∃ t, step s = .next t ∧ t.cfg.configured = true ∧
      t.regs.read 3 = 28#7 := by
  have h := fresh_inv 4#5 .baseline false 7#64 rfl
  exact ⟨⟨h.1, h.2, h.3, h.4, h.5, h.6, h.7, h.8⟩, rfl, _, rfl, rfl, rfl⟩

/-- An ADD that changes the registers, and a RELEASE that changes CFG and SEED. -/
theorem witness_StateChangesOnlyByItsCommands :
    let s := fresh 4#5 .baseline false 7#64
    (∃ t, exec (.add 0x13#64) s = .next t ∧ t.regs ≠ s.regs) ∧
    ∃ t, exec .release s = .next t ∧ (t.cfg ≠ s.cfg ∨ t.seed ≠ s.seed) :=
  ⟨⟨_, rfl, by decide⟩, _, rfl, by decide⟩

/-- The same command accepted at the first edge or at the second, executed at once or later; a reset still to come. -/
theorem witness_TimingIsUnobservable :
    let c : Command := ⟨0x2#32, 0x13#64⟩
    let es₁ := [offerEdge c true true, quietEdge true false]
    let es₂ := [offerEdge c false false, offerEdge c true false, quietEdge false true, quietEdge false false,
      quietEdge true false, quietEdge true true, resetPulse, offerEdge c true true]
    let s₁ := { fresh 4#5 .baseline false 7#64 with edges := es₁ }
    let s₂ := { fresh 4#5 .baseline false 7#64 with edges := es₂ }
    (∀ e ∈ es₁.take 2, e.rst = false) ∧ (∀ e ∈ es₂.take 5, e.rst = false) ∧
    acceptedWithin 2 s₁ = acceptedWithin 5 s₂ ∧ acceptedWithin 2 s₁ = [c] ∧
    (after 2 s₁).runOver = true ∧ (after 5 s₂).runOver = true := by decide

/-- A sketch with a response taken and one waiting, and a fresh block, each reset and then sent one RDSTAT. -/
theorem witness_RunFromResetIsItsOwn :
    let c : Command := ⟨0x5#32, 0#64⟩
    let es₁ := [offerEdge c true true, quietEdge true false]
    let es₂ := [offerEdge c true false, quietEdge false true, quietEdge true false, quietEdge false false]
    let s₁ := { fresh 4#5 .baseline false 7#64 with
      edges := resetPulse :: es₁, taken := [⟨0x00#8, 5#64⟩], rq := [⟨0x00#8, 6#64⟩], pending := [c] }
    let s₂ := { released with rom := BiasRom.sample, edges := resetPulse :: es₂ }
    s₁.rom = s₂.rom ∧ s₁.edges = resetPulse :: es₁ ∧ s₂.edges = resetPulse :: es₂ ∧ resetPulse.rst = true ∧
    (∀ e ∈ es₁.take 2, e.rst = false) ∧ (∀ e ∈ es₂.take 3, e.rst = false) ∧
    acceptedWithin 2 (advance s₁) = acceptedWithin 3 (advance s₂) ∧ acceptedWithin 2 (advance s₁) = [c] ∧
    (after 2 (advance s₁)).runOver = true ∧ (after 3 (advance s₂)).runOver = true :=
  ⟨rfl, rfl, rfl, rfl, by decide, by decide, by decide, by decide, by decide, by decide⟩

/-- A run that is over with an idle edge, a reset and a next run still to come. -/
theorem witness_RunThatIsOverStaysOver :
    let s := { released with edges := [quietEdge true true, resetPulse, offerEdge ⟨0x5#32, 0#64⟩ true true] }
    s.runOver = true ∧ s.edges.head? = some (quietEdge true true) ∧ (quietEdge true true).rst = false := by decide

theorem witness_SeedAffectsNothing : Instr.add 0x13#64 ≠ .rdseed ∧ Instr.est ≠ .rdseed := by decide

theorem witness_HiddenSlotsAreUnobservable : State.reset.cfg.configured = false ∧
    State.reset.regs ≠ RegFile.cleared := by decide

theorem witness_NewSketchForgetsOld : (Cfg.mk 4#5 .baseline false true).legal = true ∧
    (Cfg.mk 16#5 .biasCorrected true true).legal = true := by decide

theorem witness_ReadsRepeatAndChangeNothing :
    let s := fresh 4#5 .baseline false 7#64
    s.regs.wf = true ∧ s.cfg.legal = true := by decide

/-- A CONFIG executes and the outputs change. -/
theorem witness_HashUnitOutputsFollowExecution :
    let e := offerEdge ⟨0x00004401#32, 7#64⟩ true true
    let s := { released with edges := [e] }
    s.edges = e :: [] ∧ ∃ t, step s = .next t ∧ t.seedO ≠ s.seedO ∧ t.w64O ≠ s.w64O ∧ t.cfgO ≠ s.cfgO :=
  ⟨rfl, _, rfl, by decide, by decide, by decide⟩

theorem witness_PartitionSplitsHashWord : (cfg4 .baseline).legal = true ∧
    (Cfg.mk 16#5 .baseline false true).legal = true := by decide

/-- Hash words with the remainder 0 and not 0, the greatest among them. -/
theorem witness_RhoRangeAndEquivalentForm :
    (Cfg.mk 4#5 .baseline false true).legal = true ∧ 2 ^ 32 - 1 < 2 ^ (Cfg.mk 4#5 .baseline false true).width ∧
    hashRem (Cfg.mk 4#5 .baseline false true) (2 ^ 32 - 1) ≠ 0 ∧
    hashRem (Cfg.mk 4#5 .baseline false true) 15 = 0 ∧
    hashRho (Cfg.mk 4#5 .baseline false true) 15 = 32 - 4 + 1 := by decide

theorem witness_RegisterIsMaximumRho : (fresh 4#5 .baseline false 7#64).Inv ∧
    (fresh 4#5 .baseline false 7#64).cfg.configured = true := ⟨fresh_inv _ _ _ _ rfl, rfl⟩

/-- The same two hash words, in another order and one of them twice, one with another ignored high half. -/
theorem witness_EstimateDependsOnSetOfHashWords :
    let s := fresh 4#5 .baseline false 7#64
    s.Inv ∧ s.cfg.configured = true ∧ ∀ h,
      h ∈ [0x13#64, 0x5#64, 0x13#64].map (hashWord s.cfg) ↔
        h ∈ [0x5#64, 0xDEADBEEF00000013#64].map (hashWord s.cfg) := by
  refine ⟨fresh_inv _ _ _ _ rfl, rfl, fun h => ?_⟩
  simp [fresh, hashWord, Cfg.width]
  tauto

/-- Operands for each clause: within the range, and on and beyond its two ends. -/
theorem witness_OperationsRoundToNearestEven :
    F64.one.isFinite = true ∧ F64.isFinite 0x7FEFFFFFFFFFFFFF#64 = true ∧ F64.one.toRat ≠ 0 ∧
    |F64.one.toRat + F64.one.toRat| < (2 ^ 1024 - 2 ^ 970 : Rat) ∧
    (2 ^ 1024 - 2 ^ 970 : Rat) ≤ F64.toRat 0x7FEFFFFFFFFFFFFF#64 + F64.toRat 0x7C90000000000000#64 ∧
    F64.toRat 0xFFEFFFFFFFFFFFFF#64 - F64.toRat 0x7C90000000000000#64 ≤ -(2 ^ 1024 - 2 ^ 970 : Rat) := by
  decide +kernel

theorem witness_HarmonicSumIsRoundedOnce : 1 ≤ 16 ∧ 16 ≤ 65536 ∧ (∀ k < 16, ((all16 61#7).read k).toNat ≤ 61) := by
  decide

theorem witness_RawEstimateIsRoundedQuotient : 4 ≤ 4 ∧ 4 ≤ 16 ∧ 16 ≤ 16 ∧
    (∀ k < 2 ^ 4, RegFile.cleared.read k = 0#7) ∧ (∀ k < 2 ^ 4, ((all16 29#7).read k).toNat ≤ 32 - 4 + 1) ∧
    (∀ k < 2 ^ 4, ((all16 61#7).read k).toNat ≤ 64 - 4 + 1) ∧
    (∀ k < 2 ^ 4, ((all16 29#7).read k).toNat = 32 - 4 + 1) ∧
    (∀ k < 2 ^ 4, ((all16 61#7).read k).toNat = 64 - 4 + 1) := by decide

theorem witness_MidRangeEstimateIsFinite : 4 ≤ 4 ∧ 16 ≤ 16 := by decide

/-- Indices 0, inside and 200. -/
theorem witness_LowerBoundIsLeastIndex : F64.posZero.isNaN = false ∧ F64.posInf.isNaN = false ∧
    lowerBound F64.posZero tableA.entries = 0 ∧ lowerBound (scaled 43 0) tableA.entries = 4 ∧
    lowerBound F64.posInf tableA.entries = 200 := by decide +kernel

theorem witness_WindowHasSixEntries : 0 ≤ 200 ∧ 3 ≤ 3 ∧ 4 ≤ 197 ∧ 198 ≤ 200 := by decide

theorem witness_EmptySketchEstimatesZero :
    (∀ mode, (fresh 4#5 mode true 0#64).cfg.legal = true) ∧ (fresh 16#5 .baseline false 0#64).cfg.legal = true ∧
    ∀ k < 2 ^ 16, RegFile.cleared.read k = 0#7 := by
  refine ⟨fun mode => by cases mode <;> rfl, rfl, fun _ _ => rfl⟩

theorem witness_SaturatedSketchEstimatesInfinity :
    let s := sketch4 .biasCorrected tableA (all16 61#7)
    s.cfg.configured = true ∧ s.cfg.legal = true ∧ s.cfg.mode = .biasCorrected ∧
    ∀ k < 2 ^ s.cfg.p.toNat, (s.regs.read k).toNat = 65 - s.cfg.p.toNat := by decide

theorem witness_EstimateIsNonNegativeNumber :
    (sketch4 .biasCorrected tableC justMid).cfg.configured = true ∧
    (sketch4 .biasCorrected tableC justMid).cfg.legal = true := by decide

/-- The sample LN unit keeps the bound on LN. -/
theorem witness_RegimeFlagCombinations_ln : ∀ x : F64, F64.le F64.one x = true → F64.le x (F64.ofNat 65536) = true →
    F64.lt (LnUnit.sample.ln x) (F64.ofNat (2 ^ 43)) = true := by
  intro x _ _
  show F64.lt (if F64.lt F64.one x then F64.one else if F64.lt x F64.one then F64.one.neg else F64.posZero)
    (F64.ofNat (2 ^ 43)) = true
  split
  · decide +kernel
  · split <;> decide +kernel

/-- Every clause of RegimeFlagCombinations has a state: MODE 0, CL with LR, CL without LR, a command that is no EST. -/
theorem witness_RegimeFlagCombinations :
    (cfg4 .biasCorrected).legal = true ∧ (cfg4 .baseline).legal = true ∧ (cfg4 .baseline).mode = .baseline ∧
    (est4 .biasCorrected tableA (all16 61#7)).2 = ⟨false, false, true, true⟩ ∧
    (est4 .biasCorrected tableC (all16 2#7)).2 = ⟨false, true, false, true⟩ ∧
    Instr.nop ≠ .est ∧ okStatus.msb = false := by decide +kernel

/-- An LN unit with a large step at 1.0: `b` above it. -/
def stepLn (b : F64) (hf : b.isFinite = true) (hp : F64.lt F64.posZero b = true) : LnUnit where
  ln x := if F64.lt F64.one x then b else LnUnit.sample.ln x
  ln_one := by
    rw [if_neg (by decide +kernel)]
    exact LnUnit.sample.ln_one
  ln_finite := by
    intro x h0 h1
    split
    · exact hf
    · exact LnUnit.sample.ln_finite x h0 h1
  ln_pos := by
    intro x _ h
    rw [if_pos h]
    exact hp
  ln_neg := by
    intro x h0 h1
    have hn : F64.lt F64.one x = false := by
      simp only [F64.lt, Bool.and_eq_true, decide_eq_true_eq] at h1
      simp only [F64.lt, Bool.and_eq_false_iff, decide_eq_false_iff_not]
      omega
    rw [hn, if_neg Bool.false_ne_true]
    exact LnUnit.sample.ln_neg x h0 h1

/-- The linear counting of justSmall (16 registers, four of them 0) with `ln 4` as given. -/
def lin4 (L : LnUnit) : F64 := F64.mul (F64.ofNat 16) (L.ln (F64.div (F64.ofNat 16) (F64.ofNat 4)))

/-- With LN(4) = 2^60 and with LN(4) = 2^56: at 2^64, and above TLR and below 2^64. -/
theorem witness_LinearCountingAboveThreshold :
    (cfg4 .biasCorrected).legal = true ∧ (raw4 justSmall).toRat ≤ 5 / 2 * 16 ∧ zeros4 justSmall = 4 ∧
    (let x := lin4 (stepLn (scaled 1 60) (by decide +kernel) (by decide +kernel))
     F64.lt 0x43A1111111111111#64 x = true ∧ F64.le (dOf x) 0#64 = true) ∧
    (let x := lin4 (stepLn (scaled 1 56) (by decide +kernel) (by decide +kernel))
     F64.lt 0x43A1111111111111#64 x = true ∧ F64.le (dOf x) 0#64 = false) := by decide +kernel

theorem witness_RomIsReadOnlyByCorrectedEstimate : Instr.rdstat ≠ .est ∧
    (sketch4 .baseline tableA justMid).cfg.mode = .baseline := by decide

end Sys2Proof.Tests
end

section
/-! SUPPORT. The four binary64 operations round the exact rational result once (00_scope.md R13). Every operation on
finite values is one `rne` of a sign and a fraction, so correct rounding is proved once, for `rne`, and each operation
only has to name the sign and the fraction. -/

namespace Sys2Proof

/-! ### Values as a sign and a magnitude -/

/-- The rational number with a given sign and magnitude. -/
def F64.signed (neg : Bool) (r : Rat) : Rat := if neg then -r else r

/-- The magnitude of a finite encoding as a rational number. -/
def F64.magRat (x : F64) : Rat := (x.mag : Rat) / (F64.unitsPerOne : Rat)

theorem F64.unitsPerOne_pos : (0 : Rat) < (F64.unitsPerOne : Rat) := by positivity

theorem F64.magRat_nonneg (x : F64) : 0 ≤ x.magRat := div_nonneg (Nat.cast_nonneg _) F64.unitsPerOne_pos.le

@[simp] theorem F64.abs_signed (neg : Bool) (r : Rat) : |F64.signed neg r| = |r| := by
  cases neg <;> simp [F64.signed]

@[simp] theorem F64.signed_eq_zero_iff (neg : Bool) (r : Rat) : F64.signed neg r = 0 ↔ r = 0 := by
  cases neg <;> simp [F64.signed]

theorem F64.signed_mul_signed (p q : Bool) (r t : Rat) :
    F64.signed p r * F64.signed q t = F64.signed (p != q) (r * t) := by
  cases p <;> cases q <;> simp [F64.signed]

theorem F64.signed_div_signed (p q : Bool) (r t : Rat) :
    F64.signed p r / F64.signed q t = F64.signed (p != q) (r / t) := by
  cases p <;> cases q <;> simp [F64.signed, neg_div, div_neg]

theorem F64.signed_div (neg : Bool) (r t : Rat) : F64.signed neg r / t = F64.signed neg (r / t) := by
  cases neg <;> simp [F64.signed, neg_div]

theorem F64.units_eq_signed (x : F64) : (x.units : Rat) = F64.signed x.sign x.mag := by
  unfold F64.units F64.signed
  split <;> push_cast <;> rfl

theorem F64.toRat_eq_signed (x : F64) : x.toRat = F64.signed x.sign x.magRat := by
  rw [F64.toRat, F64.units_eq_signed, F64.signed_div, F64.magRat]

theorem F64.abs_toRat (x : F64) : |x.toRat| = x.magRat := by
  rw [F64.toRat_eq_signed, F64.abs_signed, abs_of_nonneg x.magRat_nonneg]

theorem F64.toRat_eq_zero_iff (x : F64) : x.toRat = 0 ↔ x.magRat = 0 := by
  rw [F64.toRat_eq_signed, F64.signed_eq_zero_iff]

theorem F64.magRat_eq_zero_iff (x : F64) : x.magRat = 0 ↔ x.mag = 0 := by
  rw [F64.magRat, div_eq_zero_iff, or_iff_left F64.unitsPerOne_pos.ne', Nat.cast_eq_zero]

@[simp] theorem F64.neg_toRat (x : F64) : x.neg.toRat = -x.toRat := by
  rw [F64.toRat, F64.neg_units, Int.cast_neg, neg_div, F64.toRat]

/-- A value of the same sign lies from `signed neg r` as far as its magnitude lies from `r`. -/
theorem F64.abs_signed_sub_toRat {neg : Bool} {y : F64} (hs : y.sign = neg) (r : Rat) :
    |F64.signed neg r - y.toRat| = |r - y.magRat| := by
  rw [F64.toRat_eq_signed, hs]
  cases neg
  · rfl
  · simp only [F64.signed, if_true, ← neg_sub', abs_neg]

/-- No value lies nearer to `signed neg r` than its magnitude lies to `r`. -/
theorem F64.abs_sub_magRat_le (neg : Bool) {r : Rat} (hr : 0 ≤ r) (z : F64) :
    |r - z.magRat| ≤ |F64.signed neg r - z.toRat| := by
  have h := abs_abs_sub_abs_le_abs_sub (F64.signed neg r) z.toRat
  rwa [F64.abs_signed, abs_of_nonneg hr, F64.abs_toRat] at h

/-! ### Nearest, over the rationals -/

/-- Nearest-even of a rational number speaks of rational distances alone. -/
theorem F64.nearestEven_cast_iff (x : Rat) (y : F64) : F64.NearestEven (x : ℝ) y ↔
    y.isFinite = true ∧ (∀ z : F64, z.isFinite = true → |x - y.toRat| ≤ |x - z.toRat|) ∧
    (∀ z : F64, z.isFinite = true → z.toRat ≠ y.toRat → |x - z.toRat| = |x - y.toRat| → y.fracBits % 2 = 0) := by
  unfold F64.NearestEven
  norm_cast

/-- It is enough to compare magnitudes: a value of the sign of `x` whose magnitude is nearest to `|x|`, ties to even,
is nearest to `x` among the values of both signs. -/
theorem F64.nearestEven_of_magRat {neg : Bool} {r : Rat} {y : F64} (hr : 0 ≤ r) (hs : y.sign = neg)
    (hf : y.isFinite = true) (hnear : ∀ z : F64, z.isFinite = true → |r - y.magRat| ≤ |r - z.magRat|)
    (heven : ∀ z : F64, z.isFinite = true → z.magRat ≠ y.magRat → |r - z.magRat| = |r - y.magRat| →
      y.fracBits % 2 = 0) :
    F64.NearestEven (F64.signed neg r : ℝ) y := by
  have hy := F64.abs_signed_sub_toRat hs r
  have htri := F64.abs_sub_magRat_le neg hr
  refine (F64.nearestEven_cast_iff _ _).2
    ⟨hf, fun z hz => hy.le.trans ((hnear z hz).trans (htri z)), fun z hz hne htie => ?_⟩
  by_cases hmag : z.magRat = y.magRat
  · -- then `z` is `-y` and as far from `x` as `y`: so `x` is 0, and only 0 is nearest to 0
    exfalso
    rw [← F64.abs_toRat, ← F64.abs_toRat] at hmag
    have hzy : z.toRat = -y.toRat := (abs_eq_abs.1 hmag).resolve_left hne
    have hx : F64.signed neg r = 0 := by
      rcases abs_eq_abs.1 htie with h | h
      · exact absurd (by linarith) hne
      · linarith
    have h0 := hnear F64.posZero (by decide)
    rw [(F64.signed_eq_zero_iff _ _).1 hx, (F64.magRat_eq_zero_iff F64.posZero).2 (by decide), sub_self, abs_zero,
      abs_nonpos_iff, zero_sub, neg_eq_zero, ← F64.toRat_eq_zero_iff] at h0
    exact hne (by rw [hzy, h0, neg_zero])
  · exact heven z hz hmag (le_antisymm ((htri z).trans (htie.trans hy).le) (hnear z hz))

/-! ### The rounded magnitude -/

theorem F64.ratio_nonneg (n d : Nat) : (0 : Rat) ≤ n / d / F64.unitsPerOne :=
  div_nonneg (div_nonneg (Nat.cast_nonneg _) (Nat.cast_nonneg _)) F64.unitsPerOne_pos.le

/-- The distance of a fraction of units from a magnitude, over a common denominator. -/
theorem F64.abs_ratio_sub_mag (n d m : Nat) (hd : 0 < d) :
    |(n : Rat) / d / F64.unitsPerOne - m / F64.unitsPerOne| =
      ((n : Int) - m * d).natAbs / ((d : Rat) * F64.unitsPerOne) := by
  have hd' : (0 : Rat) < d := by exact_mod_cast hd
  have hU := F64.unitsPerOne_pos
  generalize (F64.unitsPerOne : Rat) = u at hU
  have h : (n : Rat) / d / u - m / u = ((n : Rat) - m * d) / (d * u) := by field_simp
  rw [h, abs_div, abs_of_pos (mul_pos hd' hU), Nat.cast_natAbs]
  push_cast
  rfl

/-- Rounding stays at or below an odd encoding exactly when the exact value lies below the midpoint above it: the
midpoint itself rounds up, to the even neighbour. -/
theorem F64.roundMag_le_iff_of_odd {num den c : Nat} (hd : 0 < den) (hodd : c % 2 = 1) :
    F64.roundMag num den ≤ c ↔ 2 * num < (F64.magOf c + F64.magOf (c + 1)) * den := by
  obtain ⟨base, hlo, hhi, hcase⟩ := F64.roundMag_spec num den hd
  have hmono : ∀ {a b : Nat}, a ≤ b → F64.magOf a * den ≤ F64.magOf b * den := fun h =>
    Nat.mul_le_mul_right _ (F64.magOf_strictMono.le_iff_le.2 h)
  have hstep : F64.magOf c * den < F64.magOf (c + 1) * den :=
    Nat.mul_lt_mul_of_pos_right (F64.magOf_lt_succ c) hd
  simp only [Nat.add_mul] at hcase ⊢
  rcases Nat.lt_trichotomy base c with h | rfl | h
  · have := hmono (show base + 1 ≤ c from h)
    omega
  · omega
  · have := hmono (show c + 1 ≤ base from h)
    omega

/-- The overflow threshold in units is the midpoint between the greatest finite magnitude and the one above it. -/
theorem F64.overflow_midpoint :
    F64.magOf (2047 * 2 ^ 52 - 1) + F64.magOf (2047 * 2 ^ 52 - 1 + 1) + 2 * 2 ^ 970 * F64.unitsPerOne =
      2 * 2 ^ 1024 * F64.unitsPerOne := by
  decide +kernel

/-- The least magnitude that rounds to an infinity. -/
def F64.overflowLimit : Rat := 2 ^ 1024 - 2 ^ 970

theorem F64.overflowLimit_pos : 0 < F64.overflowLimit := by
  unfold F64.overflowLimit
  exact sub_pos.2 (pow_lt_pow_right₀ (by norm_num) (by norm_num))

theorem F64.overflowLimit_units :
    ((F64.magOf (2047 * 2 ^ 52 - 1) + F64.magOf (2047 * 2 ^ 52 - 1 + 1) : Nat) : Rat) =
      2 * (F64.overflowLimit * F64.unitsPerOne) := by
  have h := congrArg (Nat.cast : Nat → Rat) F64.overflow_midpoint
  simp only [Nat.cast_add, Nat.cast_mul, Nat.cast_pow, Nat.cast_ofNat] at h ⊢
  rw [F64.overflowLimit, sub_mul, mul_sub, ← mul_assoc, ← mul_assoc]
  exact eq_sub_of_add_eq h

/-- A fraction of units rounds to a finite magnitude exactly when it lies below the overflow threshold. -/
theorem F64.roundMag_finite_iff {n d : Nat} (hd : 0 < d) :
    F64.roundMag n d < 2047 * 2 ^ 52 ↔ (n : Rat) / d / F64.unitsPerOne < F64.overflowLimit := by
  have hd' : (0 : Rat) < d := by exact_mod_cast hd
  rw [div_lt_iff₀ F64.unitsPerOne_pos, div_lt_iff₀ hd', Nat.lt_iff_le_pred (by norm_num),
    F64.roundMag_le_iff_of_odd hd (by norm_num), ← Nat.cast_lt (α := Rat), Nat.cast_mul _ d, F64.overflowLimit_units,
    Nat.cast_mul, Nat.cast_ofNat, mul_assoc 2, mul_lt_mul_iff_right₀ two_pos]

/-! ### A rounded result rounds correctly -/

/-- `y` is `x` rounded to nearest, ties to even, an infinity of the sign of `x` from the overflow threshold on
(00_scope.md R13). -/
def F64.Rounds (x : Rat) (y : F64) : Prop :=
  (|x| < F64.overflowLimit → F64.NearestEven (x : ℝ) y) ∧
  (F64.overflowLimit ≤ x → y = 0x7FF0000000000000#64) ∧ (x ≤ -F64.overflowLimit → y = 0xFFF0000000000000#64)

/-- Below the overflow threshold, `rne` answers the nearest value. -/
theorem F64.rne_nearestEven (neg : Bool) {n d : Nat} (hd : 0 < d) (hfin : F64.roundMag n d < 2047 * 2 ^ 52) :
    F64.NearestEven (F64.signed neg (n / d / F64.unitsPerOne) : ℝ) (F64.rne neg n d) := by
  have hbits : F64.rneBits n d = F64.roundMag n d := min_eq_left hfin.le
  have hmag : (F64.rne neg n d).mag = F64.magOf (F64.roundMag n d) := by rw [F64.rne_mag, hbits]
  have hpos : (0 : Rat) < d * F64.unitsPerOne := mul_pos (by exact_mod_cast hd) F64.unitsPerOne_pos
  refine F64.nearestEven_of_magRat (F64.ratio_nonneg n d) (F64.rne_sign _ _ _) ?_ (fun z _ => ?_) fun z _ hne htie => ?_
  · exact F64.isFinite_of_mag_lt (hmag.trans_lt (F64.magOf_strictMono hfin))
  · rw [F64.magRat, F64.magRat, F64.abs_ratio_sub_mag _ _ _ hd, F64.abs_ratio_sub_mag _ _ _ hd,
      div_le_div_iff_of_pos_right hpos, Nat.cast_le, hmag, F64.mag_eq_magOf z]
    exact F64.roundMag_nearest n d _ hd
  · rw [F64.magRat, F64.magRat, F64.abs_ratio_sub_mag _ _ _ hd, F64.abs_ratio_sub_mag _ _ _ hd,
      div_left_inj' hpos.ne', Nat.cast_inj, hmag, F64.mag_eq_magOf z] at htie
    have heven := F64.roundMag_tie_even n d _ hd (fun h => hne ?_) htie
    · rw [F64.rne_eq, F64.ofFields_fracBits _ (F64.rneBits_lt n d), hbits]
      omega
    · rw [F64.magRat, F64.magRat, hmag, F64.mag_eq_magOf z, h]

/-- `rne` rounds the fraction of units it is given, with its sign. -/
theorem F64.rne_rounds (neg : Bool) {n d : Nat} (hd : 0 < d) :
    F64.Rounds (F64.signed neg (n / d / F64.unitsPerOne)) (F64.rne neg n d) := by
  have hr := F64.ratio_nonneg n d
  have hfin := F64.roundMag_finite_iff (n := n) hd
  have hinf : F64.overflowLimit ≤ (n : Rat) / d / F64.unitsPerOne →
      F64.rne neg n d = F64.ofFields neg (2047 * 2 ^ 52) := fun h => by
    rw [F64.rne_eq, min_eq_right (not_lt.1 (hfin.not.2 (not_lt.2 h)))]
  have hnear := fun h => F64.rne_nearestEven neg hd (hfin.2 h)
  have hL := F64.overflowLimit_pos
  generalize (n : Rat) / d / F64.unitsPerOne = r at *
  refine ⟨fun h => ?_, fun h => ?_, fun h => ?_⟩
  · exact hnear (by rwa [F64.abs_signed, abs_of_nonneg hr] at h)
  · cases neg
    · exact hinf h
    · exact absurd h (by simp only [F64.signed, if_true]; linarith)
  · cases neg
    · exact absurd h (by simp only [F64.signed, Bool.false_eq_true, if_false]; linarith)
    · exact hinf (neg_le_neg_iff.1 h)

/-! ### The operations -/

/-- The sum, an exact zero too, is one `rne` of the exact sum. -/
theorem F64.add_eq_rne {a b : F64} (ha : a.isFinite = true) (hb : b.isFinite = true) : ∃ neg,
    F64.add a b = F64.rne neg (a.units + b.units).natAbs 1 ∧
    ((a.units + b.units : Int) : Rat) = F64.signed neg (a.units + b.units).natAbs := by
  rw [F64.add_of_finite ha hb]
  generalize a.units + b.units = s
  rcases lt_trichotomy s 0 with h | rfl | h
  · refine ⟨true, by rw [if_neg h.ne, decide_eq_true h], ?_⟩
    rw [Nat.cast_natAbs, abs_of_neg h, Int.cast_neg]
    exact (neg_neg _).symm
  · refine ⟨a.sign && b.sign, ?_, by cases a.sign && b.sign <;> rfl⟩
    cases a.sign && b.sign <;> decide
  · refine ⟨false, by rw [if_neg h.ne', decide_eq_false h.not_gt], ?_⟩
    rw [Nat.cast_natAbs, abs_of_pos h]
    rfl

theorem F64.add_rounds {a b : F64} (ha : a.isFinite = true) (hb : b.isFinite = true) :
    F64.Rounds (a.toRat + b.toRat) (F64.add a b) := by
  obtain ⟨neg, hadd, hsum⟩ := F64.add_eq_rne ha hb
  have hx : a.toRat + b.toRat =
      F64.signed neg ((a.units + b.units).natAbs / (1 : Nat) / F64.unitsPerOne) := by
    rw [F64.toRat, F64.toRat, ← add_div, ← Int.cast_add, hsum, F64.signed_div, Nat.cast_one, div_one]
  rw [hx, hadd]
  exact F64.rne_rounds neg Nat.one_pos

theorem F64.sub_rounds {a b : F64} (ha : a.isFinite = true) (hb : b.isFinite = true) :
    F64.Rounds (a.toRat - b.toRat) (F64.sub a b) := by
  rw [sub_eq_add_neg, ← F64.neg_toRat]
  exact F64.add_rounds ha (b.neg_isFinite.trans hb)

theorem F64.mul_rounds {a b : F64} (ha : a.isFinite = true) (hb : b.isFinite = true) :
    F64.Rounds (a.toRat * b.toRat) (F64.mul a b) := by
  have hx : a.toRat * b.toRat = F64.signed (a.sign != b.sign)
      ((a.mag * b.mag : Nat) / F64.unitsPerOne / F64.unitsPerOne) := by
    rw [F64.toRat_eq_signed, F64.toRat_eq_signed, F64.signed_mul_signed, F64.magRat, F64.magRat, div_mul_div_comm,
      div_div, Nat.cast_mul]
  rw [hx, F64.mul_of_finite ha hb]
  exact F64.rne_rounds _ (Nat.cast_pos.1 F64.unitsPerOne_pos)

theorem F64.div_rounds {a b : F64} (ha : a.isFinite = true) (hb : b.isFinite = true) (h0 : b.toRat ≠ 0) :
    F64.Rounds (a.toRat / b.toRat) (F64.div a b) := by
  have hmag : b.mag ≠ 0 := fun h => h0 (by rw [F64.toRat_eq_zero_iff, F64.magRat_eq_zero_iff, h])
  have hx : a.toRat / b.toRat = F64.signed (a.sign != b.sign)
      ((a.mag * F64.unitsPerOne : Nat) / b.mag / F64.unitsPerOne) := by
    rw [F64.toRat_eq_signed, F64.toRat_eq_signed, F64.signed_div_signed, F64.magRat, F64.magRat,
      div_div_div_cancel_right₀ F64.unitsPerOne_pos.ne', Nat.cast_mul, mul_div_right_comm,
      mul_div_cancel_right₀ _ F64.unitsPerOne_pos.ne']
  rw [hx, F64.div_of_finite ha hb hmag]
  exact F64.rne_rounds _ (Nat.pos_of_ne_zero hmag)

/-- Settles O43: every operation is one `rne` of the exact result's sign and fraction. -/
theorem operationsRoundToNearestEven : Obligations.OperationsRoundToNearestEven :=
  fun _ _ ha hb => ⟨F64.add_rounds ha hb, F64.sub_rounds ha hb, F64.mul_rounds ha hb, F64.div_rounds ha hb⟩

end Sys2Proof
end

section
/-! SUPPORT. What a command reads and writes, said once: every command has one of four effects and one response,
and both are the same in all states that agree on what the command reads. -/

namespace Sys2Proof.Machine

/-! ### Legal responses -/

/-- The response of a command that executed is legal, whatever its flags and data (30_encoding.md R87). -/
theorem legal_flagStatus (f : RegimeFlags) (d : Data64) : Response.legal ⟨flagStatus f, d⟩ = true := by
  have h : ∀ sr mr lr cl : Bool, (flagStatus ⟨sr, mr, lr, cl⟩).msb = false ∧
      (flagStatus ⟨sr, mr, lr, cl⟩).extractLsb' 4 3 = 0#3 := by decide
  obtain ⟨hmsb, hbits⟩ := h f.sr f.mr f.lr f.cl
  simp [Response.legal, hmsb, hbits]

/-- Every error response is legal (30_encoding.md R87, R89). -/
theorem legal_errorStatus (e : ErrorCode) : Response.legal ⟨errorStatus e, 0#64⟩ = true := by
  cases e <;> decide

/-- The operand checks of CONFIG let only legal configurations through (40_configuration.md R113). -/
theorem legal_of_checks {p : BitVec 5} {mode : Mode} {w64 : Bool} (hp : indexBitsOutOfRange p = false)
    (hm : modeNeedsWideHash mode w64 = false) : (Cfg.mk p mode w64 true).legal = true := by
  simp only [indexBitsOutOfRange, Bool.or_eq_false_iff, decide_eq_false_iff_not, not_lt] at hp
  simp only [modeNeedsWideHash, Bool.and_eq_false_iff, Bool.not_eq_false'] at hm
  simpa [Cfg.legal, hp] using hm

/-- An estimate in MODE 0 does not read the ROM (10_state.md R38). -/
theorem estimate_baseline_rom {ln : F64 → F64} {c : Cfg} {regs : RegFile} (rom rom' : BiasRom)
    (h : c.mode = .baseline) : estimate ln rom c regs = estimate ln rom' c regs := by
  simp [estimate, smallOrMidRange, h]

/-! ### The effects -/

/-- What a command can write, besides its response. -/
inductive Effect where
  | none
  | configure (w64 : Bool) (mode : Mode) (p : BitVec 5) (seed : Data64)
  | write (k : Nat) (v : RegVal)
  | release

/-- The state with an effect's writes made. -/
def Effect.apply : Effect → State → State
  | .none, s => s
  | .configure w64 mode p seed, s => s.configure w64 mode p seed
  | .write k v, s => { s with regs := s.regs.write k v }
  | .release, s => { s with cfg := Cfg.unconfigured, seed := 0#64 }

section
variable (f : Effect) (s : State)

@[simp] theorem Effect.apply_rq : (f.apply s).rq = s.rq := by cases f <;> rfl
@[simp] theorem Effect.apply_rom : (f.apply s).rom = s.rom := by cases f <;> rfl
@[simp] theorem Effect.apply_pending : (f.apply s).pending = s.pending := by cases f <;> rfl
@[simp] theorem Effect.apply_edges : (f.apply s).edges = s.edges := by cases f <;> rfl
@[simp] theorem Effect.apply_taken : (f.apply s).taken = s.taken := by cases f <;> rfl
@[simp] theorem Effect.apply_takenBefore : (f.apply s).takenBefore = s.takenBefore := by cases f <;> rfl
@[simp] theorem Effect.apply_resets : (f.apply s).resets = s.resets := by cases f <;> rfl

end

/-- Which command has the effect, and in which state: CONFIG starts a legal sketch where none is (40_configuration.md
R111), ADD writes the larger of the old value and a rho to the slot of a hash word (41_update.md R126), and RELEASE
always ends the sketch (40_configuration.md R115). -/
def Effect.Allowed (i : Instr) (s : State) : Effect → Prop
  | .none => True
  | .configure w64 mode p seed =>
    i = .config w64 mode p seed ∧ s.cfg.configured = false ∧ (Cfg.mk p mode w64 true).legal = true
  | .write k v => (∃ data, i = .add data) ∧ s.cfg.configured = true ∧ ∃ h, k = hashIndex s.cfg h ∧
    v = BitVec.ofNat 7 (max (s.regs.read k).toNat (hashRho s.cfg h))
  | .release => i = .release

/-- Two states agree on what a command reads: CFG always, the registers only of a live sketch, SEED for RDSEED alone,
the ROM for EST in MODE 1 alone. -/
structure ReadsAgree (i : Instr) (s s' : State) : Prop where
  cfg : s'.cfg = s.cfg
  regs : s.cfg.configured = true → s'.regs = s.regs
  seed : i = .rdseed → s'.seed = s.seed
  rom : i = .est → s.cfg.mode = .biasCorrected → s'.rom = s.rom

theorem ReadsAgree.refl (i : Instr) (s : State) : ReadsAgree i s s :=
  ⟨rfl, fun _ => rfl, fun _ => rfl, fun _ _ => rfl⟩

/-- On `s` and on every state that agrees with it on what `i` reads, the command has the effect `f` and the response
`r`. -/
structure Does (i : Instr) (s : State) (f : Effect) (r : Response) : Prop where
  allowed : f.Allowed i s
  legal : r.legal = true
  runs : ∀ s', ReadsAgree i s s' → exec i s' = .next ((f.apply s').respond r.status r.data)

theorem Does.run {i : Instr} {s : State} {f : Effect} {r : Response} (h : Does i s f r) :
    exec i s = .next ((f.apply s).respond r.status r.data) := h.runs s (.refl i s)

/-- A command that is refused in `s` for its configuration. -/
theorem does_error {i : Instr} {s : State} (e : ErrorCode)
    (h : ∀ s' : State, s'.cfg = s.cfg → exec i s' = .next (s'.raiseError e)) : ∃ f r, Does i s f r :=
  ⟨.none, ⟨errorStatus e, 0#64⟩, trivial, legal_errorStatus e, fun s' hs => h s' hs.cfg⟩

/-- A command that executes in `s` and writes nothing but its response. -/
theorem does_answer {i : Instr} {s : State} (fl : RegimeFlags) (d : Data64)
    (h : ∀ s' : State, ReadsAgree i s s' → exec i s' = .next (s'.respond (flagStatus fl) d)) :
    ∃ f r, Does i s f r :=
  ⟨.none, ⟨flagStatus fl, d⟩, trivial, legal_flagStatus fl d, h⟩

theorem config_does (w64 : Bool) (mode : Mode) (p : BitVec 5) (seed : Data64) (s : State) :
    ∃ f r, Does (.config w64 mode p seed) s f r := by
  cases hc : s.cfg.configured
  case true => exact does_error .alreadyConfigured fun s' h => by simp [exec, execConfig, h, hc]
  case false =>
    cases hp : indexBitsOutOfRange p
    case true => exact does_error .badConfig fun s' h => by simp [exec, execConfig, h, hc, hp]
    case false =>
      cases hm : modeNeedsWideHash mode w64
      case true => exact does_error .badConfig fun s' h => by simp [exec, execConfig, h, hc, hp, hm]
      case false =>
        refine ⟨.configure w64 mode p seed, ⟨okStatus, 0#64⟩, ⟨rfl, hc, legal_of_checks hp hm⟩,
          legal_flagStatus _ _, fun s' h => ?_⟩
        simp [exec, execConfig, h.cfg, hc, hp, hm, Effect.apply]

theorem add_does (data : Data64) (s : State) : ∃ f r, Does (.add data) s f r := by
  cases hc : s.cfg.configured
  case false => exact does_error .notConfigured fun s' h => by simp [exec, execAdd, h, hc]
  case true =>
    let h := hashWord s.cfg data
    let upd := decide ((s.regs.read (hashIndex s.cfg h)).toNat < hashRho s.cfg h)
    refine ⟨.write _ _, ⟨okStatus, addResponseData (hashIndex s.cfg h) upd (hashRho s.cfg h)⟩,
      ⟨⟨data, rfl⟩, hc, h, rfl, rfl⟩, legal_flagStatus _ _, fun s' hs => ?_⟩
    simp [exec, execAdd, hs.cfg, hs.regs hc, hc, Effect.apply, h, upd]

theorem est_does (s : State) : ∃ f r, Does .est s f r := by
  cases hc : s.cfg.configured
  case false => exact does_error .notConfigured fun s' h => by simp [exec, execEst, h, hc]
  case true =>
    let e := estimate Config.ln s.rom s.cfg s.regs
    refine does_answer e.flags e.value fun s' h => ?_
    have he : estimate Config.ln s'.rom s.cfg s.regs = e := by
      cases hm : s.cfg.mode
      case baseline => exact estimate_baseline_rom _ _ hm
      case biasCorrected => rw [h.rom rfl hm]
    simp [exec, execEst, h.cfg, h.regs hc, hc, he]

theorem rdreg_does (index : BitVec 16) (s : State) : ∃ f r, Does (.rdreg index) s f r := by
  cases hc : s.cfg.configured
  case false => exact does_error .notConfigured fun s' h => by simp [exec, execRdreg, h, hc]
  case true =>
    by_cases hi : s.cfg.m ≤ index.toNat
    · exact does_error .indexRange fun s' h => by simp [exec, execRdreg, h, hc, hi]
    · exact does_answer .none _ fun s' h => by simp only [exec, execRdreg, h.cfg, h.regs hc, hc, hi]; rfl

theorem rdseed_does (s : State) : ∃ f r, Does .rdseed s f r := by
  cases hc : s.cfg.configured
  case false => exact does_error .notConfigured fun s' h => by simp [exec, execRdseed, h, hc]
  case true => exact does_answer .none s.seed fun s' h => by simp [exec, execRdseed, h.cfg, h.seed rfl, hc, okStatus]

/-- Every command has an effect and a response, fixed by what it reads. -/
theorem exec_does (i : Instr) (s : State) : ∃ f r, Does i s f r := by
  cases i with
  | nop => exact does_answer .none 0#64 fun _ _ => rfl
  | config w64 mode p seed => exact config_does w64 mode p seed s
  | add data => exact add_does data s
  | est => exact est_does s
  | rdreg index => exact rdreg_does index s
  | rdstat =>
    exact does_answer .none (s.cfg.image.zeroExtend 64) fun s' h => by simp [exec, execRdstat, h.cfg, okStatus]
  | rdseed => exact rdseed_does s
  | release => exact ⟨.release, ⟨okStatus, 0#64⟩, rfl, legal_flagStatus _ _, fun _ _ => rfl⟩
  | illegal op rest => exact does_error .illegalOp fun _ _ => rfl

/-- The same of an accepted command; one that the decoder refuses reads and writes as NOP does. -/
theorem runCommand_does (c : Command) (s : State) : ∃ (i : Instr) (f : Effect) (r : Response),
    f.Allowed i s ∧ r.legal = true ∧
    ∀ s', ReadsAgree i s s' → runCommand c s' = .next ((f.apply s').respond r.status r.data) := by
  unfold runCommand
  cases decodeCommand c with
  | ok i =>
    obtain ⟨f, r, h⟩ := exec_does i s
    exact ⟨i, f, r, h.allowed, h.legal, h.runs⟩
  | error e => exact ⟨.nop, .none, ⟨errorStatus e, 0#64⟩, trivial, legal_errorStatus e, fun _ _ => rfl⟩

/-! ### What commands write and do not read -/

/-- Settles O31: each effect belongs to its command, and no effect touches the other fields. -/
theorem stateChangesOnlyByItsCommands : Obligations.StateChangesOnlyByItsCommands := by
  intro s t i h
  obtain ⟨f, r, hd⟩ := exec_does i s
  obtain rfl := Host.Outcome.next.inj (hd.run.symm.trans h)
  have ha := hd.allowed
  refine ⟨fun hregs => ?_, fun hcfg => ?_, by simp, by simp, by simp, by simp, by simp, by simp⟩
  · cases f with
    | none => exact absurd rfl hregs
    | configure w64 mode p seed => exact .inl ⟨w64, mode, p, seed, ha.1⟩
    | write k v => exact .inr ha.1
    | release => exact absurd rfl hregs
  · cases f with
    | none => simp [Effect.apply] at hcfg
    | configure w64 mode p seed => exact .inl ⟨w64, mode, p, seed, ha.1⟩
    | write k v => simp [Effect.apply] at hcfg
    | release => exact .inr ha

/-- Settles O34: only RDSEED reads SEED, and no effect carries it into another field. -/
theorem seedAffectsNothing : Obligations.SeedAffectsNothing := by
  intro s i x hi
  obtain ⟨f, r, hd⟩ := exec_does i s
  have hx : ReadsAgree i s { s with seed := x } := ⟨rfl, fun _ => rfl, fun h => absurd h hi, fun _ _ => rfl⟩
  refine ⟨_, _, hd.run, hd.runs _ hx, by simp, ?_, ?_, by simp⟩ <;> cases f <;> rfl

/-- Settles O55: only EST in MODE 1 reads the ROM, and every effect leaves it as it is. -/
theorem romIsReadOnlyByCorrectedEstimate : Obligations.RomIsReadOnlyByCorrectedEstimate := by
  intro s i rom hi
  obtain ⟨f, r, hd⟩ := exec_does i s
  have hrom : ReadsAgree i s { s with rom := rom } :=
    ⟨rfl, fun _ => rfl, fun _ => rfl, fun he hm => by simp [he, hm] at hi⟩
  refine ⟨_, _, hd.run, hd.runs _ hrom, ?_⟩
  cases f <;> rfl

end Sys2Proof.Machine
end

section
/-! SUPPORT. What a step can do, said once in terms of the effects, and from it the invariant of every reachable
state (10_state.md R32 to R35, R42) and the growth of the registers (R33). -/

namespace Sys2Proof.Machine

/-! ### The shape of a step -/

theorem executeOldest_nil {s : State} (hp : s.pending = []) : executeOldest s = .next s := by
  simp [executeOldest, hp]

theorem executeOldest_full {s : State} (hq : rqFull s.rq = true) : executeOldest s = .next s := by
  unfold executeOldest
  cases s.pending <;> simp [hq]

theorem executeOldest_cons {s : State} {c : Command} {cs : List Command} (hp : s.pending = c :: cs)
    (hq : rqFull s.rq = false) : executeOldest s = runCommand c { s with pending := cs } := by
  simp [executeOldest, hp, hq]

/-- RQ is full at RQ_DEPTH entries (10_state.md R42). -/
theorem rqFull_eq (q : List Response) : rqFull q = decide (Config.rqDepth ≤ q.length) := by
  cases q <;> simp [rqFull, Config.rqDepth]

/-- The state in which the oldest command of an edge runs: the transfers are made, and `cs` are still accepted. -/
abbrev State.atExecution (s : State) (e : Edge) (es : List Edge) (cs : List Command) : State :=
  { transfers e { s with edges := es } with pending := cs }

/-- Every way a step can lead from one state to another. -/
inductive StepsTo (s : State) : State → Prop where
  | idle : StepsTo s s
  | reset (es : List Edge) : StepsTo s (State.resetEdge { s with edges := es })
  | transfer (e : Edge) (es : List Edge) : StepsTo s (transfers e { s with edges := es })
  | execute (e : Edge) (es : List Edge) (cs : List Command) (i : Instr) (f : Effect) (r : Response)
    (room : (s.atExecution e es cs).rq.length < Config.rqDepth) (allowed : f.Allowed i (s.atExecution e es cs))
    (legal : Response.legal r = true) :
    StepsTo s ((f.apply (s.atExecution e es cs)).respond r.status r.data)

theorem stepsTo_of_step {s t : State} (h : step s = .next t) : StepsTo s t := by
  obtain ⟨-, rfl⟩ | ⟨e, es, -, h⟩ := step_cases h
  · exact .idle
  · obtain ⟨-, rfl⟩ | ⟨-, rfl⟩ | ⟨-, -, c, cs, -, hroom, hrun⟩ := clockEdge_cases h
    · exact .reset es
    · exact .transfer e es
    · obtain ⟨i, f, r, ha, hl, hr⟩ := runCommand_does c (s.atExecution e es cs)
      obtain rfl := Host.Outcome.next.inj ((hr _ (.refl i _)).symm.trans hrun)
      exact .execute e es cs i f r (by simpa [rqFull_eq] using hroom) ha hl

/-! ### The value ADD writes -/

/-- Under a legal configuration the value ADD writes fits its slot. -/
theorem toNat_raised {c : Cfg} (hc : c.legal = true) (old : RegVal) (h : Nat) :
    (BitVec.ofNat 7 (max old.toNat (hashRho c h))).toNat = max old.toNat (hashRho c h) := by
  have := hashRho_range hc h
  have := old.isLt
  rw [BitVec.toNat_ofNat, Nat.mod_eq_of_lt (by omega)]

/-! ### The invariant -/

namespace State.Inv
variable {s : State}

theorem withEdges (h : s.Inv) (es : List Edge) : State.Inv { s with edges := es } := { h with }

theorem withPending (h : s.Inv) (cs : List Command) : State.Inv { s with pending := cs } := { h with }

/-- A reset gives a state without a sketch and without a response, whose free values are the newest. -/
theorem resetEdge (h : s.Inv) : s.resetEdge.Inv where
  regs_canonical := rfl
  unconfigured_zero := fun _ => ⟨rfl, rfl⟩
  configured_legal := fun hc => by cases hc
  registers_bounded := fun hc => by cases hc
  upper_slots_zero := fun hc => by cases hc
  queue_bounded := Nat.zero_le _
  responses_legal := fun r hr => h.responses_legal r (List.mem_append_left _ (by simpa using hr))
  free_values_fresh := fun n hn => by
    obtain rfl : s.resets = n := by simpa using hn
    exact Nat.lt_succ_self _

/-- The transfers only move responses from RQ to the host. -/
theorem transfers (h : s.Inv) (e : Edge) : (transfers e s).Inv where
  regs_canonical := by simpa using h.regs_canonical
  unconfigured_zero := by simpa using h.unconfigured_zero
  configured_legal := by simpa using h.configured_legal
  registers_bounded := by simpa using h.registers_bounded
  upper_slots_zero := by simpa using h.upper_slots_zero
  queue_bounded := (transfers_rq_length s e).trans h.queue_bounded
  responses_legal := by simpa [-List.mem_append, List.append_assoc] using h.responses_legal
  free_values_fresh := by simpa using h.free_values_fresh

/-- A legal response finds room in RQ. -/
theorem respond (h : s.Inv) (hroom : s.rq.length < Config.rqDepth) {r : Response} (hr : r.legal = true) :
    (s.respond r.status r.data).Inv where
  regs_canonical := h.regs_canonical
  unconfigured_zero := h.unconfigured_zero
  configured_legal := h.configured_legal
  registers_bounded := h.registers_bounded
  upper_slots_zero := h.upper_slots_zero
  queue_bounded := by simpa using hroom
  responses_legal := fun q hq => by
    rw [respond_takenBefore, respond_taken, respond_rq, ← List.append_assoc] at hq
    obtain hq | hq := List.mem_append.1 hq
    · exact h.responses_legal q hq
    · exact List.mem_singleton.1 hq ▸ hr
  free_values_fresh := h.free_values_fresh

/-- CONFIG writes a legal configuration and clears every slot (40_configuration.md R112). -/
theorem configure (h : s.Inv) {w64 : Bool} {mode : Mode} {p : BitVec 5} (seed : Data64)
    (hl : (Cfg.mk p mode w64 true).legal = true) : (s.configure w64 mode p seed).Inv where
  regs_canonical := rfl
  unconfigured_zero := fun hc => by cases hc
  configured_legal := fun _ => hl
  registers_bounded := fun _ i _ => by simp
  upper_slots_zero := fun _ i _ => by simp
  queue_bounded := h.queue_bounded
  responses_legal := h.responses_legal
  free_values_fresh := fun n hn => by cases hn

/-- ADD writes a slot below m, with a value at most W − P + 1 (10_state.md R32). -/
theorem write (h : s.Inv) (hc : s.cfg.configured = true) {k : Nat} {v : RegVal} (hk : k < s.cfg.m)
    (hv : v.toNat ≤ s.cfg.remWidth + 1) : State.Inv { s with regs := s.regs.write k v } where
  regs_canonical := RegFile.wf_write _ _ _ h.regs_canonical (hk.trans_le (legal_widths (h.configured_legal hc)).1)
  unconfigured_zero := h.unconfigured_zero
  configured_legal := h.configured_legal
  registers_bounded := fun _ i hi => by
    by_cases hik : i = k
    · simpa only [hik, RegFile.read_write_same _ _ _ h.regs_canonical] using hv
    · simpa only [RegFile.read_write_other _ _ _ _ h.regs_canonical hik] using h.registers_bounded hc i hi
  upper_slots_zero := fun _ i hi => by
    simpa only [RegFile.read_write_other _ _ _ _ h.regs_canonical (hk.trans_le hi).ne'] using h.upper_slots_zero hc i hi
  queue_bounded := h.queue_bounded
  responses_legal := h.responses_legal
  free_values_fresh := fun n hn => h.free_values_fresh n (by simpa using hn)

/-- RELEASE clears CFG and SEED and says nothing more of the slots (40_configuration.md R115). -/
theorem release (h : s.Inv) : State.Inv { s with cfg := Cfg.unconfigured, seed := 0#64 } where
  regs_canonical := h.regs_canonical
  unconfigured_zero := fun _ => ⟨rfl, rfl⟩
  configured_legal := fun hc => by cases hc
  registers_bounded := fun hc => by cases hc
  upper_slots_zero := fun hc => by cases hc
  queue_bounded := h.queue_bounded
  responses_legal := h.responses_legal
  free_values_fresh := h.free_values_fresh

theorem apply (h : s.Inv) {f : Effect} {i : Instr} (ha : f.Allowed i s) : (f.apply s).Inv := by
  cases f with
  | none => exact h
  | configure w64 mode p seed => exact h.configure seed ha.2.2
  | write k v =>
    obtain ⟨-, hc, x, rfl, rfl⟩ := ha
    have hl := h.configured_legal hc
    refine h.write hc (hashIndex_lt _ _) ?_
    rw [toNat_raised hl]
    exact max_le (h.registers_bounded hc _ (hashIndex_lt _ _)) (hashRho_range hl x).2.1
  | release => exact h.release

theorem atExecution (h : s.Inv) (e : Edge) (es : List Edge) (cs : List Command) : (s.atExecution e es cs).Inv :=
  ((h.withEdges es).transfers e).withPending cs

end State.Inv

/-- Settles O29: each way a step can go keeps the invariant. -/
theorem stepKeepsInvariant : Obligations.StepKeepsInvariant := by
  intro s t h hstep
  cases stepsTo_of_step hstep with
  | idle => exact h
  | reset es => exact (h.withEdges es).resetEdge
  | transfer e es => exact (h.withEdges es).transfers e
  | execute e es cs i f r room allowed legal =>
    exact ((h.atExecution e es cs).apply allowed).respond (by simpa using room) legal

/-- Settles O28: at reset no sketch and no response exist. -/
theorem resetMeetsInvariant : Obligations.ResetMeetsInvariant where
  regs_canonical := rfl
  unconfigured_zero := fun _ => ⟨rfl, rfl⟩
  configured_legal := fun hc => by cases hc
  registers_bounded := fun hc => by cases hc
  upper_slots_zero := fun hc => by cases hc
  queue_bounded := Nat.zero_le _
  responses_legal := fun r hr => by cases hr
  free_values_fresh := fun n hn => by cases hn; exact Nat.zero_lt_one

/-- No effect that leaves the sketch alive lowers a register. -/
theorem Effect.read_le_apply {f : Effect} {i : Instr} {s : State} (h : s.Inv) (hc : s.cfg.configured = true)
    (ha : f.Allowed i s) (ht : (f.apply s).cfg.configured = true) (k : Nat) :
    (s.regs.read k).toNat ≤ ((f.apply s).regs.read k).toNat := by
  cases f with
  | none => exact le_rfl
  | configure w64 mode p seed => exact absurd (ha.2.1.symm.trans hc) Bool.false_ne_true
  | write j v =>
    obtain ⟨-, -, x, rfl, rfl⟩ := ha
    by_cases hk : k = hashIndex s.cfg x
    · simp [Effect.apply, hk, RegFile.read_write_same _ _ _ h.regs_canonical, toNat_raised (h.configured_legal hc)]
    · simp [Effect.apply, RegFile.read_write_other _ _ _ _ h.regs_canonical hk]
  | release => cases ht

/-- Settles O30: a step that leaves the sketch alive is idle, a transfer or one effect. -/
theorem registersNeverDecrease : Obligations.RegistersNeverDecrease := by
  intro s t h hc hstep ht k
  cases stepsTo_of_step hstep with
  | idle => exact le_rfl
  | reset es => cases ht
  | transfer e es => simp
  | execute e es cs i f r room allowed legal =>
    simpa using Effect.read_le_apply (h.atExecution e es cs) (by simpa using hc) allowed ht k

end Sys2Proof.Machine
end

section
/-! SUPPORT. Without a sketch the register slots are hidden: no step reads them, and a CONFIG overwrites them all
(10_state.md R46). Two runs that differ in them alone are kept in step by the relation `HiddenDiffer`. -/

namespace Sys2Proof.Machine

/-- The states are the same but for the register array, and that too is the same while a sketch exists. -/
def HiddenDiffer (s u : State) : Prop :=
  ∃ rg : RegFile, u = { s with regs := rg } ∧ (s.cfg.configured = true → rg = s.regs)

theorem HiddenDiffer.refl (s : State) : HiddenDiffer s s := ⟨s.regs, rfl, fun _ => rfl⟩

theorem HiddenDiffer.of_unconfigured {s : State} (h : s.cfg.configured = false) (rg : RegFile) :
    HiddenDiffer s { s with regs := rg } := ⟨rg, rfl, fun hc => by simp [h] at hc⟩

theorem HiddenDiffer.readsAgree {s u : State} (h : HiddenDiffer s u) (i : Instr) : ReadsAgree i s u := by
  obtain ⟨rg, rfl, hrg⟩ := h
  exact ⟨rfl, hrg, fun _ => rfl, fun _ _ => rfl⟩

theorem HiddenDiffer.withEdges {s u : State} (h : HiddenDiffer s u) (es : List Edge) :
    HiddenDiffer { s with edges := es } { u with edges := es } := by
  obtain ⟨rg, rfl, hrg⟩ := h
  exact ⟨rg, rfl, hrg⟩

theorem HiddenDiffer.withPending {s u : State} (h : HiddenDiffer s u) (cs : List Command) :
    HiddenDiffer { s with pending := cs } { u with pending := cs } := by
  obtain ⟨rg, rfl, hrg⟩ := h
  exact ⟨rg, rfl, hrg⟩

/-- After a reset nothing is left of the difference: every slot holds a new free value. -/
theorem HiddenDiffer.resetEdge_eq {s u : State} (h : HiddenDiffer s u) : u.resetEdge = s.resetEdge := by
  obtain ⟨rg, rfl, -⟩ := h
  rfl

theorem takeResponse_withRegs (s : State) (rg : RegFile) :
    State.takeResponse { s with regs := rg } = { s.takeResponse with regs := rg } := by
  cases hq : s.rq <;> simp [State.takeResponse, hq]

/-- The transfers neither read nor write the registers. -/
theorem transfers_withRegs (e : Edge) (s : State) (rg : RegFile) :
    transfers e { s with regs := rg } = { transfers e s with regs := rg } := by
  have hd : State.delivers { s with regs := rg } e = s.delivers e := rfl
  have ha : State.accepts { s with regs := rg } e = s.accepts e := rfl
  simp only [transfers, hd, ha, takeResponse_withRegs]
  cases s.delivers e <;> cases s.accepts e <;> rfl

theorem HiddenDiffer.transfers {s u : State} (h : HiddenDiffer s u) (e : Edge) :
    HiddenDiffer (transfers e s) (transfers e u) := by
  obtain ⟨rg, rfl, hrg⟩ := h
  exact ⟨rg, transfers_withRegs e s rg, by simpa using hrg⟩

/-- An effect and its response keep the relation: CONFIG makes the arrays equal, and ADD runs only where they are. -/
theorem HiddenDiffer.apply_respond {s u : State} (h : HiddenDiffer s u) {i : Instr} {f : Effect}
    (ha : f.Allowed i s) (st : Status) (d : Data64) :
    HiddenDiffer ((f.apply s).respond st d) ((f.apply u).respond st d) := by
  obtain ⟨rg, rfl, hrg⟩ := h
  cases f with
  | none => exact ⟨rg, rfl, hrg⟩
  | configure w64 mode p seed => exact .refl _
  | write k v =>
    obtain rfl := hrg ha.2.1
    exact .refl _
  | release => exact .of_unconfigured rfl rg

/-- Both runs go on, to related states. -/
def BothGoOn (o o' : Host.Outcome State Fault Refusal) : Prop :=
  ∃ t v, o = .next t ∧ o' = .next v ∧ HiddenDiffer t v

theorem HiddenDiffer.bothGoOn {s u : State} (h : HiddenDiffer s u) : BothGoOn (.next s) (.next u) :=
  ⟨s, u, rfl, rfl, h⟩

theorem HiddenDiffer.runCommand {s u : State} (h : HiddenDiffer s u) (c : Command) :
    BothGoOn (runCommand c s) (runCommand c u) := by
  obtain ⟨i, f, r, ha, -, hr⟩ := runCommand_does c s
  exact ⟨_, _, hr s (.refl i s), hr u (h.readsAgree i), h.apply_respond ha _ _⟩

theorem HiddenDiffer.executeOldest {s u : State} (h : HiddenDiffer s u) :
    BothGoOn (executeOldest s) (executeOldest u) := by
  have hpu : u.pending = s.pending := by obtain ⟨rg, rfl, -⟩ := h; rfl
  have hqu : u.rq = s.rq := by obtain ⟨rg, rfl, -⟩ := h; rfl
  cases hp : s.pending with
  | nil =>
    rw [executeOldest_nil hp, executeOldest_nil (hpu.trans hp)]
    exact h.bothGoOn
  | cons c cs =>
    cases hq : rqFull s.rq
    case true =>
      rw [executeOldest_full hq, executeOldest_full (hqu ▸ hq)]
      exact h.bothGoOn
    case false =>
      rw [executeOldest_cons hp hq, executeOldest_cons (hpu.trans hp) (hqu ▸ hq)]
      exact HiddenDiffer.runCommand (h.withPending cs) c

theorem HiddenDiffer.clockEdge {s u : State} (h : HiddenDiffer s u) (e : Edge) :
    BothGoOn (clockEdge e s) (clockEdge e u) := by
  unfold Machine.clockEdge
  split
  · rw [h.resetEdge_eq]
    exact (HiddenDiffer.refl _).bothGoOn
  · split
    · exact (h.transfers e).executeOldest
    · exact (h.transfers e).bothGoOn

theorem HiddenDiffer.step {s u : State} (h : HiddenDiffer s u) : BothGoOn (step s) (step u) := by
  have he : u.edges = s.edges := by obtain ⟨rg, rfl, -⟩ := h; rfl
  unfold Machine.step
  rw [he]
  split
  · exact h.bothGoOn
  · exact (h.withEdges _).clockEdge _

theorem HiddenDiffer.advance {s u : State} (h : HiddenDiffer s u) : HiddenDiffer (advance s) (advance u) := by
  obtain ⟨t, v, hs, hu, htv⟩ := h.step
  simpa [Machine.advance, hs, hu] using htv

theorem HiddenDiffer.after (n : Nat) {s u : State} (h : HiddenDiffer s u) : HiddenDiffer (after n s) (after n u) := by
  induction n generalizing s u with
  | zero => exact h
  | succ n ih => exact ih h.advance

/-- Settles O35: the relation holds at the start and every step keeps it. -/
theorem hiddenSlotsAreUnobservable : Obligations.HiddenSlotsAreUnobservable := by
  intro n s rg hc
  obtain ⟨rg', hu, hrg⟩ := (HiddenDiffer.of_unconfigured hc rg).after n
  simp only [hu, true_and]
  exact hrg

end Sys2Proof.Machine
end

section
/-! SUPPORT. The values after reset (10_state.md R45, R46) and the table of alpha64 (R36). -/

namespace Sys2Proof.Machine

/-- Settles O24: each value is the one `State.reset` gives. -/
theorem resetValues : Obligations.ResetValues := ⟨rfl, rfl, rfl, rfl, rfl, rfl, rfl, rfl, rfl⟩

/-- A step at a reset edge is the reset (70_reset_and_hazards.md R190). -/
theorem step_reset {s : State} {e : Edge} {es : List Edge} (he : s.edges = e :: es) (hr : e.rst = true) :
    step s = .next (State.resetEdge { s with edges := es }) := by
  simp [step, he, clockEdge, hr]

/-- An array with no entry holds its fill. -/
theorem RegFile.read_unwritten (fill : Fill) (k : Nat) : (RegFile.mk fill []).read k = fill.value k := rfl

/-- Settles O25: the array after a reset has no entry, and its fill has the reset's number. -/
theorem resetLeavesSlotsUnspecified : Obligations.ResetLeavesSlotsUnspecified := by
  refine ⟨fun k => RegFile.read_unwritten _ k, fun s t e es he hr ht => ?_⟩
  obtain rfl := Host.Outcome.next.inj ((step_reset he hr).symm.trans ht)
  exact ⟨fun k => RegFile.read_unwritten _ k, rfl⟩

/-- Settles O45, by computing the thirteen values. -/
theorem alphaConstants : Obligations.AlphaConstants := by
  unfold Obligations.AlphaConstants
  decide +kernel

end Sys2Proof.Machine
end

section
/-! SUPPORT. The block against the atomic machine (20_memory.md R67, R68). Without reset every step executes a
beginning, of at most one command, of the commands accepted by then; these beginnings are joined over a run. -/

namespace Sys2Proof.Machine

/-! ### States that the block does not tell apart -/

/-- The states agree on CFG, SEED, REG, the ROM and the responses taken and waiting: they may differ in which of
these responses still wait, and in the commands and edges to come. -/
structure SameBlock (s u : State) : Prop where
  cfg : u.cfg = s.cfg
  seed : u.seed = s.seed
  regs : u.regs = s.regs
  rom : u.rom = s.rom
  log : u.taken ++ u.rq = s.taken ++ s.rq

theorem SameBlock.refl (s : State) : SameBlock s s := ⟨rfl, rfl, rfl, rfl, rfl⟩

theorem SameBlock.trans {s u v : State} (h : SameBlock s u) (h' : SameBlock u v) : SameBlock s v :=
  ⟨h'.cfg.trans h.cfg, h'.seed.trans h.seed, h'.regs.trans h.regs, h'.rom.trans h.rom, h'.log.trans h.log⟩

/-- The transfers of an edge move responses to the host and commands to the block, and do no more. -/
theorem SameBlock.atExecution (s : State) (e : Edge) (es : List Edge) (cs : List Command) :
    SameBlock s (s.atExecution e es cs) := by
  constructor <;> simp

theorem SameBlock.runCommand {s u : State} (h : SameBlock s u) (c : Command) :
    ∃ t v, runCommand c s = .next t ∧ runCommand c u = .next v ∧ SameBlock t v := by
  obtain ⟨cfg, seed, regs, r, hr⟩ := runCommand_local c s
  refine ⟨_, _, hr s rfl rfl rfl rfl, hr u h.cfg h.seed h.regs h.rom, rfl, rfl, rfl, h.rom, ?_⟩
  simp only [← List.append_assoc, h.log]

/-! ### The atomic machine -/

/-- An accepted command runs as what it decodes to (30_encoding.md R92). -/
theorem runCommand_of_decode {c : Command} {i : Instr} (h : decodeCommand c = .ok i) (s : State) :
    runCommand c s = exec i s := by
  simp [runCommand, h]

theorem atomically_cons {c : Command} {s t : State} (h : runCommand c s = .next t) (cs : List Command) :
    atomically (c :: cs) s = atomically cs t := by
  simp [atomically, h]

theorem atomically_append (cs ds : List Command) (s : State) :
    atomically (cs ++ ds) s = atomically ds (atomically cs s) := by
  induction cs generalizing s with
  | nil => rfl
  | cons c cs ih =>
    obtain ⟨_, _, _, _, ht⟩ := runCommand_next c s
    rw [List.cons_append, atomically_cons ht, atomically_cons ht, ih]

theorem SameBlock.atomically {s u : State} (h : SameBlock s u) (cs : List Command) :
    SameBlock (atomically cs s) (atomically cs u) := by
  induction cs generalizing s u with
  | nil => exact h
  | cons c cs ih =>
    obtain ⟨t, v, hs, hu, htv⟩ := h.runCommand c
    rw [atomically_cons hs, atomically_cons hu]
    exact ih htv

/-- Each command appends one response to those taken and waiting (20_memory.md R68). -/
theorem atomically_log_length (cs : List Command) (s : State) :
    ((atomically cs s).taken ++ (atomically cs s).rq).length = (s.taken ++ s.rq).length + cs.length := by
  induction cs generalizing s with
  | nil => rfl
  | cons c cs ih =>
    obtain ⟨_, _, _, _, ht⟩ := runCommand_next c s
    rw [atomically_cons ht, ih]
    simp
    omega

/-! ### A step and a run without reset -/

/-- The block goes on at every step, as the step lemma of `HiddenDiffer` says of a state and itself. -/
theorem step_advance (s : State) : step s = .next (advance s) := by
  obtain ⟨t, -, ht, -⟩ := (HiddenDiffer.refl s).step
  rw [ht, advance, ht]

/-- The transfers of an edge put the command accepted at it behind the earlier ones. -/
theorem transfers_pending_acceptedNow {s : State} {e : Edge} {es : List Edge} (he : s.edges = e :: es) :
    (transfers e { s with edges := es }).pending = s.pending ++ acceptedNow s := by
  have ha : State.accepts { s with edges := es } e = s.accepts e := rfl
  simp [acceptedNow, he, ha]

/-- From `s` to `t` the commands of `cs`, a beginning of the accepted ones, are executed atomically. -/
def Executes (s : State) (cs accepted : List Command) (t : State) : Prop :=
  s.pending ++ accepted = cs ++ t.pending ∧ SameBlock (atomically cs s) t

/-- One step without reset executes no command, or the oldest one. -/
theorem advance_executes (s : State) (hr : ∀ e ∈ s.edges.take 1, e.rst = false) :
    (advance s).edges = s.edges.tail ∧ ∃ cs, Executes s cs (acceptedNow s) (advance s) := by
  obtain ⟨he, ht⟩ | ⟨e, es, he, hedge⟩ := step_cases (step_advance s)
  · rw [ht]
    exact ⟨by simp [he], [], by simp [acceptedNow, he], .refl s⟩
  · have hp := transfers_pending_acceptedNow he
    obtain ⟨hrst, -⟩ | ⟨-, ht⟩ | ⟨-, -, c, cs, hcs, -, hrun⟩ := clockEdge_cases hedge
    · simp [hr e (by simp [he])] at hrst
    · rw [ht]
      exact ⟨by simp [he], [], hp.symm, .atExecution s e es _⟩
    · obtain ⟨t, v, hs, hu, htv⟩ := (SameBlock.atExecution s e es cs).runCommand c
      obtain ⟨_, _, _, _, hnext⟩ := runCommand_next c (s.atExecution e es cs)
      have hframe := Host.Outcome.next.inj (hrun.symm.trans hnext)
      obtain rfl := Host.Outcome.next.inj (hrun.symm.trans hu)
      refine ⟨by simp [hframe, he], [c], ?_, ?_⟩
      · rw [← hp, hcs, hframe]; rfl
      · rw [atomically_cons hs]; exact htv

/-- A run without reset executes a beginning of the commands accepted before and in it. -/
theorem after_executes (n : Nat) (s : State) (hr : ∀ e ∈ s.edges.take n, e.rst = false) :
    ∃ cs, Executes s cs (acceptedWithin n s) (after n s) := by
  induction n generalizing s with
  | zero => exact ⟨[], by simp [acceptedWithin, after], .refl s⟩
  | succ n ih =>
    have hfirst : ∀ e ∈ s.edges.take 1, e.rst = false := fun e he =>
      hr e ((List.take_sublist_take_left (Nat.le_add_left 1 n)).subset he)
    obtain ⟨hedges, cs, hpending, hsame⟩ := advance_executes s hfirst
    have hlater : ∀ e ∈ (advance s).edges.take n, e.rst = false := fun e he =>
      by
      rw [hedges, ← List.drop_one] at he
      exact hr e (List.mem_of_mem_drop (i := 1) (by rwa [List.drop_take]))
    obtain ⟨ds, hpending', hsame'⟩ := ih (advance s) hlater
    refine ⟨cs ++ ds, ?_, ?_⟩
    · rw [acceptedWithin, after, ← List.append_assoc, hpending, List.append_assoc, hpending', List.append_assoc]
    · rw [atomically_append, after]
      exact (hsame.atomically ds).trans hsame'

/-- Settles O32: the executed beginning is the one of `after_executes`. -/
theorem commandsExecuteAtomicallyInOrder : Obligations.CommandsExecuteAtomicallyInOrder := by
  intro n s hr
  obtain ⟨cs, hpending, hsame⟩ := after_executes n s hr
  refine ⟨cs.length, ?_⟩
  simp only [hpending, List.take_left, List.drop_left, List.length_append, Nat.le_add_right, true_and]
  exact ⟨hsame.cfg, hsame.seed, hsame.regs, hsame.rom, hsame.log⟩

/-- Settles O26: the executed commands have a response each, the other accepted ones are pending. -/
theorem oneResponsePerCommand : Obligations.OneResponsePerCommand := by
  intro n s hr
  obtain ⟨cs, hpending, hsame⟩ := after_executes n s hr
  have hcount : s.pending.length + (acceptedWithin n s).length = cs.length + (after n s).pending.length := by
    simpa using congrArg List.length hpending
  rw [hsame.log, atomically_log_length]
  omega

end Sys2Proof.Machine
end

section
/-! SUPPORT. What a read command leaves alone (20_memory.md R64), and that registers raised
by a list of hash words depend on its set alone (R69, 41_update.md R127). -/

namespace Sys2Proof.Machine

/-! ### Commands that only read -/

/-- The commands of 20_memory.md R64, which change nothing. -/
def OnlyReads (i : Instr) : Prop :=
  i = .nop ∨ i = .est ∨ (∃ k, i = .rdreg k) ∨ i = .rdstat ∨ i = .rdseed

/-- They have no effect: each effect belongs to another command. -/
theorem Effect.eq_none {f : Effect} {i : Instr} {s : State} (ha : f.Allowed i s)
    (hi : OnlyReads i) : f = .none := by
  cases f with
  | none => rfl
  | configure w64 mode p seed => simp [OnlyReads, ha.1] at hi
  | write k v =>
    obtain ⟨⟨d, rfl⟩, -⟩ := ha
    simp [OnlyReads] at hi
  | release => simp [OnlyReads, show i = .release from ha] at hi

/-- A read command gives the same response, and does no more, in all states that agree on what it reads. -/
theorem read_responds {i : Instr} (hi : OnlyReads i)
    (s : State) : ∃ r : Response, ∀ s', ReadsAgree i s s' → exec i s' = .next { s' with rq := s'.rq ++ [r] } := by
  obtain ⟨f, r, hd⟩ := exec_does i s
  obtain rfl := Effect.eq_none hd.allowed hi
  exact ⟨r, hd.runs⟩

/-! ### Raising registers -/

/-- The registers after one hash word: ADD's rule (41_update.md R126). -/
def RegFile.raise (c : Cfg) (rg : RegFile) (h : Nat) : RegFile :=
  rg.write (hashIndex c h) (BitVec.ofNat 7 (max (rg.read (hashIndex c h)).toNat (hashRho c h)))

@[simp] theorem RegFile.raise_fill (c : Cfg) (rg : RegFile) (h : Nat) : (rg.raise c h).fill = rg.fill :=
  RegFile.write_fill _ _ _

@[simp] theorem RegFile.foldl_raise_fill (c : Cfg) (rg : RegFile) (hs : List Nat) :
    (hs.foldl (RegFile.raise c) rg).fill = rg.fill := by
  induction hs generalizing rg with
  | nil => rfl
  | cons h hs ih => exact (ih _).trans (rg.raise_fill c h)

/-- The state with the registers raised by a list of hash words and with more responses. -/
def State.raised (s : State) (hs : List Nat) (rs : List Response) : State :=
  { s with regs := hs.foldl (RegFile.raise s.cfg) s.regs, rq := s.rq ++ rs }

theorem State.raised_raised (s : State) (hs hs' : List Nat) (rs rs' : List Response) :
    (s.raised hs rs).raised hs' rs' = s.raised (hs ++ hs') (rs ++ rs') := by
  simp [State.raised]

/-- ADD on a sketch raises the registers by its hash word and answers. -/
theorem exec_add {s : State} (hc : s.cfg.configured = true) (d : Data64) : ∃ r : Response,
    exec (.add d) s = .next (s.raised [hashWord s.cfg d] [r]) :=
  ⟨_, by simp only [exec, execAdd, hc]; rfl⟩

/-- ADD without a sketch is refused. -/
theorem exec_add_unconfigured {s : State} (hc : s.cfg.configured = false) (d : Data64) :
    exec (.add d) s = .next (s.raiseError .notConfigured) := by
  simp [exec, execAdd, hc]

section
variable {c : Cfg} (hl : c.legal = true) {rg : RegFile} (hwf : rg.wf = true)
include hl hwf

theorem RegFile.wf_raise (h : Nat) : (rg.raise c h).wf = true :=
  RegFile.wf_write _ _ _ hwf ((hashIndex_lt c h).trans_le (legal_widths hl).1)

/-- The slot of the hash word becomes the larger of its value and the rho, the others stay. -/
theorem RegFile.read_raise (h k : Nat) : ((rg.raise c h).read k).toNat =
    if hashIndex c h = k then max (rg.read k).toNat (hashRho c h) else (rg.read k).toNat := by
  split
  case isTrue hk =>
    subst hk
    rw [RegFile.raise, RegFile.read_write_same _ _ _ hwf, toNat_raised hl]
  case isFalse hk => rw [RegFile.raise, RegFile.read_write_other _ _ _ _ hwf (Ne.symm hk)]

theorem RegFile.wf_foldl_raise (hs : List Nat) : (hs.foldl (RegFile.raise c) rg).wf = true := by
  induction hs generalizing rg with
  | nil => exact hwf
  | cons h hs ih => exact ih (RegFile.wf_raise hl hwf h)

/-- The value of a raised slot, by its upper bounds: the list of hash words occurs in it only through membership. -/
theorem RegFile.read_foldl_raise_le_iff (hs : List Nat) (k b : Nat) :
    ((hs.foldl (RegFile.raise c) rg).read k).toNat ≤ b ↔
      (rg.read k).toNat ≤ b ∧ ∀ h ∈ hs, hashIndex c h = k → hashRho c h ≤ b := by
  induction hs generalizing rg with
  | nil => simp
  | cons h hs ih =>
    rw [List.foldl_cons, ih (RegFile.wf_raise hl hwf h), RegFile.read_raise hl hwf, List.forall_mem_cons, ← and_assoc]
    split <;> simp [*]

/-- The raised registers depend on the set of hash words alone (20_memory.md R69). -/
theorem RegFile.foldl_raise_congr {hs₁ hs₂ : List Nat} (hset : ∀ h, h ∈ hs₁ ↔ h ∈ hs₂) :
    hs₁.foldl (RegFile.raise c) rg = hs₂.foldl (RegFile.raise c) rg := by
  refine RegFile.eq_of_read (RegFile.wf_foldl_raise hl hwf _) (RegFile.wf_foldl_raise hl hwf _)
    (by simp) fun k => BitVec.eq_of_toNat_eq (eq_of_forall_ge_iff fun b => ?_)
  simp only [RegFile.read_foldl_raise_le_iff hl hwf, hset]

end

/-- Settles O37: a read answers from what it leaves alone, and a hash word raises its register once. -/
theorem readsRepeatAndChangeNothing : Obligations.ReadsRepeatAndChangeNothing := by
  refine ⟨fun s i hi => ?_, fun s d hwf hl => ?_⟩
  · obtain ⟨r, hr⟩ := read_responds hi s
    exact ⟨r, hr s (.refl i s), hr _ ⟨rfl, fun _ => rfl, fun _ => rfl, fun _ _ => rfl⟩⟩
  · cases hc : s.cfg.configured
    case false => exact ⟨_, _, exec_add_unconfigured hc d, exec_add_unconfigured (s := s.raiseError _) hc d, rfl⟩
    case true =>
      obtain ⟨r, ht⟩ := exec_add hc d
      obtain ⟨r', hu⟩ := exec_add (s := s.raised [hashWord s.cfg d] [r]) hc d
      let h := hashWord s.cfg d
      have hagain : [h, h].foldl (RegFile.raise s.cfg) s.regs = [h].foldl (RegFile.raise s.cfg) s.regs :=
        RegFile.foldl_raise_congr hl hwf (by simp)
      exact ⟨_, _, ht, hu, hagain⟩

/-! ### Lists of ADDs -/

theorem decodeCommand_encode_add (d : Data64) : decodeCommand (encode (.add d)) = .ok (.add d) := by
  simp [decodeCommand, encode, decode, opField, reservedMask, decodeLegal, Instr.upperBits, Instr.opcode,
    Instr.dataWord]

/-- A list of ADDs on a sketch raises the registers by its hash words, in order, and appends responses. -/
theorem atomically_adds (ds : List Data64) {s : State} (hc : s.cfg.configured = true) : ∃ rs : List Response,
    atomically (ds.map fun d => encode (.add d)) s = s.raised (ds.map (hashWord s.cfg)) rs := by
  induction ds generalizing s with
  | nil => exact ⟨[], by simp [atomically, State.raised]⟩
  | cons d ds ih =>
    obtain ⟨r, hr⟩ := exec_add hc d
    have hrun := (runCommand_of_decode (decodeCommand_encode_add d) s).trans hr
    obtain ⟨rs, hrs⟩ := ih (s := s.raised [hashWord s.cfg d] [r]) hc
    exact ⟨r :: rs, by rw [List.map_cons, atomically_cons hrun, hrs, State.raised_raised]; rfl⟩

/-- Settles O42: equal sets of hash words raise the registers alike, and EST reads only what is then equal. -/
theorem estimateDependsOnSetOfHashWords : Obligations.EstimateDependsOnSetOfHashWords := by
  intro s ds₁ ds₂ hinv hc hset
  obtain ⟨rs₁, h₁⟩ := atomically_adds ds₁ hc
  obtain ⟨rs₂, h₂⟩ := atomically_adds ds₂ hc
  have hregs := RegFile.foldl_raise_congr (hinv.configured_legal hc) hinv.regs_canonical hset
  simp only [h₁, h₂]
  refine ⟨hregs, ?_⟩
  obtain ⟨r, hr⟩ := read_responds (i := .est) (.inr (.inl rfl)) (s.raised (ds₁.map (hashWord s.cfg)) rs₁)
  exact ⟨r, hr _ (.refl _ _), hr _ ⟨rfl, fun _ => hregs.symm, fun _ => rfl, fun _ _ => rfl⟩⟩

end Sys2Proof.Machine
end

section
/-! SUPPORT. Which command a step runs (20_memory.md R67, 30_encoding.md R92), and the edge at which `withFetchWord`
offers one (assumption log 1). -/

namespace Sys2Proof.Machine

theorem decodeTableWord_eq_some {nbits w : Nat} {i : Instr} (h : decodeTableWord nbits w = some i) :
    decodeCommand (tableCommand nbits w) = .ok i := by
  unfold decodeTableWord at h
  split at h
  · cases h; assumption
  · cases h

/-- An edge that ends the execution of the oldest command, with room for its response, runs what it decodes to. -/
theorem step_runs_oldest {s : State} {e : Edge} {es : List Edge} {c : Command} {cs : List Command} {i : Instr}
    (he : s.edges = e :: es) (hr : e.rst = false) (hx : e.executes = true)
    (hp : (transfers e { s with edges := es }).pending = c :: cs)
    (hroom : (transfers e { s with edges := es }).rq.length < Config.rqDepth) (hd : decodeCommand c = .ok i) :
    step s = exec i (s.atExecution e es cs) := by
  have hfull : rqFull (transfers e { s with edges := es }).rq = false := by simpa [rqFull_eq] using hroom
  simp only [step, he, clockEdge, hr, hx, if_true, Bool.false_eq_true, if_false]
  rw [executeOldest_cons hp hfull, runCommand_of_decode hd]

/-! ### The offered command -/

section
variable (s : State) (c : Command)

@[simp] theorem State.offer_edges : (s.offer c).edges = commandEdge c :: s.edges := rfl
@[simp] theorem State.offer_pending : (s.offer c).pending = [] := rfl
@[simp] theorem State.offer_takenBefore : (s.offer c).takenBefore = s.takenBefore := by
  unfold State.offer; split <;> rfl
@[simp] theorem State.offer_rqFull : rqFull (s.offer c).rq = false := by
  unfold State.offer; split <;> simp_all [rqFull]

/-- Offering a command lets the host take the waiting responses and touches nothing else of the block. -/
theorem SameBlock.offer : SameBlock s (s.offer c) := by
  unfold State.offer; split <;> constructor <;> simp

/-- The offered command is accepted at its edge. -/
theorem offer_transfers_pending :
    (transfers (commandEdge c) { s.offer c with edges := s.edges }).pending = [c] := by
  simp [State.accepts, State.cmdReady, commandEdge]

/-- At its edge RQ has room. -/
theorem offer_transfers_room :
    (transfers (commandEdge c) { s.offer c with edges := s.edges }).rq.length < Config.rqDepth := by
  have hroom : (s.offer c).rq.length < Config.rqDepth := by simpa [rqFull_eq] using s.offer_rqFull c
  exact (transfers_rq_length _ _).trans_lt hroom

end

/-- Settles O19: the offered command is the oldest one at its own edge. -/
theorem stepRunsDecodedCommand : Obligations.StepRunsDecodedCommand := by
  refine ⟨fun s e es c cs i he hr hx hp hroom hd => step_runs_oldest he hr hx hp hroom hd, fun s nbits w i h => ?_⟩
  let c := tableCommand nbits w
  have hu : SameBlock s ((s.offer c).atExecution (commandEdge c) s.edges []) :=
    (SameBlock.offer s c).trans (.atExecution _ _ _ _)
  exact ⟨_, step_runs_oldest (State.offer_edges s c) rfl rfl (offer_transfers_pending s c) (offer_transfers_room s c)
      (decodeTableWord_eq_some h), hu.cfg, hu.seed, hu.regs, hu.rom, rfl, by simp, hu.log,
      (transfers_takenBefore _ _).trans (State.offer_takenBefore s c)⟩

end Sys2Proof.Machine
end

section
/-! SUPPORT. The codec (30_encoding.md R85, R91 to R97): the two round trips between commands and words, the opcode map
as the decoder reads it, and the assembler as an encoder. -/

namespace Sys2Proof

/-! ### The decoder's three outcomes (30_encoding.md R92) -/

theorem decode_illegal {w : CmdWord} (h : 8 ≤ (opField w).toNat) (d : Data64) :
    decode w d = .ok (.illegal (opField w) (w.extractLsb' 4 28)) := by
  simp [decode, h]

theorem decode_legal {w : CmdWord} (h : (opField w).toNat < 8) (hr : w &&& reservedMask (opField w) = 0#32)
    (d : Data64) : decode w d = .ok (decodeLegal w d) := by
  simp [decode, h, hr]

theorem decode_reserved {w : CmdWord} (h : (opField w).toNat < 8) (hr : w &&& reservedMask (opField w) ≠ 0#32)
    (d : Data64) : decode w d = .error .reservedField := by
  simp [decode, h, hr]

/-- A decoded word has an illegal opcode, or a legal one with the reserved bits clear. -/
theorem decode_ok_cases {w : CmdWord} {d : Data64} {i : Instr} (h : decode w d = .ok i) :
    (8 ≤ (opField w).toNat ∧ i = .illegal (opField w) (w.extractLsb' 4 28)) ∨
    ((opField w).toNat < 8 ∧ w &&& reservedMask (opField w) = 0#32 ∧ i = decodeLegal w d) := by
  rcases Nat.lt_or_ge (opField w).toNat 8 with hlt | hge
  · by_cases hr : w &&& reservedMask (opField w) = 0#32
    · exact .inr ⟨hlt, hr, Except.ok.inj (h.symm.trans (decode_legal hlt hr d))⟩
    · cases h.symm.trans (decode_reserved hlt hr d)
  · exact .inl ⟨hge, Except.ok.inj (h.symm.trans (decode_illegal hge d))⟩

/-- The opcodes 0x0 to 0x7 (30_encoding.md R91). -/
def legalOpcodes : List (BitVec 4) := [0x0#4, 0x1#4, 0x2#4, 0x3#4, 0x4#4, 0x5#4, 0x6#4, 0x7#4]

theorem mem_legalOpcodes (op : BitVec 4) : op ∈ legalOpcodes ↔ op.toNat < 8 := by
  revert op; decide

/-- An opcode is 8 or more exactly when its bit 3 is set (60_exceptions.md R160). -/
theorem eight_le_toNat_iff (op : BitVec 4) : 8 ≤ op.toNat ↔ op.getLsbD 3 = true := by
  revert op; decide

theorem decodeLegal_config {w : CmdWord} (h : opField w = 0x1#4) (d : Data64) :
    decodeLegal w d = .config (w64Field w) (modeField w) (pField w) d := by
  simp [decodeLegal, h]

theorem decodeLegal_rdreg {w : CmdWord} (h : opField w = 0x4#4) (d : Data64) :
    decodeLegal w d = .rdreg (indexField w) := by
  simp [decodeLegal, h]

/-! ### From a command to its word and back -/

theorem modeField_eq {w : CmdWord} {mode : Mode} (h : w.getLsbD 13 = mode.bit) : modeField w = mode := by
  rw [modeField, h]
  cases mode <;> rfl

/-- Settles O14: an illegal command is its opcode and its other bits; a legal one's reserved bits are clear, and its
fields are read back. -/
theorem decodeOfEncode : Obligations.DecodeOfEncode := by
  intro i hi
  cases i with
  | nop => rfl
  | config w64 mode p seed =>
    obtain ⟨hr, h64, hm, hp⟩ := configWord_fields w64 mode.bit p
    have hop : opField (encode (.config w64 mode p seed)).word = 0x1#4 := opField_append _ _
    refine (decode_legal (by rw [hop]; decide) (by rw [hop]; exact hr) seed).trans (congrArg _ ?_)
    rw [decodeLegal_config hop]
    exact congrFun (congr (congr (congrArg _ h64) (modeField_eq hm)) hp) seed
  | add data => exact Machine.decodeCommand_encode_add data
  | est => rfl
  | rdreg index =>
    have hop : opField (encode (.rdreg index)).word = 0x4#4 := opField_append _ _
    have hr := (reservedI_clear_iff index 0#12 0x4#4).2 rfl
    refine (decode_legal (by rw [hop]; decide) (by rw [hop]; exact hr) 0#64).trans (congrArg _ ?_)
    rw [decodeLegal_rdreg hop]
    exact congrArg _ (indexField_append index 0#12 0x4#4)
  | rdstat => rfl
  | rdseed => rfl
  | release => rfl
  | illegal op rest =>
    have hop : opField (encode (.illegal op rest)).word = op := opField_append _ _
    have hlarge : 8 ≤ op.toNat := (eight_le_toNat_iff op).2 hi
    refine (decode_illegal (by rwa [hop]) 0#64).trans (congrArg _ ?_)
    rw [hop]
    exact congrArg _ (upper_append rest op)

/-! ### From a word to its command and back -/

/-- Bits 31:12 and 11:0 of the upper 28 bits make them up. -/
theorem upperBits_eq_append (u : BitVec 28) : u = (u.extractLsb' 12 16 ++ u.extractLsb' 0 12 : BitVec 28) := by
  apply BitVec.eq_of_getLsbD_eq
  intro j hj
  rw [getLsbD_indexBits]
  split
  · simp [*]
  · simp only [BitVec.getLsbD_extractLsb']
    rw [show 12 + (j - 12) = j by omega, decide_eq_true (show j - 12 < 16 by omega), Bool.true_and]

/-- A word of format N is its opcode. -/
theorem word_of_reservedN {w : CmdWord} (hr : w &&& 0xFFFFFFF0#32 = 0#32) : w = (0#28 ++ opField w : BitVec 32) := by
  have hw := word_eq_append w
  rw [hw, reservedN_clear_iff] at hr
  rwa [hr] at hw

/-- A word of format I is its index and its opcode. -/
theorem word_of_reservedI {w : CmdWord} (hr : w &&& 0x0000FFF0#32 = 0#32) :
    w = ((indexField w ++ 0#12 : BitVec 28) ++ opField w : BitVec 32) := by
  have hw := word_eq_append w
  rw [upperBits_eq_append (w.extractLsb' 4 28)] at hw
  rw [hw, reservedI_clear_iff] at hr
  rw [hr] at hw
  have hi : indexField w = (w.extractLsb' 4 28).extractLsb' 12 16 := by
    conv_lhs => rw [hw]
    exact indexField_append _ _ _
  rwa [hi]

/-- Words with the reserved bits of format C clear are equal when their fields are. -/
theorem eq_of_configFields {w w' : CmdWord} (hr : w &&& reservedMask 0x1#4 = 0#32)
    (hr' : w' &&& reservedMask 0x1#4 = 0#32) (hop : opField w = opField w') (hp : pField w = pField w')
    (hm : w.getLsbD 13 = w'.getLsbD 13) (h64 : w64Field w = w64Field w') : w = w' := by
  have hmask : ∀ j : Fin 32, (reservedMask 0x1#4).getLsbD j = true ∨ j.val < 4 ∨ (8 ≤ j.val ∧ j.val < 13) ∨
      j.val = 13 ∨ j.val = 14 := by decide
  refine BitVec.eq_of_getLsbD_eq fun j hj => ?_
  obtain h | h | ⟨h8, h13⟩ | h | h := hmask ⟨j, hj⟩
  · rw [(and_eq_zero_iff _ _).1 hr j hj h, (and_eq_zero_iff _ _).1 hr' j hj h]
  · have := congrArg (fun op : BitVec 4 => op.getLsbD j) hop
    simpa [opField, show j < 4 from h] using this
  · have := congrArg (fun p : BitVec 5 => p.getLsbD (j - 8)) hp
    simp only at h8 h13
    simpa [pField, show j - 8 < 5 by omega, show 8 + (j - 8) = j by omega] using this
  · simp only at h
    rwa [h]
  · simp only at h
    rwa [h]

/-- A CONFIG word is its fields and its opcode. -/
theorem word_of_reservedC {w : CmdWord} (hop : opField w = 0x1#4) (hr : w &&& reservedMask 0x1#4 = 0#32)
    (seed : Data64) : (encode (.config (w64Field w) (modeField w) (pField w) seed)).word = w := by
  obtain ⟨hr', h64, hm, hp⟩ := configWord_fields (w64Field w) (modeField w).bit (pField w)
  have hbit : (modeField w).bit = w.getLsbD 13 := by
    unfold modeField
    cases w.getLsbD 13 <;> rfl
  exact eq_of_configFields hr' hr ((opField_append _ _).trans hop.symm) hp (hm.trans hbit) h64

/-- A decoded legal word is well-formed and encodes to itself; only CONFIG and ADD have DATA as an operand. -/
theorem encode_decodeLegal {w : CmdWord} (h : (opField w).toNat < 8) (hr : w &&& reservedMask (opField w) = 0#32)
    (d : Data64) : (decodeLegal w d).wellFormed = true ∧ (decodeLegal w d).opcode = opField w ∧
      (encode (decodeLegal w d)).word = w ∧
      (encode (decodeLegal w d)).data = if opField w = 0x1#4 ∨ opField w = 0x2#4 then d else 0#64 := by
  have hop := (mem_legalOpcodes _).2 h
  simp only [legalOpcodes, List.mem_cons, List.not_mem_nil, or_false] at hop
  have hN := word_of_reservedN (w := w)
  have hI := word_of_reservedI (w := w)
  obtain hk | hk | hk | hk | hk | hk | hk | hk := hop <;> rw [hk] at hr hN hI <;> simp only [decodeLegal, hk]
  case inr.inl => exact ⟨rfl, rfl, word_of_reservedC hk hr d, rfl⟩
  case inr.inr.inr.inr.inl => exact ⟨rfl, rfl, (hI hr).symm, rfl⟩
  all_goals exact ⟨rfl, rfl, (hN hr).symm, rfl⟩

/-- Settles O15: an illegal word is its opcode and its other bits, a legal one its fields and its opcode. -/
theorem encodeOfDecode : Obligations.EncodeOfDecode := by
  intro w d i h
  obtain ⟨hlarge, rfl⟩ | ⟨hsmall, hr, rfl⟩ := decode_ok_cases h
  · have hne : ∀ op : BitVec 4, 8 ≤ op.toNat → op ≠ 0x1#4 ∧ op ≠ 0x2#4 := by decide
    exact ⟨(eight_le_toNat_iff _).1 hlarge, (word_eq_append w).symm, .inr ⟨rfl, hne _ hlarge⟩⟩
  · obtain ⟨hwf, hop, hword, hdata⟩ := encode_decodeLegal hsmall hr d
    refine ⟨hwf, hword, ?_⟩
    rw [hop, hdata]
    split
    · exact .inl rfl
    · exact .inr ⟨rfl, by tauto⟩

/-! ### The opcode map (30_encoding.md R91, R94) -/

/-- The name of the row of the opcode map that an opcode belongs to. -/
def rowName (op : BitVec 4) : String :=
  match op.toNat with
  | 0 => "NOP"
  | 1 => "CONFIG"
  | 2 => "ADD"
  | 3 => "EST"
  | 4 => "RDREG"
  | 5 => "RDSTAT"
  | 6 => "RDSEED"
  | 7 => "RELEASE"
  | _ => "ILLEGAL"

/-- The row of a legal opcode: it fixes the opcode and the reserved bits of its format. -/
def legalRow (op : BitVec 4) : OpcodeRow := ⟨rowName op, op.zeroExtend 32, reservedMask op ||| 0xF#32⟩

theorem opcodeMap_eq : opcodeMap = legalOpcodes.map legalRow ++ [⟨"ILLEGAL", 8#32, 8#32⟩] := by
  decide

theorem rowName_eq_iff (a op : BitVec 4) (h : op.toNat < 8) : rowName op = rowName a ↔ a = op := by
  revert a op; decide

theorem rowName_eq_illegal_iff (a : BitVec 4) : "ILLEGAL" = rowName a ↔ a.getLsbD 3 = true := by
  revert a; decide

theorem mnemonic_decodeLegal {w : CmdWord} (h : (opField w).toNat < 8) (d : Data64) :
    (decodeLegal w d).mnemonic = rowName (opField w) := by
  unfold decodeLegal rowName
  generalize (opField w).toNat = n at h
  interval_cases n <;> rfl

theorem rowName_illegal {op : BitVec 4} (h : 8 ≤ op.toNat) : rowName op = "ILLEGAL" :=
  ((rowName_eq_illegal_iff op).2 ((eight_le_toNat_iff op).1 h)).symm

/-- The opcode and the bits of a mask above it are compared together exactly when each is. -/
theorem and_mask_eq_iff (w : CmdWord) (op : BitVec 4) (mask : CmdWord) (hm : mask &&& 0xF#32 = 0#32) :
    w &&& (mask ||| 0xF#32) = op.zeroExtend 32 ↔ opField w = op ∧ w &&& mask = 0#32 := by
  have hlow : ∀ j < 32, (0xF#32).getLsbD j = decide (j < 4) := by decide
  rw [and_eq_zero_iff] at hm ⊢
  rw [BitVec.eq_of_getLsbD_eq_iff, BitVec.eq_of_getLsbD_eq_iff]
  simp only [opField, BitVec.getLsbD_extractLsb', BitVec.getLsbD_and, BitVec.getLsbD_or, BitVec.getLsbD_setWidth]
  constructor
  · intro h
    refine ⟨fun j hj => ?_, fun j hj hmj => ?_⟩
    · have := h j (by omega)
      grind
    · have := h j hj
      grind
  · rintro ⟨hop, hmask⟩ j hj
    have := hop j
    have := hmask j hj
    grind

theorem and_eight_eq_iff (w : CmdWord) : w &&& 8#32 = 8#32 ↔ (opField w).getLsbD 3 = true := by
  have h8 : ∀ j < 32, (8#32).getLsbD j = decide (j = 3) := by decide
  rw [BitVec.eq_of_getLsbD_eq_iff]
  simp only [opField, BitVec.getLsbD_extractLsb', BitVec.getLsbD_and]
  grind

/-- A word matches a row exactly when the row is its opcode's and, for a legal opcode, its reserved bits are clear. -/
theorem hits_iff (w : CmdWord) : ∀ r ∈ opcodeMap, (w &&& r.mask = r.matchBits ↔
    r.mnemonic = rowName (opField w) ∧ (8 ≤ (opField w).toNat ∨ w &&& reservedMask (opField w) = 0#32)) := by
  have hmask : ∀ op, reservedMask op &&& 0xF#32 = 0#32 := by decide
  intro r hr
  rw [opcodeMap_eq, List.mem_append, List.mem_map, List.mem_singleton] at hr
  obtain ⟨op, hop, rfl⟩ | rfl := hr
  · have hlt := (mem_legalOpcodes op).1 hop
    refine (and_mask_eq_iff w op _ (hmask op)).trans ?_
    rw [legalRow, rowName_eq_iff _ _ hlt]
    refine and_congr_right fun h => ?_
    rw [h, or_iff_right (not_le.2 hlt)]
  · rw [and_eight_eq_iff, rowName_eq_illegal_iff, eight_le_toNat_iff]
    exact ⟨fun h => ⟨h, .inl h⟩, And.left⟩

/-- Settles O16: the row a word matches, if any, is the one that names its opcode. -/
theorem decoderAgreesWithOpcodeMap : Obligations.DecoderAgreesWithOpcodeMap := by
  intro w d
  have hhits := hits_iff w
  rcases Nat.lt_or_ge (opField w).toNat 8 with hlt | hge
  · by_cases hr : w &&& reservedMask (opField w) = 0#32
    · refine .inl ⟨_, decode_legal hlt hr d, fun r hmem => ?_⟩
      rw [hhits r hmem, mnemonic_decodeLegal hlt, and_iff_left (.inr hr)]
    · refine .inr ⟨decode_reserved hlt hr d, fun r hmem hit => ?_⟩
      obtain ⟨-, h⟩ := (hhits r hmem).1 hit
      exact h.elim (not_le.2 hlt) hr
  · refine .inl ⟨_, decode_illegal hge d, fun r hmem => ?_⟩
    rw [hhits r hmem, and_iff_left (.inl hge), rowName_illegal hge]
    rfl

/-- Settles O17, by decoding the seven words. -/
theorem specWordsDecode : Obligations.SpecWordsDecode := by
  unfold Obligations.SpecWordsDecode
  decide

end Sys2Proof

namespace Sys2Proof.Machine

/-! ### Assembly (30_encoding.md R96, R97) -/

/-- The word of a `config` line is the word of its command. -/
theorem assembledConfigWord (p : BitVec 5) (mode : Mode) (w64 : Bool) (seed : Data64) :
    0x1#32 ||| BitVec.ofNat 32 p.toNat <<< 8 ||| BitVec.ofNat 32 mode.bit.toNat <<< 13
      ||| BitVec.ofNat 32 w64.toNat <<< 14 = (encode (.config w64 mode p seed)).word := by
  have h : ∀ (m w : Bool) (p : BitVec 5), 0x1#32 ||| BitVec.ofNat 32 p.toNat <<< 8
      ||| BitVec.ofNat 32 m.toNat <<< 13 ||| BitVec.ofNat 32 w.toNat <<< 14 =
        ((0#17 ++ BitVec.ofBool w ++ BitVec.ofBool m ++ p ++ 0#4 : BitVec 28) ++ 0x1#4 : BitVec 32) := by
    decide +kernel
  exact h mode.bit w64 p

theorem assembleConfig_fits {p seed : Nat} (hp : p ≤ 31) (hs : seed < 2 ^ 64) (mode : Mode) (w64 : Bool) :
    assembleConfig p mode w64 seed = some (encode (.config w64 mode (BitVec.ofNat 5 p) (BitVec.ofNat 64 seed))) := by
  have hw := assembledConfigWord (BitVec.ofNat 5 p) mode w64 (BitVec.ofNat 64 seed)
  rw [BitVec.toNat_ofNat, Nat.mod_eq_of_lt (by omega)] at hw
  rw [assembleConfig, if_pos ⟨hp, hs⟩, hw]
  rfl

theorem assembleConfig_error {p seed : Nat} (h : 31 < p ∨ 2 ^ 64 ≤ seed) (mode : Mode) (w64 : Bool) :
    assembleConfig p mode w64 seed = none :=
  if_neg (by omega)

/-- The transfer of an `add` line is that of its command. -/
theorem assembledAdd (d : Data64) : Command.mk 0x2#32 d = encode (.add d) :=
  congrArg (fun w => Command.mk w d) (show 0x2#32 = (0#28 ++ 0x2#4 : BitVec 32) by decide)

/-- The word of an `rdreg` line is the word of its command. -/
theorem assembledRdregWord (k : Nat) :
    0x4#32 ||| BitVec.ofNat 32 k <<< 16 = (encode (.rdreg (BitVec.ofNat 16 k))).word := by
  have h4 : ∀ j < 32, (0x4#32).getLsbD j = (decide (j < 4) && (0x4#4).getLsbD j) := by decide
  refine BitVec.eq_of_getLsbD_eq fun j hj => ?_
  show _ = BitVec.getLsbD ((BitVec.ofNat 16 k ++ 0#12 : BitVec 28) ++ 0x4#4 : BitVec 32) j
  rw [getLsbD_word, getLsbD_indexBits, BitVec.getLsbD_or, h4 j hj, BitVec.getLsbD_shiftLeft]
  simp only [BitVec.getLsbD_ofNat]
  by_cases hlow : j < 4
  · simp [hlow, show j < 16 by omega]
  · by_cases hmid : j < 16
    · simp [hlow, hmid, show j - 4 < 12 by omega]
    · simp [hlow, hmid, show ¬ j - 4 < 12 by omega, show j - 4 - 12 = j - 16 by omega, hj,
        show j - 16 < 16 by omega, show j - 16 < 32 by omega]

/-- The word of an `illegal` line is the word of its command. -/
theorem assembledIllegalWord {n : Nat} (hlo : 8 ≤ n) (hhi : n ≤ 15) :
    BitVec.ofNat 32 n = (encode (.illegal (BitVec.ofNat 4 n) 0#28)).word := by
  interval_cases n <;> rfl

/-- Settles O18: each line's word and operand are its command's, and each bound is the one `assemble` checks. -/
theorem assemblyStandsForCommands : Obligations.AssemblyStandsForCommands := by
  intro wo so p mode w64 seed h k n text
  refine ⟨fun hp hs => ?_, fun hbad => ?_, fun hh => ?_, fun hh => if_neg (not_lt.2 hh), fun hk => ?_,
    fun hk => if_neg (not_le.2 hk), fun hlo hhi => ?_, fun hn => if_neg (by omega),
    congrArg (fun c => some [c]) (assembledAdd _), congrArg (fun c => some [c]) (assembledAdd _),
    rfl, rfl, rfl, rfl, rfl, rfl⟩
  · have hc := assembleConfig_fits hp hs mode w64
    exact ⟨by rw [assemble, hc]; rfl, by rw [assemble, hc]; rfl⟩
  · simp [assemble, assembleConfig_error hbad]
  · rw [assemble, if_pos hh, assembledAdd]
  · rw [assemble, if_pos hk, assembledRdregWord]
    rfl
  · rw [assemble, if_pos ⟨hlo, hhi⟩, assembledIllegalWord hlo hhi]
    rfl

end Sys2Proof.Machine
end

section
/-! SUPPORT. The ports at one edge (30_encoding.md R80 to R84): which command is accepted, which response is taken, and
when the hash unit's outputs change. -/

namespace Sys2Proof.Machine

/-! ### One edge -/

/-- A command appends one response and leaves the other commands and the responses taken alone. -/
theorem runCommand_frame {c : Command} {s t : State} (h : runCommand c s = .next t) :
    t.pending = s.pending ∧ t.taken = s.taken ∧ ∃ r, t.rq = s.rq ++ [r] := by
  obtain ⟨cfg, seed, regs, r, hrun⟩ := runCommand_next c s
  obtain rfl := Host.Outcome.next.inj (h.symm.trans hrun)
  exact ⟨rfl, rfl, r, rfl⟩

/-- What a step with an edge can do: reset, the transfers alone, or the transfers and the oldest command's execution. -/
theorem edge_cases {s t : State} {e : Edge} {es : List Edge} (he : s.edges = e :: es) (h : step s = .next t) :
    (e.rst = true ∧ t = State.resetEdge { s with edges := es }) ∨
    (e.rst = false ∧ t = transfers e { s with edges := es }) ∨
    (e.rst = false ∧ e.executes = true ∧ ∃ c cs, (transfers e { s with edges := es }).pending = c :: cs ∧
      runCommand c (s.atExecution e es cs) = .next t) := by
  obtain ⟨hnil, -⟩ | ⟨e', es', he', h⟩ := step_cases h
  · cases hnil.symm.trans he
  · obtain ⟨rfl, rfl⟩ := List.cons.inj (he'.symm.trans he)
    obtain h | h | ⟨hr, hx, c, cs, hp, -, hrun⟩ := clockEdge_cases h
    · exact .inl h
    · exact .inr (.inl h)
    · exact .inr (.inr ⟨hr, hx, c, cs, hp, hrun⟩)

/-! ### The command port (R80, R83, R84) -/

theorem acceptedNow_cons {s : State} {e : Edge} {es : List Edge} (he : s.edges = e :: es) :
    acceptedNow s = if s.accepts e then [⟨e.cmdWord, e.cmdData⟩] else [] := by
  simp [acceptedNow, he]

theorem accepts_iff (s : State) {e : Edge} (hr : e.rst = false) :
    s.accepts e = true ↔ e.cmdValid = true ∧ e.willing = true ∧ s.rq.length < Config.rqDepth := by
  simp [State.accepts, State.cmdReady, hr, rqFull_eq]

theorem acceptedNow_reset {s : State} {e : Edge} {es : List Edge} (he : s.edges = e :: es) (hr : e.rst = true) :
    acceptedNow s = [] := by
  simp [acceptedNow_cons he, State.accepts, hr]

/-- Settles O21: an execution removes the oldest command from those the transfers left. -/
theorem commandTransferRule : Obligations.CommandTransferRule := by
  intro s t e es he hstep
  have hp := transfers_pending_acceptedNow he
  refine ⟨fun hr => ⟨?_, ?_⟩, acceptedNow_reset he, fun hr hx => ?_⟩
  · simp only [acceptedNow_cons he, accepts_iff s hr]
  · obtain ⟨hrst, -⟩ | ⟨-, rfl⟩ | ⟨-, hx, c, cs, hcs, hrun⟩ := edge_cases he hstep
    · cases hr.symm.trans hrst
    · exact .inl hp
    · exact .inr ⟨hx, by rw [(runCommand_frame hrun).1, ← hp, hcs]; rfl⟩
  · obtain ⟨hrst, -⟩ | ⟨-, rfl⟩ | ⟨-, hx', -⟩ := edge_cases he hstep
    · cases hr.symm.trans hrst
    · exact ⟨hp, by simp, by simp, by simp, by simp⟩
    · cases hx.symm.trans hx'

/-! ### The response port (R82, R84) -/

theorem rspValid_iff (s : State) : s.rspValid = true ↔ s.rq ≠ [] := by
  simp [State.rspValid]

/-- The transfers take the head entry of RQ exactly when the host is ready. -/
theorem transfers_rq_of_ready (s : State) {e : Edge} (hr : e.rst = false) :
    (transfers e s).rq = if e.rspReady then s.rq.tail else s.rq := by
  rw [transfers_rq, State.delivers, hr]
  cases hq : s.rq <;> cases e.rspReady <;> simp [State.rspValid, hq]

/-- What the transfers take is what they remove from RQ. -/
theorem transfers_taken_of_ready (s : State) {e : Edge} (hr : e.rst = false) :
    (transfers e s).taken = s.taken ++ (if e.rspReady then s.rq.head?.toList else []) := by
  have hlog := transfers_log s e
  rw [transfers_rq_of_ready s hr] at hlog
  cases hready : e.rspReady with
  | false => simpa [hready] using hlog
  | true =>
    cases hq : s.rq with
    | nil => simpa [hready, hq] using hlog
    | cons r rest =>
      rw [hready, if_pos rfl, hq, List.tail_cons, List.append_cons] at hlog
      exact List.append_cancel_right hlog

/-- An edge without reset makes the transfers and appends at most one response to RQ. -/
theorem edge_responses {s t : State} {e : Edge} {es : List Edge} (he : s.edges = e :: es) (h : step s = .next t)
    (hr : e.rst = false) : t.taken = (transfers e { s with edges := es }).taken ∧
      ∃ new : List Response, new.length ≤ 1 ∧ t.rq = (transfers e { s with edges := es }).rq ++ new := by
  obtain ⟨hrst, -⟩ | ⟨-, rfl⟩ | ⟨-, -, c, cs, -, hrun⟩ := edge_cases he h
  · cases hr.symm.trans hrst
  · exact ⟨rfl, [], by simp⟩
  · obtain ⟨-, htaken, r, hrq⟩ := runCommand_frame hrun
    exact ⟨htaken, [r], le_rfl, hrq⟩

/-- Settles O22: the transfers take the head entry of RQ, and an execution appends behind. -/
theorem responseTransferRule : Obligations.ResponseTransferRule := by
  intro s t e es he hstep
  refine ⟨rspValid_iff s, rfl, fun hr => ?_, fun hr => ?_⟩
  · obtain ⟨htaken, new, hnew, hrq⟩ := edge_responses he hstep hr
    rw [transfers_rq_of_ready _ hr] at hrq
    rw [transfers_taken_of_ready _ hr] at htaken
    refine ⟨⟨new, hnew, hrq, htaken⟩, fun hvalid hready => ?_⟩
    have hne := (rspValid_iff s).1 hvalid
    rw [hready, if_neg Bool.false_ne_true] at hrq
    rw [rspValid_iff, State.rspHead, State.rspHead, hrq]
    exact ⟨by simp [hne], List.head?_append_of_ne_nil _ hne⟩
  · obtain rfl := Host.Outcome.next.inj ((step_reset he hr).symm.trans hstep)
    simp

/-! ### Acceptance within LATENCY + 1 edges (R83) -/

/-- An edge at which nothing is accepted leaves an idle block idle and its RQ no longer. -/
theorem advance_idle {s : State} {e : Edge} {es : List Edge} (he : s.edges = e :: es) (hr : e.rst = false)
    (hp : s.pending = []) (ha : acceptedNow s = []) :
    (advance s).pending = [] ∧ (advance s).rq.length ≤ s.rq.length ∧ (advance s).edges = es := by
  have hpending : (transfers e { s with edges := es }).pending = [] := by
    rw [transfers_pending_acceptedNow he, hp, ha, List.append_nil]
  obtain ⟨hrst, -⟩ | ⟨-, ht⟩ | ⟨-, -, c, cs, hcs, -⟩ := edge_cases he (step_advance s)
  · cases hr.symm.trans hrst
  · rw [ht]
    exact ⟨hpending, transfers_rq_length _ _, by simp⟩
  · cases hpending.symm.trans hcs

/-- The host offers `c` at this edge. -/
def Edge.Offers (c : Command) (e : Edge) : Prop :=
  e.rst = false ∧ e.cmdValid = true ∧ e.cmdWord = c.word ∧ e.cmdData = c.data

/-- At an edge that offers `c`, a block with room in RQ accepts `c` exactly when it is willing. -/
theorem acceptedNow_offer {s : State} {c : Command} {e : Edge} {es : List Edge} (he : s.edges = e :: es)
    (ho : e.Offers c) (hroom : s.rq.length < Config.rqDepth) : acceptedNow s = if e.willing then [c] else [] := by
  obtain ⟨hr, hv, hw, hd⟩ := ho
  simp [acceptedNow_cons he, accepts_iff s hr, hv, hw, hd, hroom]

/-- An idle block with room in RQ accepts the command offered at each of the next `n` edges first, if it is willing at
one of them. -/
theorem offered_accepted (n : Nat) {s : State} {c : Command} (hp : s.pending = [])
    (hroom : s.rq.length < Config.rqDepth) (ho : ∀ e ∈ s.edges.take n, e.Offers c)
    (hw : ∃ e ∈ s.edges.take n, e.willing = true) : (acceptedWithin n s).head? = some c := by
  induction n generalizing s with
  | zero => simp at hw
  | succ n ih =>
    cases he : s.edges with
    | nil => simp [he] at hw
    | cons e es =>
      simp only [he, List.take_succ_cons, List.forall_mem_cons] at ho hw
      have haccept := acceptedNow_offer he ho.1 hroom
      cases hwill : e.willing
      case true => simp [acceptedWithin, haccept, hwill]
      case false =>
        have hnone : acceptedNow s = [] := by simp [haccept, hwill]
        obtain ⟨hp', hrq', hes'⟩ := advance_idle he ho.1.1 hp hnone
        rw [acceptedWithin, hnone, List.nil_append]
        exact ih hp' (hrq'.trans_lt hroom) (by rw [hes']; exact ho.2) (by rw [hes']; simpa [hwill] using hw)

/-- Settles O27: fair timing makes one of the next LATENCY + 1 edges a willing one. -/
theorem offeredCommandIsAccepted : Obligations.OfferedCommandIsAccepted := by
  intro s c hp hroom hfair hlen ho
  obtain ⟨j, hj, e, he, hw⟩ := hfair 0 (by omega)
  rw [Nat.zero_add] at he
  refine offered_accepted _ hp hroom ho ⟨e, List.mem_iff_getElem?.2 ⟨j, ?_⟩, hw⟩
  rw [List.getElem?_take_of_lt (Nat.lt_succ_of_le hj), he]

/-! ### The hash unit's outputs (R81) -/

/-- A command that changes CFG or SEED decodes to a CONFIG or a RELEASE. -/
theorem runCommand_changes_cfg_or_seed {c : Command} {s t : State} (h : runCommand c s = .next t)
    (hne : t.cfg ≠ s.cfg ∨ t.seed ≠ s.seed) :
    ∃ i, decodeCommand c = .ok i ∧ ((∃ w m p x, i = .config w m p x) ∨ i = .release) := by
  cases hd : decodeCommand c with
  | ok i =>
    obtain ⟨-, hcfg, -⟩ := stateChangesOnlyByItsCommands s t i ((runCommand_of_decode hd s).symm.trans h)
    exact ⟨i, rfl, hcfg hne⟩
  | error e =>
    rw [runCommand, hd] at h
    obtain rfl := Host.Outcome.next.inj h
    simp at hne

/-- Settles O38: without reset, only an effect that ends at the edge writes CFG or SEED. -/
theorem hashUnitOutputsFollowExecution : Obligations.HashUnitOutputsFollowExecution := by
  refine ⟨fun s => ⟨rfl, rfl, rfl⟩, fun s t e es he hstep hne => ?_⟩
  have hchange : t.cfg ≠ s.cfg ∨ t.seed ≠ s.seed := by
    by_contra hsame
    push Not at hsame
    simp [State.seedO, State.w64O, State.cfgO, hsame] at hne
  obtain ⟨hrst, -⟩ | ⟨-, rfl⟩ | ⟨-, hx, c, cs, hcs, hrun⟩ := edge_cases he hstep
  · exact .inl hrst
  · simp at hchange
  · obtain ⟨i, hd, hi⟩ := runCommand_changes_cfg_or_seed hrun (by simpa using hchange)
    exact .inr ⟨hx, c, cs, i, hcs, hd, hi⟩

end Sys2Proof.Machine
end

section
/-! SUPPORT. Timing is unobservable (70_reset_and_hazards.md R198, R199): a run that is over shows what the atomic
machine does with the commands it accepted. -/

namespace Sys2Proof.Machine

/-- A run without reset that is over has executed all its commands, in order, and the host has every response. -/
theorem observation_of_runOver {n : Nat} {s : State} (hr : ∀ e ∈ s.edges.take n, e.rst = false)
    (hover : (after n s).runOver = true) :
    let u := atomically (s.pending ++ acceptedWithin n s) s
    (after n s).observation = ⟨u.taken ++ u.rq, u.seed, u.cfg.w64, u.cfg.configured⟩ := by
  obtain ⟨cs, hpending, hsame⟩ := after_executes n s hr
  simp only [State.runOver, Bool.and_eq_true, List.isEmpty_iff] at hover
  obtain ⟨⟨-, hp⟩, hq⟩ := hover
  rw [hp, List.append_nil] at hpending
  have hlog := hsame.log
  rw [hq, List.append_nil] at hlog
  simp only [hpending, State.observation, State.seedO, State.w64O, State.cfgO, hlog, hsame.seed, hsame.cfg]

/-- Settles O33: both runs observe what the atomic machine does with the commands they accept. -/
theorem timingIsUnobservable : Obligations.TimingIsUnobservable := by
  intro s es₁ es₂ n₁ n₂ hr₁ hr₂ s₁ s₂ haccepted hover₁ hover₂
  have h : SameBlock s₁ s₂ := ⟨rfl, rfl, rfl, rfl, rfl⟩
  obtain ⟨hcfg, hseed, -, -, hlog⟩ := h.atomically (s.pending ++ acceptedWithin n₂ s₂)
  rw [observation_of_runOver hr₁ hover₁, observation_of_runOver hr₂ hover₂, haccepted]
  simp only [s₁, s₂] at hcfg hseed hlog ⊢
  rw [hlog, hseed, hcfg]

end Sys2Proof.Machine
end

section
/-! SUPPORT. The flags of a response (30_encoding.md R88). Each branch of EST has its flags, whatever the LN unit and the
ROM; linear counting needs LN below 2^43 to stay below TLR. -/

namespace Sys2Proof.Machine

/-! ### The end of an estimate: the large-range correction and the output rule (42_estimate.md R150 to R152) -/

/-- The last two steps of R140, on a value and the flags set so far. -/
abbrev lastSteps (ln : F64 → F64) (c : Cfg) (x : F64) (f : RegimeFlags) : Estimate :=
  outputRule (largeRange ln c ⟨x, f⟩)

section
variable {ln : F64 → F64} {c : Cfg} {x : F64} {f : RegimeFlags}

theorem lastSteps_keeps (h : c.mode = .baseline ∨ F64.lt tlr x = false) (hs : x.sign = false) :
    lastSteps ln c x f = ⟨x, f⟩ := by
  rw [lastSteps, largeRange_off h, outputRule_id hs]

theorem lastSteps_negative (hf : x.isFinite = true) (hs : x.sign = true) :
    lastSteps ln c x f = ⟨F64.posZero, { f with cl := true }⟩ := by
  rw [lastSteps, largeRange_off (.inr (lt_tlr_of_neg hf hs)), outputRule_clamp hs (F64.isNaN_of_isFinite hf)]

theorem lastSteps_infinity (hc : c.mode = .biasCorrected) (h : F64.lt tlr x = true)
    (hd : F64.le (F64.sub F64.one (F64.div x two64)) F64.posZero = true) :
    lastSteps ln c x f = ⟨F64.posInf, { f with lr := true, cl := true }⟩ := by
  rw [lastSteps, largeRange_infinity hc h hd, outputRule_id (by decide)]

theorem lastSteps_corrected (L : LnUnit) (hf : x.isFinite = true) (hc : c.mode = .biasCorrected) (h : F64.lt tlr x = true)
    (hd : F64.le (F64.sub F64.one (F64.div x two64)) F64.posZero = false) :
    ∃ v, lastSteps L.ln c x f = ⟨v, { f with lr := true }⟩ := by
  obtain ⟨hx, hm⟩ := posFinite_of_lt_tlr hf h
  exact ⟨_, by rw [lastSteps, largeRange_corrected hc h hd, outputRule_id (saturated_sign L hx hm hd).1]⟩

end

/-! ### Linear counting stays below the large-range threshold -/

/-- The proviso of R88: LN is below 2^43 on [1, 65536]. -/
def LnBounded (L : LnUnit) : Prop :=
  ∀ x : F64, F64.le F64.one x = true → F64.le x (F64.ofNat 65536) = true →
    F64.lt (L.ln x) (F64.ofNat (2 ^ 43)) = true

theorem lt_tlr_of_mag_le {x : F64} (hf : x.isFinite = true) (hm : x.mag ≤ 2 ^ 1133) : F64.lt tlr x = false := by
  refine Bool.eq_false_iff.2 fun h => ?_
  obtain ⟨ht, htm⟩ := tlr_facts
  have hlt := (lt_iff_of_finite ht.finite hf).1 h
  have hx := F64.units_natAbs x
  rw [ht.units] at hlt
  omega

/-- On a quotient from 1 to 65536 such an LN unit gives less than 2^43. -/
theorem LnBounded.mag_lt {L : LnUnit} (hL : LnBounded L) {q : F64} (hq : PosFinite q) (hlo : 2 ^ 1074 ≤ q.mag)
    (hhi : q.mag ≤ 2 ^ 1090) : (L.ln q).isFinite = true ∧ (L.ln q).mag < 2 ^ 1117 := by
  have hone : F64.le F64.one q = true :=
    (le_iff_of_finite one_facts.1 hq.finite).2 (by rw [one_facts.2, hq.units]; exact_mod_cast hlo)
  have htop : F64.le q (F64.ofNat 65536) = true := by
    obtain ⟨ht, htm⟩ := ofNat_exact (n := 65536) (by norm_num) le_rfl
    refine (le_iff_of_finite hq.finite ht.finite).2 ?_
    have hpow : 65536 * 2 ^ 1074 = 2 ^ 1090 := by rw [show 65536 = 2 ^ 16 by norm_num, ← pow_add]
    rw [hq.units, ht.units, htm, hpow]
    exact_mod_cast hhi
  have hbound : (F64.ofNat (2 ^ 43)).isFinite = true ∧ (F64.ofNat (2 ^ 43)).units = 2 ^ 1117 := by decide +kernel
  rcases ln_from_one L hq hlo with h | h
  · rw [h]
    decide +kernel
  · have hlt := (lt_iff_of_finite h.finite hbound.1).1 (hL q hone htop)
    rw [h.units, hbound.2] at hlt
    exact ⟨h.finite, by exact_mod_cast hlt⟩

theorem linearCounting_below_tlr {L : LnUnit} (hL : LnBounded L) {m z : Nat} (hz : 1 ≤ z) (hzm : z ≤ m)
    (hm : m ≤ 65536) : F64.lt tlr (linearCounting L.ln m z) = false := by
  obtain ⟨hq, hlo, hhi⟩ := quotient_facts hz hzm hm
  obtain ⟨hfin, hmag⟩ := hL.mag_lt hq hlo hhi
  obtain ⟨hpm, hmm⟩ := ofNat_exact (n := m) (hz.trans hzm) hm
  unfold linearCounting
  generalize L.ln (F64.div (F64.ofNat m) (F64.ofNat z)) = y at hfin hmag
  have hprod : (F64.ofNat m).mag * y.mag ≤ F64.magOf (1082 * 2 ^ 52) * F64.unitsPerOne := by
    rw [magOf_two_pow (by norm_num), hmm]
    calc m * 2 ^ 1074 * y.mag ≤ 2 ^ 16 * 2 ^ 1074 * 2 ^ 1117 :=
          Nat.mul_le_mul (Nat.mul_le_mul_right _ hm) hmag.le
      _ = 2 ^ (1082 + 51) * F64.unitsPerOne := by rw [← pow_add, ← pow_add, ← pow_add]
  rw [F64.mul_of_finite hpm.finite hfin]
  obtain ⟨hle, hf⟩ :=
    F64.rne_mag_le (neg := (F64.ofNat m).sign != y.sign) (Nat.cast_pos.1 F64.unitsPerOne_pos) (by norm_num) hprod
  rw [magOf_two_pow (by norm_num)] at hle
  exact lt_tlr_of_mag_le hf hle

/-! ### The branches of an estimate -/

section
variable {L : LnUnit} {rom : BiasRom} {c : Cfg} {regs : RegFile}

theorem estimate_mid (hs : smallRange c.m (rawEstimate c.p.toNat regs) = false) (hm : c.mode = .biasCorrected)
    (hb : belowMidRangeTop c.m (rawEstimate c.p.toNat regs) = true) : estimate L.ln rom c regs =
      lastSteps L.ln c (F64.sub (rawEstimate c.p.toNat regs) (windowAvg rom (rawEstimate c.p.toNat regs)))
        ⟨false, true, false, false⟩ := by
  rw [estimate, smallOrMidRange_mid hs hm hb]

theorem estimate_raw (hs : smallRange c.m (rawEstimate c.p.toNat regs) = false)
    (hb : c.mode = .baseline ∨ belowMidRangeTop c.m (rawEstimate c.p.toNat regs) = false) :
    estimate L.ln rom c regs = lastSteps L.ln c (rawEstimate c.p.toNat regs) RegimeFlags.none := by
  rw [estimate, smallOrMidRange_none hs hb]

variable (hc : c.legal = true)
include hc

/-- Linear counting: SR alone. -/
theorem estimate_linear (hL : LnBounded L) (hs : smallRange c.m (rawEstimate c.p.toNat regs) = true)
    (hz : 0 < zeroCount regs c.m) : estimate L.ln rom c regs =
      ⟨linearCounting L.ln c.m (zeroCount regs c.m), ⟨true, false, false, false⟩⟩ := by
  have hm : c.m ≤ 65536 := (legal_widths hc).1
  have hzm := zeroCount_le regs c.m
  rw [estimate, smallOrMidRange_linear hs hz]
  exact lastSteps_keeps (.inr (linearCounting_below_tlr hL hz hzm hm)) (linearCounting_facts L hz hzm hm).1

/-- The small range with no register at 0: no flag. -/
theorem estimate_full (hs : smallRange c.m (rawEstimate c.p.toNat regs) = true) (hz : zeroCount regs c.m = 0) :
    estimate L.ln rom c regs = ⟨rawEstimate c.p.toNat regs, RegimeFlags.none⟩ := by
  obtain ⟨hp4, hp16⟩ := legal_p hc
  have hraw := (rawEstimate_facts regs hp4 hp16).1
  have hsmall := rawEstimate_lt_of_smallRange c regs hc hs
  rw [estimate, smallOrMidRange_full hs hz]
  exact lastSteps_keeps (.inr (lt_tlr_of_small hraw hsmall)) hraw.sign

end

/-! ### What the flags of an estimate mean -/

theorem baseline_or_false {c : Cfg} {b : Bool} (h : ¬(c.mode = .biasCorrected ∧ b = true)) :
    c.mode = .baseline ∨ b = false := by
  cases hm : c.mode
  · exact .inl rfl
  · exact .inr (Bool.eq_false_iff.2 fun hb => h ⟨hm, hb⟩)

/-- The flag combinations EST can return. -/
abbrev listedFlags : List (BitVec 4) := [0x0#4, 0x1#4, 0x2#4, 0x4#4, 0x6#4, 0xA#4, 0xC#4, 0xE#4]

/-- The flags are a listed combination, and say of the value and the mode what R88 says. -/
structure FlagsMeaning (c : Cfg) (e : Estimate) : Prop where
  listed : e.flags.bits ∈ listedFlags
  baseline : c.mode = .baseline → e.flags.bits = 0x0#4 ∨ e.flags.bits = 0x1#4
  saturated : e.flags.cl = true → e.flags.lr = true → e.value = F64.posInf
  clamped : e.flags.cl = true → e.flags.lr = false → e.flags.mr = true ∧ e.value = F64.posZero

/-- Flags without CL have a meaning by themselves, those with LR or MR in MODE 1 alone. -/
theorem flagsMeaning_of_unclamped {c : Cfg} {v : F64} {f : RegimeFlags} (hl : f.bits ∈ listedFlags)
    (hcl : f.cl = false) (hm : c.mode = .biasCorrected ∨ (f.lr = false ∧ f.mr = false)) : FlagsMeaning c ⟨v, f⟩ where
  listed := hl
  baseline := fun hb => by
    obtain hm | ⟨hlr, hmr⟩ := hm
    · cases hb.symm.trans hm
    · obtain ⟨sr, mr, lr, cl⟩ := f
      obtain rfl : cl = false := hcl
      obtain rfl : lr = false := hlr
      obtain rfl : mr = false := hmr
      have hbits : ∀ sr, RegimeFlags.bits ⟨sr, false, false, false⟩ = 0x0#4 ∨
          RegimeFlags.bits ⟨sr, false, false, false⟩ = 0x1#4 := by decide
      exact hbits sr
  saturated := fun h => by cases hcl.symm.trans h
  clamped := fun h => by cases hcl.symm.trans h

/-- The end of an estimate after the mid-range step, which ran (`mr`) or left a raw estimate. -/
theorem lastSteps_flagsMeaning (L : LnUnit) {c : Cfg} {x : F64} (hx : x.isFinite = true) {mr : Bool}
    (hmode : mr = true → c.mode = .biasCorrected) (hsign : mr = false → x.sign = false) :
    FlagsMeaning c (lastSteps L.ln c x ⟨false, mr, false, false⟩) := by
  by_cases hlarge : c.mode = .biasCorrected ∧ F64.lt tlr x = true
  · obtain ⟨hm, hl⟩ := hlarge
    cases hd : F64.le (F64.sub F64.one (F64.div x two64)) F64.posZero
    case false =>
      obtain ⟨v, hv⟩ := lastSteps_corrected (f := ⟨false, mr, false, false⟩) L hx hm hl hd
      rw [hv]
      exact flagsMeaning_of_unclamped (by cases mr <;> decide) rfl (.inl hm)
    case true =>
      rw [lastSteps_infinity hm hl hd]
      exact ⟨by cases mr <;> decide, fun hb => (nomatch hb.symm.trans hm), fun _ _ => rfl, fun _ h => nomatch h⟩
  · cases hs : x.sign
    case false =>
      rw [lastSteps_keeps (baseline_or_false hlarge) hs]
      refine flagsMeaning_of_unclamped (by cases mr <;> decide) rfl ?_
      cases mr
      · exact .inr ⟨rfl, rfl⟩
      · exact .inl (hmode rfl)
    case true =>
      cases mr
      case false => cases hs.symm.trans (hsign rfl)
      case true =>
        rw [lastSteps_negative hx hs]
        exact ⟨by decide, fun hb => (nomatch hb.symm.trans (hmode rfl)), fun _ h => (nomatch h),
          fun _ _ => ⟨rfl, rfl⟩⟩

/-- Every estimate's flags mean what R88 says. -/
theorem estimate_flagsMeaning {L : LnUnit} (hL : LnBounded L) (rom : BiasRom) {c : Cfg} (regs : RegFile)
    (hc : c.legal = true) : FlagsMeaning c (estimate L.ln rom c regs) := by
  obtain ⟨hp4, hp16⟩ := legal_p hc
  obtain ⟨hraw, hmag⟩ := rawEstimate_facts regs hp4 hp16
  cases hs : smallRange c.m (rawEstimate c.p.toNat regs)
  case true =>
    rcases Nat.eq_zero_or_pos (zeroCount regs c.m) with hz | hz
    · rw [estimate_full hc hs hz]
      exact flagsMeaning_of_unclamped (by decide) rfl (.inr ⟨rfl, rfl⟩)
    · rw [estimate_linear hc hL hs hz]
      exact flagsMeaning_of_unclamped (by decide) rfl (.inr ⟨rfl, rfl⟩)
  case false =>
    by_cases hmid : c.mode = .biasCorrected ∧ belowMidRangeTop c.m (rawEstimate c.p.toNat regs) = true
    · rw [estimate_mid hs hmid.1 hmid.2]
      exact lastSteps_flagsMeaning L (midRange_finite rom hraw hmag) (fun _ => hmid.1) (fun h => by cases h)
    · rw [estimate_raw hs (baseline_or_false hmid)]
      exact lastSteps_flagsMeaning L hraw.finite (fun h => by cases h) fun _ => hraw.sign

/-! ### Each listed combination occurs -/

/-- A cleared register array whose first `m` registers then hold `v`. -/
def RegFile.filled (v : RegVal) : Nat → RegFile
  | 0 => RegFile.cleared
  | m + 1 => (RegFile.filled v m).write m v

theorem RegFile.filled_facts (v : RegVal) {m : Nat} (hm : m ≤ nreg) : (RegFile.filled v m).wf = true ∧
    ∀ k, (RegFile.filled v m).read k = if k < m then v else 0#7 := by
  induction m with
  | zero => exact ⟨RegFile.wf_cleared, fun k => by simp [RegFile.filled]⟩
  | succ m ih =>
    obtain ⟨hwf, hread⟩ := ih (by omega)
    refine ⟨RegFile.wf_write _ _ _ hwf (by omega), fun k => ?_⟩
    by_cases hk : k = m
    · rw [hk, RegFile.filled, RegFile.read_write_same _ _ _ hwf, if_pos (by omega)]
    · rw [RegFile.filled, RegFile.read_write_other _ _ _ _ hwf hk, hread]
      exact if_congr (by omega) rfl rfl

/-- The raw estimates of the sample ROM, every bias `b`. -/
def biasEntries (b : F64) : List BiasEntry := BiasRom.sample.entries.map fun e => { e with val := b }

/-- The smallest sketch with every correction: P = 4, MODE 1, W64 = 1. -/
abbrev ultra4 : Cfg := ⟨4#5, .biasCorrected, true, true⟩

/-- The raw estimate of sixteen registers that hold `v`. -/
abbrev raw16 (v : RegVal) : F64 := rawEstimate ultra4.p.toNat (RegFile.filled v 16)

/-- The combination occurs, with registers that a sketch can hold (10_state.md R32). -/
def FlagsOccur (L : LnUnit) (f : BitVec 4) : Prop :=
  ∃ (rom : BiasRom) (c : Cfg) (regs : RegFile), c.legal = true ∧
    (∀ k < c.m, (regs.read k).toNat ≤ c.width - c.p.toNat + 1) ∧ (∀ k, c.m ≤ k → regs.read k = 0#7) ∧
    (estimate L.ln rom c regs).flags.bits = f

theorem flagsOccur_of_filled {L : LnUnit} (rom : BiasRom) {v : RegVal} (hv : v.toNat ≤ 61) {x : F64} {f : RegimeFlags}
    (h : estimate L.ln rom ultra4 (RegFile.filled v 16) = ⟨x, f⟩) : FlagsOccur L f.bits := by
  obtain ⟨-, hread⟩ := RegFile.filled_facts v (m := 16) (by decide)
  refine ⟨rom, ultra4, RegFile.filled v 16, by decide, fun k hk => ?_, fun k hk => ?_, by rw [h]⟩
  · rw [hread, if_pos (show k < 16 from hk)]
    exact hv
  · rw [hread, if_neg (show ¬ k < 16 from not_lt.2 hk)]

theorem raw16_small : (∀ v ∈ [0#7, 1#7], smallRange ultra4.m (raw16 v) = true) ∧
    zeroCount (RegFile.filled 0#7 16) ultra4.m = 16 ∧ zeroCount (RegFile.filled 1#7 16) ultra4.m = 0 := by
  decide +kernel

theorem raw16_mid : smallRange ultra4.m (raw16 2#7) = false ∧ belowMidRangeTop ultra4.m (raw16 2#7) = true := by
  decide +kernel

theorem raw16_high : ∀ v ∈ [56#7, 61#7], smallRange ultra4.m (raw16 v) = false ∧
    belowMidRangeTop ultra4.m (raw16 v) = false ∧ F64.lt tlr (raw16 v) = true ∧
    F64.le (F64.sub F64.one (F64.div (raw16 v) two64)) F64.posZero = decide (v = 61#7) := by
  decide +kernel

/-- The mid-range estimate, from the raw estimate 43.072, of a ROM. -/
abbrev mid16 (rom : BiasRom) : F64 := F64.sub (raw16 2#7) (windowAvg rom (raw16 2#7))

theorem estimate_mid16 (L : LnUnit) (rom : BiasRom) : estimate L.ln rom ultra4 (RegFile.filled 2#7 16) =
    lastSteps L.ln ultra4 (mid16 rom) ⟨false, true, false, false⟩ :=
  estimate_mid raw16_mid.1 rfl raw16_mid.2

/-- A ROM of biases −2^60: the mid-range estimate lies between TLR and 2^64. -/
def romCorrected : BiasRom := ⟨biasEntries 0xC3B0000000000000#64, by decide +kernel⟩

/-- A ROM of biases −2^70: the mid-range estimate lies above 2^64. -/
def romInfinity : BiasRom := ⟨biasEntries 0xC450000000000000#64, by decide +kernel⟩

/-- A ROM of biases 2^70: the mid-range estimate is negative. -/
def romNegative : BiasRom := ⟨biasEntries 0x4450000000000000#64, by decide +kernel⟩

theorem mid16_facts :
    (F64.lt tlr (mid16 BiasRom.sample) = false ∧ (mid16 BiasRom.sample).sign = false) ∧
    (mid16 romNegative).sign = true ∧
    (F64.lt tlr (mid16 romInfinity) = true ∧
      F64.le (F64.sub F64.one (F64.div (mid16 romInfinity) two64)) F64.posZero = true) ∧
    (F64.lt tlr (mid16 romCorrected) = true ∧
      F64.le (F64.sub F64.one (F64.div (mid16 romCorrected) two64)) F64.posZero = false) := by
  decide +kernel

theorem mid16_finite (rom : BiasRom) : (mid16 rom).isFinite = true := by
  obtain ⟨hraw, hmag⟩ := rawEstimate_facts (p := 4) (RegFile.filled 2#7 16) le_rfl (by norm_num)
  exact midRange_finite rom hraw hmag

/-- The four combinations with MR occur, by the size of the bias. -/
theorem mid16_flagsOccur (L : LnUnit) :
    FlagsOccur L (RegimeFlags.bits ⟨false, true, false, false⟩) ∧
    FlagsOccur L (RegimeFlags.bits ⟨false, true, true, false⟩) ∧
    FlagsOccur L (RegimeFlags.bits ⟨false, true, false, true⟩) ∧
    FlagsOccur L (RegimeFlags.bits ⟨false, true, true, true⟩) := by
  obtain ⟨⟨hkeep, hpos⟩, hneg, ⟨hinf, hdinf⟩, hcor, hdcor⟩ := mid16_facts
  obtain ⟨v, hv⟩ := lastSteps_corrected (c := ultra4) (f := ⟨false, true, false, false⟩) L
    (mid16_finite romCorrected) rfl hcor hdcor
  have occur (rom : BiasRom) {x : F64} {f : RegimeFlags}
      (h : lastSteps L.ln ultra4 (mid16 rom) ⟨false, true, false, false⟩ = ⟨x, f⟩) : FlagsOccur L f.bits :=
    flagsOccur_of_filled rom (v := 2#7) (by decide) ((estimate_mid16 L rom).trans h)
  exact ⟨occur BiasRom.sample (lastSteps_keeps (.inr hkeep) hpos), occur romCorrected hv,
    occur romNegative (lastSteps_negative (mid16_finite _) hneg), occur romInfinity (lastSteps_infinity rfl hinf hdinf)⟩

/-- The two combinations of LR without MR occur, by the size of the registers. -/
theorem raw16_flagsOccur (L : LnUnit) :
    FlagsOccur L (RegimeFlags.bits ⟨false, false, true, false⟩) ∧
    FlagsOccur L (RegimeFlags.bits ⟨false, false, true, true⟩) := by
  obtain ⟨hs, hb, hl, hd⟩ := raw16_high 56#7 (by simp)
  obtain ⟨hs', hb', hl', hd'⟩ := raw16_high 61#7 (by simp)
  have hraw := (rawEstimate_facts (p := 4) (RegFile.filled 56#7 16) le_rfl (by norm_num)).1
  obtain ⟨v, hv⟩ := lastSteps_corrected (c := ultra4) (f := RegimeFlags.none) L hraw.finite rfl hl hd
  exact ⟨flagsOccur_of_filled BiasRom.sample (v := 56#7) (by decide) ((estimate_raw hs (.inr hb)).trans hv),
    flagsOccur_of_filled BiasRom.sample (v := 61#7) (by decide)
      ((estimate_raw hs' (.inr hb')).trans (lastSteps_infinity rfl hl' hd'))⟩

theorem flagsOccur_of_listed {L : LnUnit} (hL : LnBounded L) : ∀ f ∈ listedFlags, FlagsOccur L f := by
  obtain ⟨hsmall, hz0, hz1⟩ := raw16_small
  have h0 : FlagsOccur L (RegimeFlags.bits RegimeFlags.none) :=
    flagsOccur_of_filled BiasRom.sample (v := 1#7) (by decide) (estimate_full (by decide) (hsmall _ (by simp)) hz1)
  have h1 : FlagsOccur L (RegimeFlags.bits ⟨true, false, false, false⟩) :=
    flagsOccur_of_filled BiasRom.sample (v := 0#7) (by decide)
      (estimate_linear (by decide) hL (hsmall _ (by simp)) (hz0 ▸ by decide))
  obtain ⟨h4, hC⟩ := raw16_flagsOccur L
  obtain ⟨h2, h6, hA, hE⟩ := mid16_flagsOccur L
  simp only [List.forall_mem_cons]
  exact ⟨h0, h1, h2, h4, h6, hA, hC, hE, fun _ h => nomatch h⟩

/-! ### The other commands -/

/-- The outcome is one response, of status 0x00 or of an error. -/
def AnswersPlainly (s : State) (o : Host.Outcome State Fault Refusal) : Prop :=
  ∃ (t : State) (r : Response), o = .next t ∧ t.rq = s.rq ++ [r] ∧
    (r.status = okStatus ∨ ∃ e, r.status = errorStatus e)

theorem answersPlainly_error (s : State) (e : ErrorCode) : AnswersPlainly s (.next (s.raiseError e)) :=
  ⟨_, _, rfl, rfl, .inr ⟨e, rfl⟩⟩

theorem answersPlainly_ok {s u : State} (hrq : u.rq = s.rq) (d : Data64) :
    AnswersPlainly s (.next (u.respond okStatus d)) :=
  ⟨_, ⟨okStatus, d⟩, rfl, by rw [State.respond_rq, hrq], .inl rfl⟩

/-- Every command but EST answers 0x00 or an error. -/
theorem exec_answersPlainly {i : Instr} (hi : i ≠ .est) (s : State) : AnswersPlainly s (exec i s) := by
  cases i with
  | nop => exact answersPlainly_ok rfl _
  | config w64 mode p seed =>
    simp only [exec, execConfig]
    split
    · exact answersPlainly_error s _
    · split
      · exact answersPlainly_error s _
      · split
        · exact answersPlainly_error s _
        · exact answersPlainly_ok (by rfl) _
  | add data =>
    simp only [exec, execAdd]
    split
    · exact answersPlainly_error s _
    · exact answersPlainly_ok (by rfl) _
  | est => exact absurd rfl hi
  | rdreg index =>
    simp only [exec, execRdreg]
    split
    · exact answersPlainly_error s _
    · split
      · exact answersPlainly_error s _
      · exact answersPlainly_ok rfl _
  | rdstat => exact answersPlainly_ok rfl _
  | rdseed =>
    simp only [exec, execRdseed]
    split
    · exact answersPlainly_error s _
    · exact answersPlainly_ok rfl _
  | release => exact answersPlainly_ok (by rfl) _
  | illegal op rest => exact answersPlainly_error s _

/-- Settles O53: each branch of EST has its flags, and each combination a sketch of sixteen equal registers. -/
theorem regimeFlagCombinations : Obligations.RegimeFlagCombinations := by
  refine ⟨fun L hL => ⟨fun rom c regs hc => ?_, flagsOccur_of_listed hL⟩, fun s i hi => ?_⟩
  · obtain ⟨hlisted, hbaseline, hsaturated, hclamped⟩ := estimate_flagsMeaning hL rom regs hc
    exact ⟨hlisted, hbaseline, hsaturated, hclamped⟩
  · have herr : ∀ e, (errorStatus e).msb = true := by intro e; cases e <;> rfl
    obtain ⟨t, r, ht, hrq, hst⟩ := exec_answersPlainly hi s
    refine ⟨t, r, ht, hrq, fun hmsb => ?_⟩
    obtain h | ⟨e, h⟩ := hst
    · exact h
    · rw [h, herr] at hmsb
      cases hmsb

end Sys2Proof.Machine
end

section
/-! SUPPORT. The lifecycle and status commands (40_configuration.md): what each answers and writes, one equation per
outcome. -/

namespace Sys2Proof.Machine

/-! ### Reserved bits (30_encoding.md R92, R93) -/

/-- A word of format N with any of bits 31:4 set is refused, whatever its DATA and the state (60_exceptions.md R166). -/
theorem runCommand_reservedN {op : BitVec 4} (hop : op.toNat < 8) (hN : reservedMask op = 0xFFFFFFF0#32)
    {u : BitVec 28} (hu : u ≠ 0) (d : Data64) (s : State) :
    runCommand ⟨u ++ op, d⟩ s = .next (s.raiseError .reservedField) := by
  have hset : (u ++ op : BitVec 32) &&& reservedMask (opField (u ++ op)) ≠ 0#32 := by
    rw [opField_append, hN, ne_eq, reservedN_clear_iff]
    exact hu
  have hd : decodeCommand ⟨u ++ op, d⟩ = .error .reservedField := decode_reserved (by rwa [opField_append]) hset d
  rw [runCommand, hd]
  rfl

/-! ### CONFIG (40_configuration.md R111 to R113) -/

/-- A legal configuration, as the arithmetic of 40_configuration.md R113. -/
theorem legal_iff (p : BitVec 5) (mode : Mode) (w64 : Bool) : (Cfg.mk p mode w64 true).legal = true ↔
    4 ≤ p.toNat ∧ p.toNat ≤ 16 ∧ ¬(mode = .biasCorrected ∧ w64 = false) := by
  cases mode <;> simp [Cfg.legal, and_assoc]

section
variable {s : State} {w64 : Bool} {mode : Mode} {p : BitVec 5} (seed : Data64)

theorem exec_config_configured (hc : s.cfg.configured = true) :
    exec (.config w64 mode p seed) s = .next (s.raiseError .alreadyConfigured) := by
  simp [exec, execConfig, hc]

/-- The two operand checks refuse every configuration that is not legal. -/
theorem exec_config_illegal (hc : s.cfg.configured = false) (hl : ¬(Cfg.mk p mode w64 true).legal = true) :
    exec (.config w64 mode p seed) s = .next (s.raiseError .badConfig) := by
  cases hp : indexBitsOutOfRange p
  case true => simp [exec, execConfig, hc, hp]
  case false =>
    cases hm : modeNeedsWideHash mode w64
    case true => simp [exec, execConfig, hc, hp, hm]
    case false => exact absurd (legal_of_checks hp hm) hl

/-- The two operand checks let every legal configuration through. -/
theorem exec_config_legal (hc : s.cfg.configured = false) (hl : (Cfg.mk p mode w64 true).legal = true) :
    exec (.config w64 mode p seed) s = .next ((s.configure w64 mode p seed).respond okStatus 0#64) := by
  obtain ⟨hlo, hhi, hwide⟩ := (legal_iff p mode w64).1 hl
  have hp : indexBitsOutOfRange p = false := by simp [indexBitsOutOfRange, hlo, hhi]
  have hm : modeNeedsWideHash mode w64 = false := by cases mode <;> simp_all [modeNeedsWideHash]
  simp [exec, execConfig, hc, hp, hm]

end

/-- Settles O2: the checks accept exactly the legal configurations, and a cleared array holds 0 in every slot. -/
theorem configConstructsSketch : Obligations.ConfigConstructsSketch := by
  intro s w64 mode p seed
  refine ⟨exec_config_configured seed, fun hc hbad => ?_, fun hc hok => ?_⟩
  · exact exec_config_illegal seed hc (mt (legal_iff p mode w64).1 hbad)
  · exact ⟨RegFile.cleared, fun k _ => RegFile.read_cleared k,
      exec_config_legal seed hc ((legal_iff p mode w64).2 hok)⟩

/-! ### RELEASE, and a new sketch after it (R114, R115) -/

/-- On an unconfigured block there is nothing to release. -/
theorem State.Inv.release_eq_self {s : State} (h : s.Inv) (hc : s.cfg.configured = false) :
    Effect.release.apply s = s := by
  obtain ⟨hcfg, hseed⟩ := h.unconfigured_zero hc
  rw [Effect.apply, ← hcfg, ← hseed]

theorem exec_release (s : State) : exec .release s = .next ((Effect.release.apply s).respond okStatus 0#64) := rfl

/-- A RELEASE and a legal CONFIG leave the sketch that CONFIG writes and two responses. -/
theorem atomically_release_config (s : State) {w64 : Bool} {mode : Mode} {p : BitVec 5} (seed : Data64)
    (hl : (Cfg.mk p mode w64 true).legal = true) :
    atomically [encode .release, encode (.config w64 mode p seed)] s =
      (((Effect.release.apply s).respond okStatus 0#64).configure w64 mode p seed).respond okStatus 0#64 := by
  have hrelease := (runCommand_of_decode (decodeOfEncode .release rfl) s).trans (exec_release s)
  have hconfig := (runCommand_of_decode (decodeOfEncode (.config w64 mode p seed) rfl) _).trans
    (exec_config_legal (s := (Effect.release.apply s).respond okStatus 0#64) seed rfl hl)
  rw [atomically_cons hrelease, atomically_cons hconfig, atomically]

/-- Settles O36: the sketch after a RELEASE and a CONFIG is the one CONFIG writes. -/
theorem newSketchForgetsOld : Obligations.NewSketchForgetsOld := by
  intro s₁ s₂ w64 mode p seed hl
  simp only [atomically_release_config _ seed hl]
  exact ⟨rfl, rfl, rfl, rfl⟩

/-- Settles O3: RELEASE writes CFG and SEED alone, which are 0 already without a sketch. -/
theorem releaseEndsSketch : Obligations.ReleaseEndsSketch := by
  intro s d
  refine ⟨decode_legal (by decide) (by decide) d, exec_release s, fun hinv hc => ?_, fun u hu => ?_⟩
  · rw [exec_release, hinv.release_eq_self hc]
    rfl
  · exact runCommand_reservedN (by decide) rfl hu d s

/-! ### NOP (R110) -/

/-- Settles O1: NOP only answers, and its word has no reserved bit set. -/
theorem nopRespondsZero : Obligations.NopRespondsZero := by
  intro s d
  exact ⟨decode_legal (by decide) (by decide) d, rfl, fun u hu => runCommand_reservedN (by decide) rfl hu d s⟩

/-! ### RDSTAT (R117) -/

/-- The number of two bit vectors side by side. -/
theorem toNat_append_eq_add {n k : Nat} (x : BitVec n) (y : BitVec k) :
    (x ++ y).toNat = x.toNat * 2 ^ k + y.toNat := by
  rw [BitVec.toNat_append, ← Nat.shiftLeft_add_eq_or_of_lt y.isLt, Nat.shiftLeft_eq]

/-- The CFG image as a number (10_state.md R34). -/
theorem Cfg.image_toNat (c : Cfg) :
    c.image.toNat = c.p.toNat + 32 * c.mode.bit.toNat + 64 * c.w64.toNat + 128 * c.configured.toNat := by
  simp only [Cfg.image, toNat_append_eq_add, BitVec.toNat_ofBool]
  omega

theorem exec_rdstat (s : State) : exec .rdstat s = .next (s.respond okStatus (s.cfg.image.zeroExtend 64)) := rfl

/-- Settles O4: the data is the CFG image, 0 where every CFG field is 0. -/
theorem rdstatReadsConfiguration : Obligations.RdstatReadsConfiguration := by
  intro s d
  refine ⟨decode_legal (by decide) (by decide) d, ⟨_, exec_rdstat s, ?_⟩, fun hinv hc => ?_, fun u hu => ?_⟩
  · rw [BitVec.toNat_setWidth_of_le (by decide), Cfg.image_toNat]
  · have hzero : s.cfg.image = 0#8 := by
      obtain ⟨hcfg, -⟩ := hinv.unconfigured_zero hc
      rw [hcfg]
      rfl
    rw [exec_rdstat, hzero]
    rfl
  · exact runCommand_reservedN (by decide) rfl hu d s

/-! ### RDSEED (R118) -/

theorem exec_rdseed_configured {s : State} (hc : s.cfg.configured = true) :
    exec .rdseed s = .next (s.respond okStatus s.seed) := by
  simp [exec, execRdseed, hc]

theorem exec_rdseed_unconfigured {s : State} (hc : s.cfg.configured = false) :
    exec .rdseed s = .next (s.raiseError .notConfigured) := by
  simp [exec, execRdseed, hc]

/-- While a sketch lives, no command writes its seed: CONFIG needs a block without one, and RELEASE ends it. -/
theorem exec_keeps_seed {i : Instr} {s t : State} (hs : s.cfg.configured = true) (h : exec i s = .next t)
    (ht : t.cfg.configured = true) : t.seed = s.seed := by
  obtain ⟨f, r, hd⟩ := exec_does i s
  obtain rfl := Host.Outcome.next.inj (hd.run.symm.trans h)
  have ha := hd.allowed
  cases f with
  | none => rfl
  | configure w64 mode p seed =>
    obtain ⟨-, hc, -⟩ := ha
    rw [hs] at hc
    cases hc
  | write k v => rfl
  | release => cases ht

/-- Settles O5: RDSEED answers SEED, which no effect on a live sketch writes. -/
theorem rdseedReadsSeed : Obligations.RdseedReadsSeed := by
  intro s d
  exact ⟨decode_legal (by decide) (by decide) d, exec_rdseed_configured, exec_rdseed_unconfigured,
    fun i t => exec_keeps_seed, fun u hu => runCommand_reservedN (by decide) rfl hu d s⟩

end Sys2Proof.Machine
end

section
/-! SUPPORT. The update pipeline (41_update.md): the partition of the hash word, rho as a leading-zero count, and what
ADD and RDREG answer and write. -/

namespace Sys2Proof.Machine

/-! ### The partition (R122, R123) -/

/-- The hash word in arithmetic: with W = 64 it is DATA, with W = 32 its low half (41_update.md R123). -/
theorem hashWord_eq (c : Cfg) (data : Data64) :
    hashWord c data = if c.w64 then data.toNat else data.toNat % 2 ^ 32 := by
  unfold hashWord Cfg.width
  split
  · exact Nat.mod_eq_of_lt data.isLt
  · rfl

theorem hashWord_lt (c : Cfg) (data : Data64) : hashWord c data < 2 ^ c.width := Nat.mod_lt _ (Nat.two_pow_pos _)

theorem hashIndex_eq_and (c : Cfg) (h : Nat) : hashIndex c h = h &&& (c.m - 1) :=
  (Nat.and_two_pow_sub_one_eq_mod h _).symm

theorem hashRem_eq_div (c : Cfg) (h : Nat) : hashRem c h = h / c.m := Nat.shiftRight_eq_div_pow h _

theorem hashRem_mul_add_hashIndex (c : Cfg) (h : Nat) : hashRem c h * c.m + hashIndex c h = h := by
  rw [hashRem_eq_div]
  exact Nat.div_add_mod' h _

/-- Settles O39: index and remainder are the remainder and the quotient of the hash word by m. -/
theorem partitionSplitsHashWord : Obligations.PartitionSplitsHashWord := by
  intro c data hl
  obtain ⟨-, -, -, hp⟩ := legal_widths hl
  exact ⟨hashIndex_eq_and _ _, hashIndex_lt _ _, hashRem_eq_div _ _, hashRem_lt c hp (hashWord_lt c data),
    hashRem_mul_add_hashIndex _ _⟩

/-! ### Rho (R124, R125) -/

theorem clz_le (n v : Nat) : clz n v ≤ n := by
  induction n with
  | zero => exact le_rfl
  | succ n ih =>
    rw [clz]
    split <;> omega

/-- The branches and the cap of 41_update.md R124 are one leading-zero count: it is n for a zero remainder, and never
above n. -/
theorem rho_eq_clz (rem n : Nat) : rho rem n = clz n rem + 1 := by
  unfold rho
  split
  case isTrue h => rw [h, clz]
  case isFalse =>
    split
    case isTrue h => rw [h, clz_zero]
    case isFalse => exact min_eq_left (Nat.succ_le_succ (clz_le n rem))

theorem hashRho_eq_clz (c : Cfg) (h : Nat) : hashRho c h = clz c.remWidth (hashRem c h) + 1 := rho_eq_clz _ _

/-- Zero bits below a word add no leading zeros, except that those of the word 0 go on into them. -/
theorem min_clz_mul_two_pow (n p v : Nat) : min (clz (n + p) (v * 2 ^ p)) n = clz n v := by
  induction n with
  | zero => exact Nat.min_zero _
  | succ n ih =>
    have hbit : (v * 2 ^ p).testBit (n + p) = v.testBit n := by
      rw [Nat.testBit_mul_two_pow]
      simp
    rw [Nat.add_right_comm, clz, clz, hbit]
    split
    · exact Nat.zero_min _
    · rw [Nat.add_min_add_right, ih]

/-- All n bits are leading zeros in the word 0 alone. -/
theorem clz_eq_width_iff {n v : Nat} (h : v < 2 ^ n) : clz n v = n ↔ v = 0 := by
  refine ⟨fun hc => ?_, fun h0 => h0 ▸ clz_zero n⟩
  by_contra h0
  have := clz_add_log2 n h0 h
  omega

/-- Clearing the index bits leaves the remainder in its place. -/
theorem sub_hashIndex (c : Cfg) (h : Nat) : h - hashIndex c h = hashRem c h * 2 ^ c.p.toNat :=
  Nat.sub_eq_of_eq_add (hashRem_mul_add_hashIndex c h).symm

/-- Settles O40: rho is one more than the leading zeros of the remainder, which are those of the hash word with the
index bits cleared. -/
theorem rhoRangeAndEquivalentForm : Obligations.RhoRangeAndEquivalentForm := by
  intro c h hl hh w p
  obtain ⟨-, -, -, hp⟩ := legal_widths hl
  obtain ⟨hlo, hhi, h61⟩ := hashRho_range hl h
  have hclz := hashRho_eq_clz c h
  have hmax : clz c.remWidth (hashRem c h) = c.remWidth ↔ hashRem c h = 0 := clz_eq_width_iff (hashRem_lt c hp hh)
  have hiff : hashRho c h = c.remWidth + 1 ↔ hashRem c h = 0 := by rw [hclz, Nat.succ_inj, hmax]
  refine ⟨hlo, hhi, h61, hiff, fun h0 => ⟨hclz, ?_⟩, ?_⟩
  · exact Nat.le_of_lt_succ (lt_of_le_of_ne hhi (mt hiff.1 h0))
  · have hw : c.remWidth + c.p.toNat = c.width := Nat.sub_add_cancel hp
    rw [hclz, ← min_clz_mul_two_pow c.remWidth c.p.toNat, hw, ← sub_hashIndex]
    rfl

/-- Rho in arithmetic, from the quotient of the hash word by m. -/
theorem hashRho_eq {c : Cfg} (hl : c.legal = true) {h : Nat} (hh : h < 2 ^ c.width) :
    hashRho c h = if h / c.m = 0 then c.remWidth + 1 else c.remWidth - Nat.log2 (h / c.m) := by
  obtain ⟨-, -, -, hp⟩ := legal_widths hl
  rw [hashRho, ← hashRem_eq_div]
  split
  case isTrue h0 => rw [h0, rho_zero]
  case isFalse h0 => exact rho_of_ne_zero h0 (hashRem_lt c hp hh)

/-! ### ADD (R126, R127) -/

/-- The response of ADD: the index, whether rho is above the register's value, and rho. -/
def addResponse (c : Cfg) (rg : RegFile) (h : Nat) : Response :=
  ⟨okStatus, addResponseData (hashIndex c h) (decide ((rg.read (hashIndex c h)).toNat < hashRho c h)) (hashRho c h)⟩

/-- ADD on a sketch, with its response. -/
theorem exec_add_responds {s : State} (hc : s.cfg.configured = true) (d : Data64) : exec (.add d) s =
    .next (s.raised [hashWord s.cfg d] [addResponse s.cfg s.regs (hashWord s.cfg d)]) := by
  simp only [exec, execAdd, hc]
  rfl

/-- The response data as a number: under a legal configuration every field holds its value. -/
theorem addResponse_data_toNat {c : Cfg} (hl : c.legal = true) (rg : RegFile) (h : Nat) :
    (addResponse c rg h).data.toNat =
      65536 * hashIndex c h + (if (rg.read (hashIndex c h)).toNat < hashRho c h then 128 else 0) + hashRho c h := by
  obtain ⟨hm, -⟩ := legal_widths hl
  obtain ⟨-, -, h61⟩ := hashRho_range hl h
  rw [addResponse, addResponseData_toNat _ ((hashIndex_lt c h).trans_le hm) (by omega)]
  split <;> simp [*, Nat.mul_comm]

/-- Settles O6: the hash word raises one register, and the response's fields do not overlap. -/
theorem addRaisesRegisterToMaximum : Obligations.AddRaisesRegisterToMaximum := by
  intro s data
  refine ⟨decode_legal (by decide) (by decide) data, fun hc => exec_add_unconfigured hc data, fun hwf hl hc => ?_⟩
  intro p w h idx rem r old
  have hword : hashWord s.cfg data = h := hashWord_eq s.cfg data
  have hrho : hashRho s.cfg h = r := hashRho_eq hl (hword ▸ hashWord_lt s.cfg data)
  have hread := RegFile.read_raise hl hwf h
  refine ⟨s.regs.raise s.cfg h, (addResponse s.cfg s.regs h).data, ?_, ?_, fun k hk => ?_, ?_⟩
  · rw [exec_add_responds hc, hword]
    rfl
  · rw [hread, ← hrho]
    exact if_pos rfl
  · exact BitVec.eq_of_toNat_eq ((hread k).trans (if_neg hk.symm))
  · rw [← hrho]
    exact addResponse_data_toNat hl s.regs h

/-- A slot after a list of hash words: the maximum of its value and the rho of those with its index. -/
theorem RegFile.read_foldl_raise {c : Cfg} (hl : c.legal = true) {rg : RegFile} (hwf : rg.wf = true) (hs : List Nat)
    (k : Nat) : ((hs.foldl (RegFile.raise c) rg).read k).toNat =
      (hs.filter fun h => hashIndex c h = k).foldl (fun acc h => max acc (hashRho c h)) (rg.read k).toNat := by
  induction hs generalizing rg with
  | nil => rfl
  | cons h hs ih =>
    rw [List.foldl_cons, ih (RegFile.wf_raise hl hwf h), RegFile.read_raise hl hwf, List.filter_cons]
    split <;> simp [*]

/-- Settles O41: the ADDs raise the registers by their hash words. -/
theorem registerIsMaximumRho : Obligations.RegisterIsMaximumRho := by
  intro s ds hinv hc k
  obtain ⟨rs, h⟩ := atomically_adds ds hc
  rw [h]
  exact RegFile.read_foldl_raise (hinv.configured_legal hc) hinv.regs_canonical _ k

/-! ### RDREG (R130) -/

/-- An RDREG word decodes to its index, whatever its DATA. -/
theorem decode_rdregWord (index : BitVec 16) (d : Data64) :
    decode (encode (.rdreg index)).word d = .ok (.rdreg index) := by
  have hop : opField (encode (.rdreg index)).word = 0x4#4 := opField_append _ _
  have hr := (reservedI_clear_iff index 0#12 0x4#4).2 rfl
  have hindex : indexField (encode (.rdreg index)).word = index := indexField_append index 0#12 0x4#4
  rw [decode_legal (by rw [hop]; decide) (by rw [hop]; exact hr), decodeLegal_rdreg hop, hindex]

theorem exec_rdreg_unconfigured {s : State} (hc : s.cfg.configured = false) (index : BitVec 16) :
    exec (.rdreg index) s = .next (s.raiseError .notConfigured) := by
  simp [exec, execRdreg, hc]

theorem exec_rdreg_outOfRange {s : State} (hc : s.cfg.configured = true) {index : BitVec 16}
    (hi : s.cfg.m ≤ index.toNat) : exec (.rdreg index) s = .next (s.raiseError .indexRange) := by
  simp [exec, execRdreg, hc, hi]

theorem exec_rdreg_inRange {s : State} (hc : s.cfg.configured = true) {index : BitVec 16}
    (hi : index.toNat < s.cfg.m) :
    exec (.rdreg index) s = .next (s.respond okStatus ((s.regs.read index.toNat).zeroExtend 64)) := by
  simp [exec, execRdreg, hc, not_le.2 hi]

/-- Settles O7: the word is the assembled one, and the two checks of RDREG come before its answer. -/
theorem rdregReadsRegister : Obligations.RdregReadsRegister := by
  intro s index d
  refine ⟨?_, fun hc => exec_rdreg_unconfigured hc index, fun hc hi => exec_rdreg_outOfRange hc hi,
    fun hc hi => ⟨_, exec_rdreg_inRange hc hi, BitVec.toNat_setWidth_of_le (by decide)⟩⟩
  have hword : 0x4#32 ||| index.zeroExtend 32 <<< 16 = (encode (.rdreg index)).word := by
    simpa using assembledRdregWord index.toNat
  rw [hword, decode_rdregWord]

end Sys2Proof.Machine
end

section
/-! SUPPORT. Binary64 values as rational numbers: comparison is that of the values, rounding keeps the order of values
and leaves a binary64 value as it is, and a value scaled by a power of two is a value again (00_scope.md R13). -/

namespace Sys2Proof

open Machine (PosFinite)

/-! ### Comparison and sign -/

theorem F64.lt_iff_toRat {a b : F64} (ha : a.isFinite = true) (hb : b.isFinite = true) :
    F64.lt a b = true ↔ a.toRat < b.toRat := by
  rw [Machine.lt_iff_of_finite ha hb, F64.toRat, F64.toRat, div_lt_div_iff_of_pos_right F64.unitsPerOne_pos,
    Int.cast_lt]

theorem F64.le_iff_toRat {a b : F64} (ha : a.isFinite = true) (hb : b.isFinite = true) :
    F64.le a b = true ↔ a.toRat ≤ b.toRat := by
  rw [Machine.le_iff_of_finite ha hb, F64.toRat, F64.toRat, div_le_div_iff_of_pos_right F64.unitsPerOne_pos,
    Int.cast_le]

@[simp] theorem F64.one_toRat : F64.one.toRat = 1 := by decide +kernel

@[simp] theorem F64.posZero_toRat : F64.posZero.toRat = 0 := by decide +kernel

theorem Machine.PosFinite.toRat_pos {x : F64} (h : PosFinite x) : 0 < x.toRat := by
  rw [F64.toRat, h.units]
  exact div_pos (by exact_mod_cast h.pos) F64.unitsPerOne_pos

/-- The value of a finite number lies below the overflow threshold. -/
theorem F64.abs_toRat_lt_limit {x : F64} (h : x.isFinite = true) : |x.toRat| < F64.overflowLimit := by
  have hround : F64.roundMag x.mag 1 = x.toNat % 2 ^ 63 :=
    F64.roundMag_exact Nat.one_pos (by rw [F64.mag_eq_magOf, mul_one])
  have hlt := (F64.roundMag_finite_iff Nat.one_pos).1 (hround.trans_lt ((F64.isFinite_iff x).1 h))
  rwa [Nat.cast_one, div_one, ← F64.magRat, ← F64.abs_toRat] at hlt

/-! ### Rounding keeps the order -/

/-- A rounded result that is finite is the nearest value. -/
theorem F64.Rounds.nearest {x : Rat} {y : F64} (h : F64.Rounds x y) (hy : y.isFinite = true) :
    F64.NearestEven (x : ℝ) y := by
  obtain ⟨hnear, hpos, hneg⟩ := h
  refine hnear (abs_lt.2 ⟨lt_of_not_ge fun hx => ?_, lt_of_not_ge fun hx => ?_⟩)
  · rw [hneg hx] at hy
    exact absurd hy (by decide)
  · rw [hpos hx] at hy
    exact absurd hy (by decide)

/-- A binary64 value at or below the exact value is at or below the rounded one. -/
theorem F64.Rounds.ge_of_ge {x : Rat} {y z : F64} (h : F64.Rounds x y) (hy : y.isFinite = true)
    (hz : z.isFinite = true) (hzx : z.toRat ≤ x) : z.toRat ≤ y.toRat := by
  have hnear := ((F64.nearestEven_cast_iff x y).1 (h.nearest hy)).2.1 z hz
  by_contra hlt
  rw [abs_of_nonneg (sub_nonneg.2 hzx), abs_of_nonneg (by linarith)] at hnear
  linarith

/-- A binary64 value at or above the exact value is at or above the rounded one. -/
theorem F64.Rounds.le_of_le {x : Rat} {y z : F64} (h : F64.Rounds x y) (hy : y.isFinite = true)
    (hz : z.isFinite = true) (hxz : x ≤ z.toRat) : y.toRat ≤ z.toRat := by
  have hnear := ((F64.nearestEven_cast_iff x y).1 (h.nearest hy)).2.1 z hz
  by_contra hlt
  rw [abs_of_nonpos (by linarith), abs_of_nonpos (by linarith)] at hnear
  linarith

/-- A binary64 value is its own rounding. -/
theorem F64.Rounds.exact {x : Rat} {y z : F64} (h : F64.Rounds x y) (hz : z.isFinite = true) (hzx : z.toRat = x) :
    y.isFinite = true ∧ y.toRat = x := by
  have hy := (h.1 (hzx ▸ F64.abs_toRat_lt_limit hz)).1
  exact ⟨hy, le_antisymm (hzx ▸ h.le_of_le hy hz hzx.ge) (hzx ▸ h.ge_of_ge hy hz hzx.le)⟩

theorem F64.ofRatio_rounds (num : Nat) {den : Nat} (hd : 0 < den) :
    F64.Rounds (num / den) (F64.ofRatio num den) := by
  have h := F64.rne_rounds false (n := num * F64.unitsPerOne) hd
  rwa [F64.signed, if_neg Bool.false_ne_true, Nat.cast_mul, div_right_comm,
    mul_div_cancel_right₀ _ F64.unitsPerOne_pos.ne'] at h

/-! ### Scaling by a power of two -/

/-- The value of a normal number: its significand and its exponent. -/
theorem F64.toRat_ofFields (neg : Bool) {e f : Nat} (he : 1 ≤ e) (he' : e ≤ 2046) (hf : f < 2 ^ 52) :
    (F64.ofFields neg (e * 2 ^ 52 + f)).toRat = F64.signed neg ((2 ^ 52 + f) * 2 ^ ((e : ℤ) - 1075)) := by
  have hb : e * 2 ^ 52 + f < 2 ^ 63 := by omega
  have hdiv : (e * 2 ^ 52 + f) / 2 ^ 52 = e := by omega
  have hmod : (e * 2 ^ 52 + f) % 2 ^ 52 = f := by omega
  rw [F64.toRat_eq_signed, F64.ofFields_sign _ hb, F64.magRat, F64.ofFields_mag _ hb, F64.magOf, hdiv, hmod,
    if_neg (by omega), show (e : ℤ) - 1075 = ((e - 1 : Nat) : ℤ) - (1074 : Nat) by omega, zpow_sub₀ two_ne_zero,
    zpow_natCast, zpow_natCast, ← mul_div_assoc]
  norm_cast

/-- A normal number scaled by a power of two is a binary64 value, where its exponent stays in range. -/
theorem F64.exists_mul_two_zpow {x : F64} {k : ℤ} (hx : 1 ≤ x.expBits) (hlo : 1 ≤ x.expBits + k)
    (hhi : x.expBits + k ≤ 2046) (hx' : x.expBits ≤ 2046) :
    ∃ z : F64, z.isFinite = true ∧ z.toRat = x.toRat * 2 ^ k := by
  obtain ⟨e, he⟩ := Int.eq_ofNat_of_zero_le (show 0 ≤ x.expBits + k by omega)
  have hf : x.fracBits < 2 ^ 52 := Nat.mod_lt _ (by norm_num)
  have hxe : x = F64.ofFields x.sign (x.expBits * 2 ^ 52 + x.fracBits) := by
    conv_lhs => rw [F64.eq_ofFields x]
    congr 1
    unfold F64.expBits F64.fracBits
    omega
  refine ⟨F64.ofFields x.sign (e * 2 ^ 52 + x.fracBits), ?_, ?_⟩
  · rw [F64.isFinite, F64.ofFields_expBits _ (by omega), bne_iff_ne]
    omega
  · conv_rhs => rw [hxe, F64.toRat_ofFields _ hx hx' hf]
    rw [F64.toRat_ofFields _ (by omega) (by omega) hf]
    have hpow : (2 : ℚ) ^ ((e : ℤ) - 1075) = 2 ^ ((x.expBits : ℤ) - 1075) * 2 ^ k := by
      rw [← zpow_add₀ two_ne_zero]
      congr 1
      omega
    rw [hpow]
    cases x.sign <;> simp [F64.signed, mul_assoc]

/-- A power of two in the range of the exponents is a binary64 value. -/
theorem F64.exists_two_zpow {k : ℤ} (hlo : -1022 ≤ k) (hhi : k ≤ 1023) :
    ∃ z : F64, z.isFinite = true ∧ z.toRat = 2 ^ k := by
  have hone : F64.one.expBits = 1023 := by decide
  simpa using F64.exists_mul_two_zpow (x := F64.one) (k := k) (by omega) (by omega) (by omega) (by omega)

end Sys2Proof
end

section
/-! SUPPORT. The harmonic sum and the raw estimate as rational numbers (42_estimate.md R141, R142): each is one rounding
of the exact value, and both are bounded by the sketch in which every register holds the same value. -/

namespace Sys2Proof.Machine

/-! ### The harmonic sum (R141) -/

/-- HS, the exact sum of `2^(−REG[i])` over the registers below `m`. -/
def exactHarmonicSum (regs : RegFile) (m : Nat) : ℚ := ∑ k ∈ Finset.range m, (1 / 2) ^ (regs.read k).toNat

/-- `harmonicNum` is its numerator over 2^127. -/
theorem harmonicNum_div (regs : RegFile) (m : Nat) :
    (harmonicNum regs m : ℚ) / (2 ^ 127 : Nat) = exactHarmonicSum regs m := by
  induction m with
  | zero => simp [harmonicNum, exactHarmonicSum]
  | succ m ih =>
    have hreg : (regs.read m).toNat ≤ 127 := Nat.le_pred_of_lt (regs.read m).isLt
    rw [exactHarmonicSum, Finset.sum_range_succ, ← exactHarmonicSum, ← ih, harmonicNum, Nat.cast_add, add_div,
      one_div_pow, add_right_inj]
    push_cast
    rw [pow_sub₀ _ two_ne_zero hreg]
    field_simp
    norm_num

/-- hs is HS, rounded once. -/
theorem harmonicSum_rounds (regs : RegFile) (m : Nat) :
    F64.Rounds (exactHarmonicSum regs m) (harmonicSum regs m) := by
  rw [← harmonicNum_div]
  exact F64.ofRatio_rounds _ (by norm_num)

section
variable {regs : RegFile} {m v : Nat}

theorem le_exactHarmonicSum (h : ∀ k < m, (regs.read k).toNat ≤ v) : (m : ℚ) / 2 ^ v ≤ exactHarmonicSum regs m := by
  have hterm : ∀ k ∈ Finset.range m, (1 / 2 : ℚ) ^ v ≤ (1 / 2) ^ (regs.read k).toNat := fun k hk =>
    pow_le_pow_of_le_one (by norm_num) (by norm_num) (h k (Finset.mem_range.1 hk))
  simpa [exactHarmonicSum, div_eq_mul_inv] using Finset.card_nsmul_le_sum _ _ _ hterm

theorem exactHarmonicSum_le (h : ∀ k < m, v ≤ (regs.read k).toNat) : exactHarmonicSum regs m ≤ (m : ℚ) / 2 ^ v := by
  have hterm : ∀ k ∈ Finset.range m, (1 / 2 : ℚ) ^ (regs.read k).toNat ≤ (1 / 2) ^ v := fun k hk =>
    pow_le_pow_of_le_one (by norm_num) (by norm_num) (h k (Finset.mem_range.1 hk))
  simpa [exactHarmonicSum, div_eq_mul_inv] using Finset.sum_le_card_nsmul _ _ _ hterm

end

theorem exactHarmonicSum_cast (regs : RegFile) (m : Nat) :
    (exactHarmonicSum regs m : ℝ) = ∑ k ∈ Finset.range m, (1 / 2 : ℝ) ^ (regs.read k).toNat := by
  simp [exactHarmonicSum]

/-- Settles O44: hs is one rounding of HS, and each of its terms lies between `2^(−61)` and 1. -/
theorem harmonicSumIsRoundedOnce : Obligations.HarmonicSumIsRoundedOnce := by
  intro regs m h1 h2
  have hpos := (harmonicSum_facts regs h1 h2).1
  rw [← exactHarmonicSum_cast]
  refine ⟨(harmonicSum_rounds regs m).nearest hpos.finite, hpos.toRat_pos, fun h => ?_, ?_⟩
  · simpa using (Rat.cast_le (K := ℝ)).2 (le_exactHarmonicSum h)
  · have hle := exactHarmonicSum_le (regs := regs) (m := m) (v := 0) fun _ _ => Nat.zero_le _
    rw [pow_zero, div_one] at hle
    exact_mod_cast hle

/-! ### The raw estimate (R142) -/

/-- alpha64(P) is a normal number from 1/2 to 0.73 (10_state.md R36). -/
theorem alpha64_facts {p : Nat} (h1 : 4 ≤ p) (h2 : p ≤ 16) : (alpha64 p).isFinite = true ∧
    (alpha64 p).expBits = 1022 ∧ 1 / 2 ≤ (alpha64 p).toRat ∧ (alpha64 p).toRat < 73 / 100 := by
  have h : ∀ p : Fin 17, 4 ≤ p.val → (alpha64 p.val).isFinite = true ∧
      (alpha64 p.val).expBits = 1022 ∧ 1 / 2 ≤ (alpha64 p.val).toRat ∧ (alpha64 p.val).toRat < 73 / 100 := by
    decide +kernel
  exact h ⟨p, by omega⟩ h1

/-- A power of two up to 2^1023 is exact in binary64. -/
theorem ofNat_two_pow {k : Nat} (hk : k ≤ 1023) :
    (F64.ofNat (2 ^ k)).isFinite = true ∧ (F64.ofNat (2 ^ k)).toRat = 2 ^ k := by
  obtain ⟨z, hz, hzk⟩ := F64.exists_two_zpow (k := k) (by omega) (by omega)
  have h := F64.ofRatio_rounds (2 ^ k) Nat.one_pos
  rw [Nat.cast_one, div_one, Nat.cast_pow, Nat.cast_ofNat] at h
  exact h.exact hz (by rw [hzk, zpow_natCast])

theorem harmonicSum_posFinite {p : Nat} (regs : RegFile) (h : p ≤ 16) : PosFinite (harmonicSum regs (2 ^ p)) :=
  (harmonicSum_facts regs Nat.one_le_two_pow (Nat.pow_le_pow_right two_pos h : 2 ^ p ≤ 2 ^ 16)).1

section
variable {p : Nat} {regs : RegFile} {v : Nat} (h1 : 4 ≤ p) (h2 : p ≤ 16)
include h1 h2

/-- alpha64(P) scaled by a power of two is a binary64 value. -/
theorem exists_alpha64_mul {k : Nat} (hk : k ≤ 1000) :
    ∃ z : F64, z.isFinite = true ∧ z.toRat = (alpha64 p).toRat * 2 ^ k := by
  obtain ⟨-, he, -⟩ := alpha64_facts h1 h2
  simpa using F64.exists_mul_two_zpow (x := alpha64 p) (k := k) (by omega) (by omega) (by omega) (by omega)

theorem alpha64_mul_nonneg (k : Nat) : 0 ≤ (alpha64 p).toRat * 2 ^ k := by
  obtain ⟨-, -, hlo, -⟩ := alpha64_facts h1 h2
  exact mul_nonneg (by linarith) (by positivity)

/-- The dividend `alpha64(P) ⊗ m²` is exact. -/
theorem alphaScaled_toRat :
    (F64.mul (alpha64 p) (F64.ofNat (2 ^ (2 * p)))).toRat = (alpha64 p).toRat * 2 ^ (2 * p) := by
  obtain ⟨hf, hv⟩ := ofNat_two_pow (k := 2 * p) (by omega)
  obtain ⟨z, hz, hzv⟩ := exists_alpha64_mul h1 h2 (k := 2 * p) (by omega)
  have h := F64.mul_rounds (alpha64_facts h1 h2).1 hf
  rw [hv] at h
  exact (h.exact hz hzv).2

/-- raw is one rounding of `alpha64(P)·m²/hs`. -/
theorem rawEstimate_rounds : F64.Rounds ((alpha64 p).toRat * 2 ^ (2 * p) / (harmonicSum regs (2 ^ p)).toRat)
    (rawEstimate p regs) := by
  have hpos := harmonicSum_posFinite regs h2
  have h := F64.div_rounds (alphaScaled_facts h1 h2).1.finite hpos.finite hpos.toRat_pos.ne'
  rwa [alphaScaled_toRat h1 h2] at h

theorem exists_two_pow_div (hv : v ≤ 127) :
    ∃ z : F64, z.isFinite = true ∧ z.toRat = ((2 ^ p : Nat) : ℚ) / 2 ^ v := by
  obtain ⟨z, hz, hzv⟩ := F64.exists_two_zpow (k := (p : ℤ) - v) (by omega) (by omega)
  exact ⟨z, hz, by rw [hzv, zpow_sub₀ two_ne_zero]; norm_cast⟩

/-- With every register at most `v`, raw is at most `alpha64(P)·2^(P + v)`. -/
theorem rawEstimate_le (hv : v ≤ 127) (h : ∀ k < 2 ^ p, (regs.read k).toNat ≤ v) :
    (rawEstimate p regs).toRat ≤ (alpha64 p).toRat * 2 ^ (p + v) := by
  obtain ⟨z, hz, hzv⟩ := exists_two_pow_div h1 h2 hv
  obtain ⟨y, hy, hyv⟩ := exists_alpha64_mul h1 h2 (k := p + v) (by omega)
  have hpos := harmonicSum_posFinite regs h2
  have hhs := (harmonicSum_rounds regs (2 ^ p)).ge_of_ge hpos.finite hz (hzv.trans_le (le_exactHarmonicSum h))
  rw [← hyv]
  refine (rawEstimate_rounds h1 h2).le_of_le (rawEstimate_facts regs h1 h2).1.finite hy ?_
  rw [hyv, div_le_iff₀ hpos.toRat_pos]
  calc (alpha64 p).toRat * 2 ^ (2 * p)
    _ = (alpha64 p).toRat * 2 ^ (p + v) * z.toRat := by rw [hzv]; push_cast; field_simp; ring
    _ ≤ _ := mul_le_mul_of_nonneg_left hhs (alpha64_mul_nonneg h1 h2 _)

/-- With every register at least `v`, raw is at least `alpha64(P)·2^(P + v)`. -/
theorem le_rawEstimate (hv : v ≤ 127) (h : ∀ k < 2 ^ p, v ≤ (regs.read k).toNat) :
    (alpha64 p).toRat * 2 ^ (p + v) ≤ (rawEstimate p regs).toRat := by
  obtain ⟨z, hz, hzv⟩ := exists_two_pow_div h1 h2 hv
  obtain ⟨y, hy, hyv⟩ := exists_alpha64_mul h1 h2 (k := p + v) (by omega)
  have hpos := harmonicSum_posFinite regs h2
  have hhs := (harmonicSum_rounds regs (2 ^ p)).le_of_le hpos.finite hz ((exactHarmonicSum_le h).trans_eq hzv.symm)
  rw [← hyv]
  refine (rawEstimate_rounds h1 h2).ge_of_ge (rawEstimate_facts regs h1 h2).1.finite hy ?_
  rw [hyv, le_div_iff₀ hpos.toRat_pos]
  calc _ ≤ (alpha64 p).toRat * 2 ^ (p + v) * z.toRat := mul_le_mul_of_nonneg_left hhs (alpha64_mul_nonneg h1 h2 _)
    _ = (alpha64 p).toRat * 2 ^ (2 * p) := by rw [hzv]; push_cast; field_simp; ring

/-- With every register equal to `v`, raw is `alpha64(P)·2^(P + v)`. -/
theorem rawEstimate_eq (hv : v ≤ 127) (h : ∀ k < 2 ^ p, (regs.read k).toNat = v) :
    (rawEstimate p regs).toRat = (alpha64 p).toRat * 2 ^ (p + v) :=
  le_antisymm (rawEstimate_le h1 h2 hv fun k hk => (h k hk).le) (le_rawEstimate h1 h2 hv fun k hk => (h k hk).ge)

end

/-- Settles O46: raw is one rounding, bounded by the sketches whose registers all hold 0 or all hold W − P + 1. -/
theorem rawEstimateIsRoundedQuotient : Obligations.RawEstimateIsRoundedQuotient := by
  intro p regs h1 h2
  obtain ⟨hraw, -⟩ := rawEstimate_facts regs h1 h2
  have halpha := (alpha64_facts h1 h2).2.2.2
  have hmin := le_rawEstimate h1 h2 (regs := regs) (v := 0) (by omega) fun _ _ => Nat.zero_le _
  have hexp : ∀ w, w = 32 ∨ w = 64 → p + (w - p + 1) = w + 1 := fun w hw => by omega
  refine ⟨?_, hraw.toRat_pos, hmin, fun h => ?_, fun w hw h => ?_, fun w hw h => ?_⟩
  · have h := (rawEstimate_rounds h1 h2).nearest hraw.finite
    rwa [pow_mul, show (2 : ℚ) ^ 2 = 4 by norm_num] at h
  · exact rawEstimate_eq h1 h2 (v := 0) (by omega) fun k hk => by rw [h k hk]; rfl
  · have hmax := rawEstimate_le h1 h2 (by omega) h
    rw [hexp w hw] at hmax
    refine ⟨hmax, hmax.trans_lt ?_⟩
    calc (alpha64 p).toRat * 2 ^ (w + 1)
      _ < 73 / 100 * 2 ^ (w + 1) := mul_lt_mul_of_pos_right halpha (by positivity)
      _ ≤ 73 / 100 * 2 ^ 65 := mul_le_mul_of_nonneg_left (pow_le_pow_right₀ one_le_two (by omega)) (by norm_num)
  · rw [rawEstimate_eq h1 h2 (by omega) h, hexp w hw]

end Sys2Proof.Machine
end

section
/-! SUPPORT. The bias table (42_estimate.md R147 to R149): the lower bound as the least index at or above a value, the
six places of the window, and the size of the window average. -/

namespace Sys2Proof.Machine

/-! ### The lower bound (R147) -/

/-- The lower bound is the first index whose raw estimate is at or above `x`. -/
theorem lowerBound_eq_findIdx (x : F64) (l : List BiasEntry) : lowerBound x l = l.findIdx fun e => F64.le x e.raw := by
  induction l with
  | nil => rfl
  | cons e l ih => rw [lowerBound, List.findIdx_cons, ih]; cases F64.le x e.raw <;> rfl

/-- The raw estimates rise: neighbours are in order, so all are. -/
theorem biasIncreasing_pairwise {l : List BiasEntry} (h : biasIncreasing l = true) :
    l.Pairwise fun a b => a.raw.units < b.raw.units := by
  rw [← List.isChain_iff_pairwise]
  induction l with
  | nil => exact .nil
  | cons a l ih =>
    cases l with
    | nil => exact .singleton a
    | cons b l =>
      simp only [biasIncreasing, F64.lt, Bool.and_eq_true, decide_eq_true_eq] at h
      exact .cons_cons h.1.2 (ih h.2)

section
variable (rom : BiasRom)

theorem biasRaw_eq_getElem {j : Nat} (hj : j < rom.entries.length) : rom.raw j = rom.entries[j].raw := by
  simp [BiasRom.raw, hj]

/-- Every raw estimate of the table is finite (10_state.md R39). -/
theorem biasRaw_isFinite {j : Nat} (hj : j < 200) : (rom.raw j).isFinite = true := by
  have hj' : j < rom.entries.length := (BiasRom.length_eq rom).symm ▸ hj
  have hok := rom.ok
  simp only [biasRomOk, Bool.and_eq_true, List.all_eq_true] at hok
  obtain ⟨⟨-, hentries⟩, -⟩ := hok
  have hentry := hentries _ (List.getElem_mem hj')
  simp only [biasEntryOk, Bool.and_eq_true] at hentry
  obtain ⟨⟨hraw, -⟩, -⟩ := hentry
  rwa [biasRaw_eq_getElem rom hj']

/-- The raw estimates of the table rise strictly (10_state.md R39). -/
theorem biasRaw_units_lt {i j : Nat} (hij : i < j) (hj : j < 200) : (rom.raw i).units < (rom.raw j).units := by
  have hj' : j < rom.entries.length := (BiasRom.length_eq rom).symm ▸ hj
  have hok := rom.ok
  simp only [biasRomOk, Bool.and_eq_true] at hok
  rw [biasRaw_eq_getElem rom (hij.trans hj'), biasRaw_eq_getElem rom hj']
  exact List.pairwise_iff_getElem.1 (biasIncreasing_pairwise hok.2) i j _ hj' hij

variable {x : F64} (hx : x.isNaN = false) {j : Nat} (hj : j < 200)
include hx hj

theorem biasRaw_lt_iff_units : F64.lt (rom.raw j) x = true ↔ (rom.raw j).units < x.units := by
  simp [F64.lt, hx, F64.isNaN_of_isFinite (biasRaw_isFinite rom hj)]

theorem le_biasRaw_iff_units : F64.le x (rom.raw j) = true ↔ x.units ≤ (rom.raw j).units := by
  simp [F64.le, hx, F64.isNaN_of_isFinite (biasRaw_isFinite rom hj)]

/-- The entries at or above `x` are those from the lower bound on. -/
theorem le_biasRaw_iff : F64.le x (rom.raw j) = true ↔ lowerBound x rom.entries ≤ j := by
  have hj' : j < rom.entries.length := (BiasRom.length_eq rom).symm ▸ hj
  rw [lowerBound_eq_findIdx]
  constructor
  · intro hle
    by_contra hlt
    have hbelow := List.not_of_lt_findIdx (not_le.1 hlt)
    rw [← biasRaw_eq_getElem rom hj', hle] at hbelow
    cases hbelow
  · intro hle
    have hi := hle.trans_lt hj'
    have hfound := List.findIdx_getElem (w := hi)
    rw [← biasRaw_eq_getElem rom hi] at hfound
    rcases hle.eq_or_lt with heq | hlt
    · rwa [heq] at hfound
    · rw [le_biasRaw_iff_units rom hx (hlt.trans hj)] at hfound
      rw [le_biasRaw_iff_units rom hx hj]
      exact hfound.trans (biasRaw_units_lt rom hlt hj).le

/-- The entries below `x` are those before the lower bound. -/
theorem biasRaw_lt_iff : F64.lt (rom.raw j) x = true ↔ j < lowerBound x rom.entries := by
  rw [← not_le, ← le_biasRaw_iff rom hx hj, biasRaw_lt_iff_units rom hx hj, le_biasRaw_iff_units rom hx hj, not_le]

end

/-- A predicate that holds exactly below `i` selects `i` numbers. -/
theorem length_filter_range {f : Nat → Bool} {i n : Nat} (hi : i ≤ n) (h : ∀ j < n, f j = true ↔ j < i) :
    ((List.range n).filter f).length = i := by
  obtain ⟨k, rfl⟩ := Nat.exists_eq_add_of_le hi
  have hlow : (List.range i).filter f = List.range i :=
    List.filter_eq_self.2 fun j hj => by
      have hji := List.mem_range.1 hj
      exact (h j (hji.trans_le hi)).2 hji
  have hhigh : ((List.range k).map (i + ·)).filter f = [] := by
    refine List.filter_eq_nil_iff.2 fun j hj hf => ?_
    obtain ⟨a, ha, rfl⟩ := List.mem_map.1 hj
    have := (h (i + a) (Nat.add_lt_add_left (List.mem_range.1 ha) i)).1 hf
    omega
  rw [List.range_add, List.filter_append, hlow, hhigh, List.append_nil, List.length_range]

/-- Settles O48: the entries below `x` are those before the lower bound. -/
theorem lowerBoundIsLeastIndex : Obligations.LowerBoundIsLeastIndex := by
  intro rom x hx
  have hi : lowerBound x rom.entries ≤ 200 := (lowerBound_le x rom.entries).trans_eq (BiasRom.length_eq rom)
  exact ⟨hi, fun h => (le_biasRaw_iff rom hx h).2 le_rfl, fun j hj => (biasRaw_lt_iff rom hx (hj.trans_le hi)).2 hj,
    length_filter_range hi fun j hj => biasRaw_lt_iff rom hx hj⟩

/-! ### The window (R148) -/

/-- The window starts three entries before the index, from 0 at the lower edge to 194 at the upper one. -/
theorem windowLeft_eq {idx : Nat} (h : idx ≤ 200) : windowLeft idx = min (idx - 3) 194 := by
  simp only [windowLeft, biasN]
  split <;> omega

/-- Settles O49, from the closed form of the left end. -/
theorem windowHasSixEntries : Obligations.WindowHasSixEntries := by
  intro idx h
  rw [windowLeft_eq h, windowRight, biasN]
  omega

/-! ### The window average (R149) -/

/-- The window average written out, with 6.0 as its encoding. -/
theorem windowAvg_eq (rom : BiasRom) (raw : F64) : windowAvg rom raw =
    let b := rom.val
    let l := windowLeft (lowerBound raw rom.entries)
    F64.div (F64.add (F64.add (F64.add (F64.add (F64.add (b l) (b (l + 1))) (b (l + 2))) (b (l + 3))) (b (l + 4)))
      (b (l + 5))) 0x4018000000000000#64 := by
  have hsix : F64.ofNat 6 = 0x4018000000000000#64 := by decide +kernel
  rw [windowAvg, hsix, windowSum]

theorem windowAvg_abs_toRat_le (rom : BiasRom) (raw : F64) : |(windowAvg rom raw).toRat| ≤ 2 ^ 1020 := by
  have hmag := (windowAvg_facts rom raw).2
  rw [F64.abs_toRat, F64.magRat, div_le_iff₀ F64.unitsPerOne_pos]
  rwa [← Nat.cast_le (α := ℚ), Nat.cast_mul, Nat.cast_pow, Nat.cast_ofNat] at hmag

/-- Settles O47: the average of six biases of magnitude at most 2^1020 is no larger than they are. -/
theorem midRangeEstimateIsFinite : Obligations.MidRangeEstimateIsFinite := by
  intro rom p regs h1 h2
  obtain ⟨hraw, hmag⟩ := rawEstimate_facts regs h1 h2
  refine ⟨windowAvg_eq rom _, (windowAvg_facts rom _).1, ?_, midRange_finite rom hraw hmag⟩
  exact (windowAvg_abs_toRat_le rom _).trans (pow_le_pow_right₀ one_le_two (by norm_num))

end Sys2Proof.Machine
end

section
/-! SUPPORT. The estimate by regime (42_estimate.md R140, R144 to R156): which value and flags reach the last two steps,
and what those make of them, in every branch and for every LN unit and ROM. -/

namespace Sys2Proof.Machine

/-! ### Non-negative numbers -/

/-- A non-negative value that is no NaN is finite or +infinity. -/
theorem isFinite_or_posInf {x : F64} (hs : x.sign = false) (hn : x.isNaN = false) :
    x.isFinite = true ∨ x = F64.posInf := by
  refine or_iff_not_imp_left.2 fun hf => ?_
  have hexp : x.expBits = 2047 := by simpa [F64.isFinite] using hf
  have hfrac : x.fracBits = 0 := by simpa [F64.isNaN, hexp] using hn
  have hbits : x.toNat % 2 ^ 63 = 2047 * 2 ^ 52 := by
    unfold F64.expBits F64.fracBits at *
    omega
  rw [F64.eq_ofFields x, hs, hbits]
  rfl

theorem posInf_number : F64.posInf.sign = false ∧ F64.posInf.isNaN = false := by decide

theorem posZero_number : F64.posZero.sign = false ∧ F64.posZero.isNaN = false := by decide

theorem getLsbD_63 (x : F64) : x.getLsbD 63 = x.sign := (BitVec.msb_eq_getLsbD_last x).symm

/-! ### Saturation (R151) -/

/-- From 2^64 on, `1 ⊖ x ⊘ 2^64` is not positive. -/
theorem saturates_of_ge {x : F64} (hx : x.isFinite = true) (h : 2 ^ 64 ≤ x.toRat) (hl : F64.lt tlr x = true) :
    F64.le (F64.sub F64.one (F64.div x two64)) F64.posZero = true := by
  obtain ⟨hpos, hmag⟩ := posFinite_of_lt_tlr hx hl
  have htwo : two64.toRat = 2 ^ 64 := (ofNat_two_pow (by norm_num)).2
  have hd := (saturation_facts hpos hmag).1
  have hq := F64.div_rounds hx two64_facts.1.finite (by rw [htwo]; norm_num)
  rw [htwo] at hq
  have hle : x.toRat / 2 ^ 64 ≤ x.toRat := div_le_self hpos.toRat_pos.le (by norm_num)
  have hfin : (F64.div x two64).isFinite = true := by
    refine (hq.1 (lt_of_le_of_lt ?_ (F64.abs_toRat_lt_limit hx))).1
    rwa [abs_of_nonneg (div_nonneg hpos.toRat_pos.le (by norm_num)), abs_of_pos hpos.toRat_pos]
  have hone := hq.ge_of_ge hfin one_facts.1 (by rw [F64.one_toRat, le_div_iff₀ (by norm_num), one_mul]; exact h)
  rw [F64.le_iff_toRat hd posZero_facts.1]
  refine (F64.sub_rounds one_facts.1 hfin).le_of_le hd posZero_facts.1 ?_
  rw [F64.posZero_toRat]
  linarith

/-- +infinity saturates. -/
theorem posInf_saturates : F64.le (F64.sub F64.one (F64.div F64.posInf two64)) F64.posZero = true := by decide +kernel

/-- A number above TLR that does not saturate is finite. -/
theorem isFinite_of_not_saturates {x : F64} (hx : x.isFinite = true ∨ x = F64.posInf)
    (hd : F64.le (F64.sub F64.one (F64.div x two64)) F64.posZero = false) : x.isFinite = true := by
  refine hx.resolve_right fun h => ?_
  rw [h, posInf_saturates] at hd
  cases hd

/-! ### The last two steps (R150 to R152) -/

section
variable (L : LnUnit) {c : Cfg} {x : F64} {f : RegimeFlags} (hx : x.isFinite = true ∨ x = F64.posInf)
include hx

/-- The large-range correction of a number that does not saturate. -/
theorem lastSteps_corrected_eq (hc : c.mode = .biasCorrected) (h : F64.lt tlr x = true)
    (hd : F64.le (F64.sub F64.one (F64.div x two64)) F64.posZero = false) : lastSteps L.ln c x f =
      ⟨F64.neg (F64.mul two64 (L.ln (F64.sub F64.one (F64.div x two64)))), { f with lr := true }⟩ := by
  obtain ⟨hpos, hmag⟩ := posFinite_of_lt_tlr (isFinite_of_not_saturates hx hd) h
  rw [lastSteps, largeRange_corrected hc h hd, outputRule_id (saturated_sign L hpos hmag hd).1]

/-- The last two steps end in a non-negative value that is no NaN. -/
theorem lastSteps_number :
    (lastSteps L.ln c x f).value.sign = false ∧ (lastSteps L.ln c x f).value.isNaN = false := by
  by_cases hlarge : c.mode = .biasCorrected ∧ F64.lt tlr x = true
  · obtain ⟨hc, hl⟩ := hlarge
    cases hd : F64.le (F64.sub F64.one (F64.div x two64)) F64.posZero
    case true =>
      rw [lastSteps_infinity hc hl hd]
      exact posInf_number
    case false =>
      obtain ⟨hpos, hmag⟩ := posFinite_of_lt_tlr (isFinite_of_not_saturates hx hd) hl
      rw [lastSteps_corrected_eq L hx hc hl hd]
      exact saturated_sign L hpos hmag hd
  · cases hs : x.sign
    case false =>
      rw [lastSteps_keeps (baseline_or_false hlarge) hs]
      refine ⟨hs, ?_⟩
      rcases hx with hf | rfl
      · exact F64.isNaN_of_isFinite hf
      · exact posInf_number.2
    case true =>
      have hf : x.isFinite = true := hx.resolve_right fun h => by
        rw [h] at hs
        cases posInf_number.1.symm.trans hs
      rw [lastSteps_negative hf hs]
      exact posZero_number

end

/-! ### Linear counting (R145) -/

/-- Linear counting written out, with Z as the size of a set. -/
theorem linearCounting_eq (ln : F64 → F64) (c : Cfg) (regs : RegFile) :
    linearCounting ln c.m (zeroCount regs c.m) = F64.mul (F64.ofNat (2 ^ c.p.toNat))
      (ln (F64.div (F64.ofNat (2 ^ c.p.toNat))
        (F64.ofNat ((Finset.range (2 ^ c.p.toNat)).filter fun i => regs.read i = 0#7).card))) := by
  rw [← zeroCount_eq_card]
  rfl

/-- With every register at 0, linear counting gives +0.0. -/
theorem linearCounting_self (L : LnUnit) {m : Nat} (h1 : 1 ≤ m) (h2 : m ≤ 65536) :
    linearCounting L.ln m m = F64.posZero := by
  obtain ⟨hm, -⟩ := ofNat_exact h1 h2
  have hquot : F64.div (F64.ofNat m) (F64.ofNat m) = F64.one := by
    rw [F64.div_of_finite hm.finite hm.finite hm.pos.ne', hm.sign]
    exact F64.rne_exact (c := 1023 * 2 ^ 52) hm.pos (by norm_num) (by rw [magOf_two_pow (by norm_num), mul_comm])
  rw [linearCounting, hquot, L.ln_one, F64.mul_of_finite hm.finite posZero_facts.1, hm.sign]
  exact F64.rne_exact (c := 0) (by positivity) (by norm_num) (by simp [show F64.posZero.mag = 0 by decide, F64.magOf])

theorem zeroCount_of_all_zero {regs : RegFile} {m : Nat} (h : ∀ k < m, regs.read k = 0#7) : zeroCount regs m = m := by
  rw [zeroCount_eq_card, Finset.filter_true_of_mem fun k hk => h k (Finset.mem_range.1 hk), Finset.card_range]

/-! ### The branches -/

section
variable {L : LnUnit} {rom : BiasRom} {c : Cfg} {regs : RegFile}

/-- Linear counting, with no bound on LN. -/
theorem estimate_counting (hs : smallRange c.m (rawEstimate c.p.toNat regs) = true) (hz : 0 < zeroCount regs c.m) :
    estimate L.ln rom c regs =
      lastSteps L.ln c (linearCounting L.ln c.m (zeroCount regs c.m)) ⟨true, false, false, false⟩ := by
  rw [estimate, smallOrMidRange_linear hs hz]

/-- Above 2.5·m the small-range branch is not taken (R144). -/
theorem smallRange_eq_false (hc : c.legal = true)
    (h : 5 / 2 * (2 ^ c.p.toNat : ℕ) < (rawEstimate c.p.toNat regs).toRat) :
    smallRange c.m (rawEstimate c.p.toNat regs) = false :=
  Bool.eq_false_iff.2 fun hs => h.not_ge ((smallRange_iff regs hc).1 hs)

/-- From 5·m on the mid-range branch is not taken (R146). -/
theorem belowMidRangeTop_eq_false (hc : c.legal = true)
    (h : 5 * (2 ^ c.p.toNat : ℕ) ≤ (rawEstimate c.p.toNat regs).toRat) :
    belowMidRangeTop c.m (rawEstimate c.p.toNat regs) = false :=
  Bool.eq_false_iff.2 fun hb => h.not_gt ((belowMid_iff regs hc).1 hb)

/-- In every branch the last two steps start from a finite number or +infinity. -/
theorem estimate_eq_lastSteps (hc : c.legal = true) : ∃ x f, (x.isFinite = true ∨ x = F64.posInf) ∧
    estimate L.ln rom c regs = lastSteps L.ln c x f := by
  obtain ⟨hp4, hp16⟩ := legal_p hc
  obtain ⟨hraw, hmag⟩ := rawEstimate_facts regs hp4 hp16
  cases hs : smallRange c.m (rawEstimate c.p.toNat regs)
  case true =>
    rcases Nat.eq_zero_or_pos (zeroCount regs c.m) with hz | hz
    · exact ⟨_, _, .inl hraw.finite, by rw [estimate, smallOrMidRange_full hs hz]⟩
    · obtain ⟨hsign, hnan⟩ := linearCounting_facts L hz (zeroCount_le regs c.m) (legal_widths hc).1
      exact ⟨_, _, isFinite_or_posInf hsign hnan, estimate_counting hs hz⟩
  case false =>
    by_cases hmid : c.mode = .biasCorrected ∧ belowMidRangeTop c.m (rawEstimate c.p.toNat regs) = true
    · exact ⟨_, _, .inl (midRange_finite rom hraw hmag), estimate_mid hs hmid.1 hmid.2⟩
    · exact ⟨_, _, .inl hraw.finite, estimate_raw hs (baseline_or_false hmid)⟩

end

/-! ### EST -/

/-- The block's LN unit. -/
abbrev blockLn : LnUnit := @Config.lnUnit ⟨LnUnit.sample⟩

/-- EST answers the estimate with its flags. -/
theorem exec_est_estimate {s : State} (hc : s.cfg.configured = true) {v : F64} {f : RegimeFlags}
    (he : estimate blockLn.ln s.rom s.cfg s.regs = ⟨v, f⟩) :
    exec .est s = .next { s with rq := s.rq ++ [⟨flagStatus f, v⟩] } :=
  exec_est s hc he rfl

/-- Settles O8: the branch fixes what the last two steps start from, and these have one case per clause. -/
theorem estFollowsRegimes : Obligations.EstFollowsRegimes := by
  intro s hc hl
  obtain ⟨hp4, hp16⟩ := legal_p hl
  obtain ⟨hraw, hmag⟩ := rawEstimate_facts s.regs hp4 hp16
  have hsmall := smallRange_iff s.regs hl
  dsimp only
  rw [← zeroCount_eq_card, ← tlr_bits, ← windowAvg_eq]
  refine ⟨fun hs hz hkeep => ?_, fun hs hz => ?_, fun hs hmode => ?_, fun hs hb hmode => ?_, fun hb hmode => ?_⟩
  · have hm : s.cfg.m ≤ 65536 := (legal_widths hl).1
    have hsign := (linearCounting_facts blockLn hz (zeroCount_le s.regs s.cfg.m) hm).1
    exact exec_est_estimate hc ((estimate_counting (hsmall.2 hs) hz).trans (lastSteps_keeps hkeep hsign))
  · exact exec_est_estimate hc (estimate_full hl (hsmall.2 hs) hz)
  · have he := estimate_raw (L := blockLn) (rom := s.rom) (smallRange_eq_false hl hs) (.inl hmode)
    exact exec_est_estimate hc (he.trans (lastSteps_keeps (.inl hmode) hraw.sign))
  · have he := estimate_mid (L := blockLn) (rom := s.rom) (smallRange_eq_false hl hs) hmode
      ((belowMid_iff s.regs hl).2 hb)
    have hfin := midRange_finite s.rom hraw hmag
    refine ⟨fun hneg => ?_, fun hpos hkeep => ?_, fun hlarge hd => ?_, fun hlarge hd => ?_⟩
    · exact exec_est_estimate hc (he.trans (lastSteps_negative hfin hneg))
    · exact exec_est_estimate hc (he.trans (lastSteps_keeps (.inr hkeep) hpos))
    · exact exec_est_estimate hc (he.trans (lastSteps_infinity hmode hlarge hd))
    · exact exec_est_estimate hc (he.trans (lastSteps_corrected_eq blockLn (.inl hfin) hmode hlarge hd))
  · have hs : 5 / 2 * (2 ^ s.cfg.p.toNat : ℕ) < (rawEstimate s.cfg.p.toNat s.regs).toRat := by
      have := hraw.toRat_pos
      linarith
    have he := estimate_raw (L := blockLn) (rom := s.rom) (smallRange_eq_false hl hs)
      (.inr (belowMidRangeTop_eq_false hl hb))
    refine ⟨fun hkeep => ?_, fun hlarge hd => ?_, fun hlarge hd => ?_⟩
    · exact exec_est_estimate hc (he.trans (lastSteps_keeps (.inr hkeep) hraw.sign))
    · exact exec_est_estimate hc (he.trans (lastSteps_infinity hmode hlarge hd))
    · exact exec_est_estimate hc (he.trans (lastSteps_corrected_eq blockLn (.inl hraw.finite) hmode hlarge hd))

/-- Settles O52: every branch hands a number to the last two steps, and these make it non-negative. -/
theorem estimateIsNonNegativeNumber : Obligations.EstimateIsNonNegativeNumber := by
  intro s hc hl
  obtain ⟨x, f, hx, he⟩ := estimate_eq_lastSteps (L := blockLn) (rom := s.rom) (regs := s.regs) hl
  obtain ⟨hsign, hnan⟩ := lastSteps_number blockLn (c := s.cfg) (f := f) hx
  exact ⟨_, _, exec_est_estimate hc he, (getLsbD_63 _).trans hsign, hnan⟩

/-- Settles O50: raw is `alpha64(P)·m`, in the small range, and linear counting of m zero registers is +0.0. -/
theorem emptySketchEstimatesZero : Obligations.EmptySketchEstimatesZero := by
  intro s hc hl h
  obtain ⟨hp4, hp16⟩ := legal_p hl
  obtain ⟨-, -, -, halpha⟩ := alpha64_facts hp4 hp16
  have hraw := rawEstimate_eq hp4 hp16 (v := 0) (by norm_num) fun k hk => by rw [h k hk]; rfl
  have hsmall : smallRange s.cfg.m (rawEstimate s.cfg.p.toNat s.regs) = true := by
    rw [smallRange_iff s.regs hl, hraw, Nat.cast_pow, Nat.cast_ofNat, add_zero]
    exact mul_le_mul_of_nonneg_right (by linarith) (by positivity)
  have hz : zeroCount s.regs s.cfg.m = s.cfg.m := zeroCount_of_all_zero h
  have hm : 1 ≤ s.cfg.m := Nat.one_le_two_pow
  have he := estimate_counting (L := blockLn) (rom := s.rom) hsmall (hz.symm ▸ hm)
  rw [hz, linearCounting_self blockLn hm (legal_widths hl).1] at he
  exact exec_est_estimate hc (he.trans (lastSteps_keeps (.inr (by decide +kernel)) posZero_number.1))

/-- Settles O51: raw is `alpha64(P)·2^65`, at least 2^64, so it saturates. -/
theorem saturatedSketchEstimatesInfinity : Obligations.SaturatedSketchEstimatesInfinity := by
  intro s hc hl hmode h
  obtain ⟨hp4, hp16⟩ := legal_p hl
  obtain ⟨-, -, halpha, -⟩ := alpha64_facts hp4 hp16
  have hfin := (rawEstimate_facts s.regs hp4 hp16).1.finite
  have hraw : 2 ^ 64 ≤ (rawEstimate s.cfg.p.toNat s.regs).toRat := by
    rw [rawEstimate_eq hp4 hp16 (by omega) h, Nat.add_sub_cancel' (by omega)]
    linarith
  have hm : ((2 ^ s.cfg.p.toNat : ℕ) : ℚ) ≤ 2 ^ 16 := by
    exact_mod_cast Nat.pow_le_pow_right two_pos hp16
  have hsmall := smallRange_eq_false (regs := s.regs) hl (by linarith)
  have hbelow := belowMidRangeTop_eq_false (regs := s.regs) hl (by linarith)
  have htlr : tlr.toRat < 2 ^ 64 := by decide +kernel
  have hlarge := (F64.lt_iff_toRat tlr_facts.1.finite hfin).2 (htlr.trans_le hraw)
  exact exec_est_estimate hc ((estimate_raw hsmall (.inr hbelow)).trans
    (lastSteps_infinity hmode hlarge (saturates_of_ge hfin hraw hlarge)))

/-! ### Linear counting above TLR (R150) -/

/-- An LN unit with every value above 1 replaced by one positive finite value. -/
def LnUnit.withTop (L : LnUnit) {b : F64} (hb : PosFinite b) : LnUnit where
  ln x := if F64.lt F64.one x then b else L.ln x
  ln_one := by rw [if_neg (by decide +kernel), L.ln_one]
  ln_finite x hx h0 := by
    split
    · exact hb.finite
    · exact L.ln_finite x hx h0
  ln_pos x _ h := by
    rw [if_pos h, F64.lt_iff_toRat posZero_facts.1 hb.finite, F64.posZero_toRat]
    exact hb.toRat_pos
  ln_neg x h0 h1 := by
    have hn : ¬ F64.lt F64.one x = true := fun h => by
      simp only [F64.lt, Bool.and_eq_true, decide_eq_true_eq] at h h1
      omega
    rw [if_neg hn]
    exact L.ln_neg x h0 h1

theorem LnUnit.withTop_ln {L : LnUnit} {b x : F64} (hb : PosFinite b) (h : F64.lt F64.one x = true) :
    (LnUnit.withTop L hb).ln x = b := if_pos h

theorem filled8_facts : smallRange ultra4.m (rawEstimate ultra4.p.toNat (RegFile.filled 1#7 8)) = true ∧
    zeroCount (RegFile.filled 1#7 8) ultra4.m = 8 := by decide +kernel

/-- Of sixteen registers with eight at 0, linear counting is `16 ⊗ LN(2)`, and any positive LN(2) can occur. -/
theorem estimate_withTop {b : F64} (hb : PosFinite b) :
    estimate (LnUnit.withTop LnUnit.sample hb).ln BiasRom.sample ultra4 (RegFile.filled 1#7 8) =
      lastSteps (LnUnit.withTop LnUnit.sample hb).ln ultra4 (F64.mul (F64.ofNat 16) b) ⟨true, false, false, false⟩ := by
  obtain ⟨hs, hz⟩ := filled8_facts
  have hquot : F64.lt F64.one (F64.div (F64.ofNat 16) (F64.ofNat 8)) = true := by decide +kernel
  rw [estimate_counting hs (by rw [hz]; decide), hz, show ultra4.m = 16 from rfl, linearCounting,
    LnUnit.withTop_ln hb hquot]

theorem exists_flags_of_top {b : F64} (hb : PosFinite b) {v : F64} {f : RegimeFlags}
    (h : lastSteps (LnUnit.withTop LnUnit.sample hb).ln ultra4 (F64.mul (F64.ofNat 16) b) ⟨true, false, false, false⟩ =
      ⟨v, f⟩) : ∃ (L : LnUnit) (rom : BiasRom) (c : Cfg) (regs : RegFile),
      c.legal = true ∧ (estimate L.ln rom c regs).flags.bits = f.bits :=
  ⟨_, _, _, _, rfl, by rw [(estimate_withTop hb).trans h]⟩

/-- `16 ⊗ 2^56` lies above TLR and does not saturate. -/
theorem top56_facts : PosFinite 0x4370000000000000#64 ∧
    F64.lt tlr (F64.mul (F64.ofNat 16) 0x4370000000000000#64) = true ∧
    F64.le (F64.sub F64.one (F64.div (F64.mul (F64.ofNat 16) 0x4370000000000000#64) two64)) F64.posZero = false :=
  ⟨⟨by decide, by decide, by decide +kernel⟩, by decide +kernel, by decide +kernel⟩

/-- `16 ⊗ 2^60` saturates. -/
theorem top60_facts : PosFinite 0x43B0000000000000#64 ∧
    F64.lt tlr (F64.mul (F64.ofNat 16) 0x43B0000000000000#64) = true ∧
    F64.le (F64.sub F64.one (F64.div (F64.mul (F64.ofNat 16) 0x43B0000000000000#64) two64)) F64.posZero = true :=
  ⟨⟨by decide, by decide, by decide +kernel⟩, by decide +kernel, by decide +kernel⟩

/-- Settles O54: the last two steps of linear counting above TLR, and an LN unit for each of their cases. -/
theorem linearCountingAboveThreshold : Obligations.LinearCountingAboveThreshold := by
  refine ⟨fun L rom c regs hl hmode => ?_, ?_⟩
  · dsimp only
    rw [← linearCounting_eq, ← zeroCount_eq_card, ← tlr_bits]
    intro hs (hz : 0 < zeroCount regs c.m) hlarge
    obtain ⟨hsign, hnan⟩ := linearCounting_facts L hz (zeroCount_le regs c.m) (legal_widths hl).1
    rw [estimate_counting ((smallRange_iff regs hl).2 hs) hz]
    refine ⟨fun hd => ?_, fun hd => ?_⟩
    · rw [lastSteps_infinity hmode hlarge hd]
      exact ⟨rfl, rfl⟩
    · rw [lastSteps_corrected_eq L (isFinite_or_posInf hsign hnan) hmode hlarge hd]
      exact ⟨show RegimeFlags.bits ⟨true, false, true, false⟩ = 0x5#4 by decide, rfl⟩
  · obtain ⟨hb56, hl56, hd56⟩ := top56_facts
    obtain ⟨hb60, hl60, hd60⟩ := top60_facts
    have hfin : (F64.mul (F64.ofNat 16) 0x4370000000000000#64).isFinite = true := by decide +kernel
    exact List.forall_mem_cons.2 ⟨exists_flags_of_top hb56 (lastSteps_corrected_eq _ (.inl hfin) rfl hl56 hd56),
      List.forall_mem_singleton.2 (exists_flags_of_top hb60 (lastSteps_infinity rfl hl60 hd60))⟩

end Sys2Proof.Machine
end

section
/-! SUPPORT. Errors (60_exceptions.md): the error a command is refused with, if any, as one function of the command and
the configuration, and that every command answers by it. -/

namespace Sys2Proof.Machine

/-! ### The fields of a command word as numbers (30_encoding.md R85) -/

theorem opField_toNat (w : CmdWord) : (opField w).toNat = w.toNat % 16 := by
  simp [opField]

theorem pField_toNat (w : CmdWord) : (pField w).toNat = w.toNat / 2 ^ 8 % 32 := by
  simp [pField, Nat.shiftRight_eq_div_pow]

theorem indexField_toNat (w : CmdWord) : (indexField w).toNat = w.toNat / 2 ^ 16 := by
  have hw := w.isLt
  simp only [indexField, BitVec.extractLsb'_toNat, Nat.shiftRight_eq_div_pow]
  omega

theorem modeField_eq_biasCorrected_iff (w : CmdWord) : modeField w = .biasCorrected ↔ w.getLsbD 13 = true := by
  unfold modeField
  cases w.getLsbD 13 <;> decide

/-- A reserved bit of format N is set exactly in the words from 16 on. -/
theorem reservedN_set_iff (w : CmdWord) : w &&& 0xFFFFFFF0#32 ≠ 0#32 ↔ 16 ≤ w.toNat := by
  have hclear : w &&& 0xFFFFFFF0#32 = 0#32 ↔ w.extractLsb' 4 28 = 0#28 := by
    conv_lhs => rw [word_eq_append w]
    exact reservedN_clear_iff _ _
  have hw := w.isLt
  rw [ne_eq, hclear, ← BitVec.toNat_inj, BitVec.extractLsb'_toNat, Nat.shiftRight_eq_div_pow, BitVec.toNat_zero]
  omega

/-- A reserved bit of the opcode's format is set in the word: the three formats of 30_encoding.md R85. -/
abbrev ReservedBitSet (w : CmdWord) : Prop :=
  (w.toNat % 16 = 1 ∧ w &&& 0xFFFF80F0#32 ≠ 0#32) ∨ (w.toNat % 16 = 4 ∧ w &&& 0x0000FFF0#32 ≠ 0#32) ∨
    (w.toNat % 16 ≠ 1 ∧ w.toNat % 16 ≠ 4 ∧ 16 ≤ w.toNat)

/-- The decoder's mask finds the reserved bits of each format. -/
theorem reservedMask_set_iff (w : CmdWord) : w &&& reservedMask (opField w) ≠ 0#32 ↔ ReservedBitSet w := by
  have hop : ∀ k : BitVec 4, opField w = k ↔ w.toNat % 16 = k.toNat := fun k => by
    rw [← opField_toNat, BitVec.toNat_inj]
  have h1 := hop 0x1#4
  have h4 := hop 0x4#4
  rw [ReservedBitSet, ← reservedN_set_iff]
  unfold reservedMask
  split_ifs <;> simp_all

/-! ### The decoder's outcomes, by the number of the word (30_encoding.md R92) -/

/-- A word with an illegal opcode decodes to an ILLEGAL command, whatever its other bits and its DATA. -/
theorem decodeCommand_illegal {w : CmdWord} (hop : 8 ≤ w.toNat % 16) (d : Data64) :
    decodeCommand ⟨w, d⟩ = .ok (.illegal (opField w) (w.extractLsb' 4 28)) :=
  decode_illegal (by rwa [opField_toNat]) d

/-- A word with a legal opcode and a reserved bit set has the decoder's own error. -/
theorem decodeCommand_reserved {w : CmdWord} (hop : w.toNat % 16 < 8) (hr : ReservedBitSet w) (d : Data64) :
    decodeCommand ⟨w, d⟩ = .error .reservedField :=
  decode_reserved (by rwa [opField_toNat]) ((reservedMask_set_iff w).2 hr) d

/-- Every other word decodes to the command of its opcode. -/
theorem decodeCommand_legal {w : CmdWord} (hop : w.toNat % 16 < 8) (hr : ¬ReservedBitSet w) (d : Data64) :
    decodeCommand ⟨w, d⟩ = .ok (decodeLegal w d) :=
  decode_legal (by rwa [opField_toNat]) (not_not.1 (mt (reservedMask_set_iff w).1 hr)) d

/-! ### Which error a command is refused with (60_exceptions.md R160 to R167) -/

/-- The error of a decoded command, none where it executes: the state check first, then the operand check. -/
def errorOf (s : State) : Instr → Option ErrorCode
  | .illegal _ _ => some .illegalOp
  | .add _ | .est | .rdseed => if s.cfg.configured then none else some .notConfigured
  | .rdreg index =>
    if s.cfg.configured then if s.cfg.m ≤ index.toNat then some .indexRange else none else some .notConfigured
  | .config w64 mode p _ =>
    if s.cfg.configured then some .alreadyConfigured
    else if !(Cfg.mk p mode w64 true).legal then some .badConfig else none
  | .nop | .rdstat | .release => none

/-- The error of an accepted command, the decoder's before the command's own. -/
def commandError (s : State) (c : Command) : Option ErrorCode :=
  match decodeCommand c with
  | .ok i => errorOf s i
  | .error e => some e

/-- NOT_CONFIGURED is the error of the four sketch commands, on an unconfigured block alone (60_exceptions.md R161). -/
theorem errorOf_eq_notConfigured_iff (s : State) (i : Instr) : errorOf s i = some .notConfigured ↔
    s.cfg.configured = false ∧ ((∃ d, i = .add d) ∨ i = .est ∨ (∃ k, i = .rdreg k) ∨ i = .rdseed) := by
  cases i with
  | config w64 mode p seed =>
    simp only [errorOf]
    split_ifs <;> simp
  | rdreg index =>
    simp only [errorOf]
    split_ifs <;> simp [*]
  | _ => simp [errorOf]

/-! ### Every command answers by its error -/

/-- How a command with the error `err` ends: refused with the error response alone, or else executed, with one
response of ERR = 0. -/
def Answers (s : State) (o : Host.Outcome State Fault Refusal) : Option ErrorCode → Prop
  | some e => o = .next (s.raiseError e)
  | none => ∃ (t : State) (r : Response), o = .next t ∧ t.rq = s.rq ++ [r] ∧ r.status.msb = false

theorem exec_est_unconfigured {s : State} (hc : s.cfg.configured = false) :
    exec .est s = .next (s.raiseError .notConfigured) := by
  simp [exec, execEst, hc]

theorem flagStatus_msb (f : RegimeFlags) : (flagStatus f).msb = false := by
  obtain ⟨sr, mr, lr, cl⟩ := f
  revert sr mr lr cl
  decide

/-- A response of ERR = 0 alone, on a state with the same response queue. -/
theorem answers_ok {s u : State} (hrq : u.rq = s.rq) (f : RegimeFlags) (d : Data64) :
    Answers s (.next (u.respond (flagStatus f) d)) none :=
  ⟨_, ⟨flagStatus f, d⟩, rfl, by rw [State.respond_rq, hrq], flagStatus_msb f⟩

/-- CONFIG passes its state check, then its operand check, or is refused. -/
theorem config_answers (w64 : Bool) (mode : Mode) (p : BitVec 5) (seed : Data64) (s : State) :
    Answers s (exec (.config w64 mode p seed) s) (errorOf s (.config w64 mode p seed)) := by
  simp only [errorOf]
  split_ifs with hc hl
  · exact exec_config_configured seed hc
  · exact exec_config_illegal seed (Bool.eq_false_of_not_eq_true hc) (by simpa using hl)
  · rw [exec_config_legal seed (Bool.eq_false_of_not_eq_true hc) (by simpa using hl)]
    exact answers_ok (by rfl) .none 0#64

/-- RDREG passes its state check, then its operand check, or is refused. -/
theorem rdreg_answers (index : BitVec 16) (s : State) :
    Answers s (exec (.rdreg index) s) (errorOf s (.rdreg index)) := by
  simp only [errorOf]
  split_ifs with hc hi
  · exact exec_rdreg_outOfRange hc hi
  · rw [exec_rdreg_inRange hc (not_le.1 hi)]
    exact answers_ok rfl .none _
  · exact exec_rdreg_unconfigured (Bool.eq_false_of_not_eq_true hc) index

/-- Every command answers by its error. -/
theorem exec_answers (i : Instr) (s : State) : Answers s (exec i s) (errorOf s i) := by
  cases i with
  | nop => exact answers_ok rfl .none 0#64
  | config w64 mode p seed => exact config_answers w64 mode p seed s
  | add d =>
    simp only [errorOf]
    split_ifs with hc
    · exact ⟨_, _, exec_add_responds hc d, rfl, flagStatus_msb .none⟩
    · exact exec_add_unconfigured (Bool.eq_false_of_not_eq_true hc) d
  | est =>
    simp only [errorOf]
    split_ifs with hc
    · exact ⟨_, _, exec_est_estimate hc rfl, rfl, flagStatus_msb _⟩
    · exact exec_est_unconfigured (Bool.eq_false_of_not_eq_true hc)
  | rdreg index => exact rdreg_answers index s
  | rdstat => exact answers_ok rfl .none _
  | rdseed =>
    simp only [errorOf]
    split_ifs with hc
    · rw [exec_rdseed_configured hc]
      exact answers_ok rfl .none _
    · exact exec_rdseed_unconfigured (Bool.eq_false_of_not_eq_true hc)
  | release => exact answers_ok (by rfl) .none 0#64
  | illegal op rest => exact rfl

/-- So does every accepted command. -/
theorem runCommand_answers (c : Command) (s : State) : Answers s (runCommand c s) (commandError s c) := by
  unfold runCommand commandError
  cases decodeCommand c with
  | ok i => exact exec_answers i s
  | error e => exact rfl

/-- The one response, and what its status shows. -/
theorem Answers.response {s : State} {o : Host.Outcome State Fault Refusal} {err : Option ErrorCode}
    (h : Answers s o err) : ∃ (t : State) (r : Response), o = .next t ∧ t.rq = s.rq ++ [r] ∧
      (∀ e, err = some e → r.status = errorStatus e) ∧ (err = none → r.status.msb = false) := by
  cases err with
  | none =>
    obtain ⟨t, r, ho, hrq, hmsb⟩ := h
    exact ⟨t, r, ho, hrq, nofun, fun _ => hmsb⟩
  | some e => exact ⟨_, ⟨errorStatus e, 0#64⟩, h, rfl, fun _ he => congrArg errorStatus (Option.some.inj he), nofun⟩

theorem errorStatus_inj {e e' : ErrorCode} : errorStatus e = errorStatus e' ↔ e = e' := by
  cases e <;> cases e' <;> decide

theorem errorStatus_msb (e : ErrorCode) : (errorStatus e).msb = true := by
  cases e <;> rfl

/-- A response with an error's status is that error's. -/
theorem Answers.error_of_status {s t : State} {err : Option ErrorCode} {r : Response} {e : ErrorCode}
    (h : Answers s (.next t) err) (hrq : t.rq = s.rq ++ [r]) (hst : r.status = errorStatus e) : err = some e := by
  obtain ⟨t', r', ht, hrq', hsome, hnone⟩ := h.response
  obtain rfl := Host.Outcome.next.inj ht
  obtain rfl : r = r' := by simpa using hrq.symm.trans hrq'
  cases err with
  | none => cases (errorStatus_msb e).symm.trans (hst ▸ hnone rfl)
  | some e' => rw [errorStatus_inj.1 ((hsome e' rfl).symm.trans hst)]

/-! ### The order of the errors (R167) -/

/-- The operand check of CONFIG on the word's fields (40_configuration.md R113). -/
theorem configWord_illegal_iff (w : CmdWord) : (w.toNat / 2 ^ 8 % 32 < 4 ∨ 16 < w.toNat / 2 ^ 8 % 32 ∨
    (w.getLsbD 13 = true ∧ w.getLsbD 14 = false)) ↔
    (Cfg.mk (pField w) (modeField w) (w64Field w) true).legal = false := by
  rw [← Bool.not_eq_true (Cfg.legal _), legal_iff, modeField_eq_biasCorrected_iff, pField_toNat, w64Field,
    not_and_or, not_and_or, not_le, not_le, not_not]

/-- The state and operand checks of a legal word, in the order of 60_exceptions.md R167: for each of the eight opcodes,
with a sketch and without, both sides are the same check. -/
theorem errorOf_decodeLegal {w : CmdWord} (h : w.toNat % 16 < 8) (d : Data64) (s : State) :
    errorOf s (decodeLegal w d) =
      if (w.toNat % 16 = 2 ∨ w.toNat % 16 = 3 ∨ w.toNat % 16 = 4 ∨ w.toNat % 16 = 6) ∧ s.cfg.configured = false then
        some .notConfigured
      else if w.toNat % 16 = 1 ∧ s.cfg.configured = true then some .alreadyConfigured
      else if w.toNat % 16 = 1 ∧ (w.toNat / 2 ^ 8 % 32 < 4 ∨ 16 < w.toNat / 2 ^ 8 % 32 ∨
          (w.getLsbD 13 = true ∧ w.getLsbD 14 = false)) then some .badConfig
      else if w.toNat % 16 = 4 ∧ 2 ^ s.cfg.p.toNat ≤ w.toNat / 2 ^ 16 then some .indexRange
      else none := by
  simp only [configWord_illegal_iff]
  unfold decodeLegal
  rw [← opField_toNat] at h ⊢
  generalize (opField w).toNat = n at h
  interval_cases n
  all_goals cases hc : s.cfg.configured <;> simp [errorOf, hc, indexField_toNat, Cfg.m]

/-! ### The obligations -/

/-- Settles O11: the four commands, and no others, have the error NOT_CONFIGURED, on an unconfigured block alone. -/
theorem sketchCommandsNeedSketch : Obligations.SketchCommandsNeedSketch := by
  refine ⟨fun s i hc hi => ?_, fun s t i ht hrq => ?_⟩
  · have h := exec_answers i s
    rwa [(errorOf_eq_notConfigured_iff s i).2 ⟨hc, hi⟩] at h
  · have h := exec_answers i s
    rw [ht] at h
    exact (errorOf_eq_notConfigured_iff s i).1 (h.error_of_status (e := .notConfigured) hrq rfl)

/-- Settles O12: the decoder's two errors come before those of `errorOf_decodeLegal`, and the response shows the
command's error. -/
theorem firstErrorByPriority : Obligations.FirstErrorByPriority := by
  intro s w d
  obtain ⟨t, r, hrun, hrq, hsome, hnone⟩ := (runCommand_answers ⟨w, d⟩ s).response
  refine ⟨t, r, hrun, hrq, ?_⟩
  dsimp only
  rcases Nat.lt_or_ge (w.toNat % 16) 8 with hlegal | hillegal
  · rw [if_neg (not_le.2 hlegal)]
    by_cases hr : ReservedBitSet w
    · rw [if_pos hr]
      exact hsome .reservedField (by rw [commandError, decodeCommand_reserved hlegal hr d])
    · rw [if_neg hr]
      have herr : commandError s ⟨w, d⟩ = errorOf s (decodeLegal w d) := by
        rw [commandError, decodeCommand_legal hlegal hr d]
      rw [herr, errorOf_decodeLegal hlegal] at hsome hnone
      split_ifs at hsome hnone ⊢
      · exact hsome .notConfigured rfl
      · exact hsome .alreadyConfigured rfl
      · exact hsome .badConfig rfl
      · exact hsome .indexRange rfl
      · exact hnone rfl
  · rw [if_pos hillegal]
    exact hsome .illegalOp (by rw [commandError, decodeCommand_illegal hillegal d]; rfl)

/-- Settles O13: a refused command ends as `State.raiseError` says, and one that executes answers ERR = 0. -/
theorem refusedCommandWritesNothing : Obligations.RefusedCommandWritesNothing := by
  intro s t c ht
  have h := runCommand_answers c s
  rw [ht] at h
  generalize commandError s c = err at h
  cases err with
  | none =>
    obtain ⟨u, r, hu, hrq, hmsb⟩ := h
    obtain rfl := Host.Outcome.next.inj hu
    exact ⟨r, hrq, fun herr => by cases hmsb.symm.trans herr⟩
  | some e =>
    obtain rfl := Host.Outcome.next.inj h
    exact ⟨⟨errorStatus e, 0#64⟩, rfl, fun _ => ⟨rfl, rfl⟩⟩

/-- Settles O9: bit 3 of a word is bit 3 of its opcode, and the decoder looks at the opcode first. -/
theorem illegalOpcodesRefused : Obligations.IllegalOpcodesRefused := by
  refine ⟨fun s w d hw => ?_, fun s op rest hop => ⟨?_, rfl⟩⟩
  · have hop : (opField w).getLsbD 3 = true := by simpa [opField] using hw
    have hlarge := (eight_le_toNat_iff _).2 hop
    rw [opField_toNat] at hlarge
    exact runCommand_of_decode (decodeCommand_illegal hlarge d) s
  · exact decodeOfEncode (.illegal op rest) ((eight_le_toNat_iff op).1 hop)

/-- Settles O10: the statement's three formats are those of the decoder's mask. -/
theorem reservedBitsRefused : Obligations.ReservedBitsRefused := by
  intro s w d hop hset
  have hr : ReservedBitSet w := by
    split_ifs at hset with h1 h4
    · exact .inl ⟨h1, hset⟩
    · exact .inr (.inl ⟨h4, hset⟩)
    · exact .inr (.inr ⟨h1, h4, hset⟩)
  rw [runCommand, decodeCommand_reserved hop hr d]
  rfl

/-- Settles O20: each branch of a step answers a next state. -/
theorem blockNeverStops : Obligations.BlockNeverStops := fun s => ⟨advance s, step_advance s⟩

end Sys2Proof.Machine
end

section
/-! SUPPORT. Runs and resets (70_reset_and_hazards.md R190 to R192, R199): what a reset leaves, that a run shows nothing
of what came before its reset, and that a run that is over changes no more. -/

namespace Sys2Proof.Machine

/-! ### From the reset on -/

/-- Settles O23: the reset edge's state has these values. -/
theorem resetEdgeRule : Obligations.ResetEdgeRule := by
  intro s e es he hr
  refine ⟨_, step_reset he hr, rfl, rfl, rfl, rfl, rfl, rfl, rfl, acceptedNow_reset he hr, rfl, ?_, rfl, rfl, rfl⟩
  simp

theorem advance_reset {s : State} {e : Edge} {es : List Edge} (he : s.edges = e :: es) (hr : e.rst = true) :
    advance s = State.resetEdge { s with edges := es } :=
  Host.Outcome.next.inj ((step_advance s).symm.trans (step_reset he hr))

theorem HiddenDiffer.atomically {s u : State} (h : HiddenDiffer s u) (cs : List Command) :
    HiddenDiffer (atomically cs s) (atomically cs u) := by
  induction cs generalizing s u with
  | nil => exact h
  | cons c cs ih =>
    obtain ⟨t, v, hs, hu, htv⟩ := h.runCommand c
    rw [atomically_cons hs, atomically_cons hu]
    exact ih htv

/-- After their resets two blocks differ, as far as the atomic machine sees, in the hidden slots alone: they answer
alike. -/
theorem atomically_resetEdge {s₁ s₂ : State} (hrom : s₁.rom = s₂.rom) (cs : List Command) :
    let u₁ := atomically cs s₁.resetEdge
    let u₂ := atomically cs s₂.resetEdge
    u₁.taken ++ u₁.rq = u₂.taken ++ u₂.rq ∧ u₁.seed = u₂.seed ∧ u₁.cfg = u₂.cfg := by
  obtain ⟨rg, hu, -⟩ := (HiddenDiffer.of_unconfigured (s := s₁.resetEdge) rfl s₂.resetEdge.regs).atomically cs
  have hblock : SameBlock s₂.resetEdge { s₁.resetEdge with regs := s₂.resetEdge.regs } := ⟨rfl, rfl, rfl, hrom, rfl⟩
  obtain ⟨hcfg, hseed, -, -, hlog⟩ := hblock.atomically cs
  rw [hu] at hcfg hseed hlog
  exact ⟨hlog, hseed, hcfg⟩

/-- Settles O56: both runs observe what the atomic machine does with their commands from a reset state. -/
theorem runFromResetIsItsOwn : Obligations.RunFromResetIsItsOwn := by
  intro s₁ s₂ r₁ r₂ es₁ es₂ n₁ n₂ hrom he₁ he₂ hrst₁ hrst₂ hr₁ hr₂ t₁ t₂ haccepted hover₁ hover₂
  have ht₁ : t₁ = State.resetEdge { s₁ with edges := es₁ } := advance_reset he₁ hrst₁
  have ht₂ : t₂ = State.resetEdge { s₂ with edges := es₂ } := advance_reset he₂ hrst₂
  rw [observation_of_runOver (by rwa [ht₁]) hover₁, observation_of_runOver (by rwa [ht₂]) hover₂, haccepted]
  generalize acceptedWithin n₂ t₂ = cs
  rw [ht₁, ht₂]
  obtain ⟨hlog, hseed, hcfg⟩ :=
    atomically_resetEdge (s₁ := { s₁ with edges := es₁ }) (s₂ := { s₂ with edges := es₂ }) hrom cs
  simp only [State.resetEdge_pending, List.nil_append, hlog, hseed, hcfg]

/-! ### A run that is over -/

theorem runOver_iff (s : State) :
    s.runOver = true ↔ noCommandToCome s.edges = true ∧ s.pending = [] ∧ s.rq = [] := by
  simp [State.runOver, and_assoc]

theorem noCommandToCome_cons {e : Edge} (hr : e.rst = false) (es : List Edge) :
    noCommandToCome (e :: es) = true ↔
      ¬(e.cmdValid = true ∧ e.willing = true) ∧ noCommandToCome es = true := by
  simp [noCommandToCome, hr, imp_iff_not_or]

theorem transfers_eq_self {s : State} {e : Edge} (hd : s.delivers e = false) (ha : s.accepts e = false) :
    transfers e s = s := by
  simp [transfers, hd, ha]

/-- With no command to execute, to accept or to answer for, an edge without reset passes and changes nothing. -/
theorem step_quiet {s : State} {e : Edge} {es : List Edge} (he : s.edges = e :: es) (hr : e.rst = false)
    (hp : s.pending = []) (hq : s.rq = []) (ha : s.accepts e = false) : step s = .next { s with edges := es } := by
  have htransfers : transfers e { s with edges := es } = { s with edges := es } :=
    transfers_eq_self (by simp [State.delivers, State.rspValid, hq]) ha
  rw [step_advance s]
  obtain ⟨hrst, -⟩ | ⟨-, ht⟩ | ⟨-, -, c, cs, hcs, -⟩ := edge_cases he (step_advance s)
  · cases hr.symm.trans hrst
  · rw [ht, htransfers]
  · rw [htransfers] at hcs
    cases hp.symm.trans hcs

/-- Settles O57: a step takes the quiet next edge off the list, if there is one, and does no more. -/
theorem runThatIsOverStaysOver : Obligations.RunThatIsOverStaysOver := by
  intro s hover hnoReset
  obtain ⟨hquiet, hp, hq⟩ := (runOver_iff s).1 hover
  cases he : s.edges with
  | nil => exact ⟨by simp [acceptedNow, he], s, by simp [step, he], hover, rfl⟩
  | cons e es =>
    have hr : e.rst = false := hnoReset e (by simp [he])
    rw [he, noCommandToCome_cons hr] at hquiet
    obtain ⟨hnone, hquiet⟩ := hquiet
    have ha : s.accepts e = false := by
      rw [Bool.eq_false_iff, ne_eq, accepts_iff s hr]
      exact fun ⟨hvalid, hwilling, _⟩ => hnone ⟨hvalid, hwilling⟩
    exact ⟨by simp [acceptedNow_cons he, ha], _, step_quiet he hr hp hq ha, (runOver_iff _).2 ⟨hquiet, hp, hq⟩, rfl⟩

end Sys2Proof.Machine
end
